-- ==== Sys2Proof/Word.lean ====
section
/-! DEFINITION. The plain data types of the spec's notation (spec/00_scope.md R9, R10): bytes, 32-bit words,
the 64-bit count, byte strings. -/

namespace Sys2Proof

/-- A byte, 0x00 to 0xFF (R9). -/
abbrev Byte := BitVec 8

/-- A 32-bit register or bus word; bit 0 is the least significant bit (R10). -/
abbrev Word := BitVec 32

/-- The width of COUNT, `COUNT_W` = 64 (R6, R25). -/
abbrev Count := BitVec 64

/-- A byte string of any finite length, byte 0 first (R9). -/
abbrev ByteString := List Byte

/-- `rep(n, b)`: n copies of byte b (R9). -/
abbrev rep (n : Nat) (b : Byte) : ByteString := List.replicate n b

end Sys2Proof
end

