-- ==== Sys2Proof/Config.lean ====
section
/-! DEFINITION. The implementation parameters of spec/00_scope.md R6 as one record, and the keyed function
HMAC_H of R7 as a constant without a body. -/

namespace Sys2Proof

/-- The parameters of R6 that a model takes as arguments. A machine carries one such record for its whole life:
no step writes it (log entry 1). -/
structure Config where
  /-- `L`: bytes of a tag, of K and of V; 1 ≤ L ≤ 64 (R6, decision D2). -/
  hashLen : Nat
  /-- `DMEM_SIZE`: a multiple of 4, 64 to 2^31 (R6, decision D8). -/
  dmemSize : Nat
  /-- `RESEED_LIMIT`: 0 disables it (R6, decision D19). -/
  reseedLimit : Word
  /-- `MAX_GEN_BYTES`: 0 disables it (R6, decision D20). -/
  maxGenBytes : Word
  /-- `KV_READABLE` (R6, decision D26). -/
  kvReadable : Bool
  /-- `REG_BASE`: host address of the register window (R6, R50). -/
  regBase : Nat
  /-- `DMEM_BASE`: host address of the DMEM window (R6, R50). -/
  dmemBase : Nat
  deriving DecidableEq, Repr

/-- The values of R6's last column. REG_BASE and DMEM_BASE are OPEN in the spec.
DESIGN CHOICE (log entry 1): 0x0000 and 0x1000. -/
def Config.standard : Config :=
  { hashLen := 32, dmemSize := 4096, reseedLimit := 0, maxGenBytes := 0, kvReadable := false,
    regBase := 0x0000, dmemBase := 0x1000 }

/-- `COUNT_W` (R6). -/
def Config.countWidth : Nat := 64

/-- `HMAC_H` (R7): for an output length L, a key and a message, a tag of exactly L bytes. It has no body: nothing
can be proved of it but that it is a total function with L-byte results (log entry 2). -/
opaque Config.hmacH : (L : Nat) → (key msg : ByteString) → Vector Byte L

end Sys2Proof
end

