-- ==== Sys2Proof/Syntax.lean ====
section
/-! DEFINITION. The commands of spec/opcode_table.json and the one format of a command word
(spec/30_encoding.md R76, R81). -/

namespace Sys2Proof

/-- The six commands (R81). A command carries no operand: what it works on are the argument registers (R79). -/
inductive Instr where
  /-- INSTANTIATE, R110. -/
  | instantiate
  /-- RESEED, R120. -/
  | reseed
  /-- RESEED.A, R121. -/
  | reseedA
  /-- GENERATE, R130. -/
  | generate
  /-- GENERATE.A, R131. -/
  | generateA
  /-- ZEROIZE, R150. -/
  | zeroize
  deriving DecidableEq, Repr

/-- The fields of the format CMDW (R76): OPC = w[3:0], A = w[4], RSV = w[31:5]. -/
structure CmdFields where
  opc : BitVec 4
  a   : Bool
  rsv : BitVec 27
  deriving DecidableEq, Repr

end Sys2Proof
end

