-- ==== Sys2Proof/WellFormed.lean ====
section
/-! DEFINITION. Which command-word fields are well formed (spec/30_encoding.md R76, R77) and which parameter
values are legal (spec/00_scope.md R6). -/

namespace Sys2Proof

/-- RSV must be 0 (R76). -/
def CmdFields.rsvClear (f : CmdFields) : Bool := f.rsv == 0

/-- OPC 0x0 and 0x5 to 0xF are reserved (R77). -/
def CmdFields.opcDefined (f : CmdFields) : Bool := decide (1 ≤ f.opc.toNat ∧ f.opc.toNat ≤ 4)

/-- A may be 1 only for OPC 0x2 and 0x3 (R77). -/
def CmdFields.aAllowed (f : CmdFields) : Bool := !f.a || f.opc == 2 || f.opc == 3

/-- The fields of one of the six command words. -/
def CmdFields.wellFormed (f : CmdFields) : Bool := f.rsvClear && f.opcDefined && f.aAllowed

/-- 1 ≤ L ≤ 64 (R6). -/
def Config.hashLenLegal (c : Config) : Bool := decide (1 ≤ c.hashLen ∧ c.hashLen ≤ 64)

/-- DMEM_SIZE is a multiple of 4 and 64 ≤ DMEM_SIZE ≤ 2^31 (R6). -/
def Config.dmemSizeLegal (c : Config) : Bool :=
  decide (c.dmemSize % 4 = 0 ∧ 64 ≤ c.dmemSize ∧ c.dmemSize ≤ 2 ^ 31)

/-- The two windows do not overlap in the host's address space.
PRESUMED: the spec leaves their places to the platform (R63) and does not say so in words (log entry 9). -/
def Config.windowsApart (c : Config) : Bool :=
  decide (c.regBase + 0x200 ≤ c.dmemBase ∨ c.dmemBase + c.dmemSize ≤ c.regBase)

/-- The legal parameter values of R6. -/
def Config.wellFormed (c : Config) : Bool := c.hashLenLegal && c.dmemSizeLegal && c.windowsApart

end Sys2Proof
end

