-- ==== Sys2Proof/Decode.lean ====
section
/-! DEFINITION. Decoding a command word (spec/30_encoding.md R80), total, and the encoder written from the
opcode map (R81). -/

namespace Sys2Proof

/-- Why a word is Illegal: the three kinds of R82. -/
inductive IllegalWord where
  /-- a bit of [31:5] is set -/
  | reservedBits
  /-- OPC is 0x0 or 0x5 to 0xF -/
  | reservedOpcode
  /-- INSTANTIATE's or ZEROIZE's OPC with A = 1 -/
  | aNotAllowed
  deriving DecidableEq, Repr

/-- The answer of the decoder: "Command or Illegal" (R80). -/
inductive Decoded where
  | command (i : Instr)
  | illegal (why : IllegalWord)
  deriving DecidableEq, Repr

/-- The command of an answer, if it is one. -/
def Decoded.toOption : Decoded → Option Instr
  | .command i => some i
  | .illegal _ => none

/-- Cut a word into the fields of CMDW (R76). -/
def CmdFields.ofWord (w : Word) : CmdFields :=
  { opc := w.extractLsb' 0 4, a := w.getLsbD 4, rsv := w.extractLsb' 5 27 }

/-- The word that the fields of CMDW make up (R76). -/
def CmdFields.toWord (f : CmdFields) : Word :=
  (f.rsv.setWidth 32 <<< 5) ||| ((BitVec.ofBool f.a).setWidth 32 <<< 4) ||| f.opc.setWidth 32

/-- R80's match on (w[3:0], w[4]), after its test of w[31:5]. -/
def decodeFields (f : CmdFields) : Decoded :=
  if f.rsv ≠ 0 then .illegal .reservedBits
  else if f.opc = 0x1 then (if f.a then .illegal .aNotAllowed else .command .instantiate)
  else if f.opc = 0x2 then (if f.a then .command .reseedA else .command .reseed)
  else if f.opc = 0x3 then (if f.a then .command .generateA else .command .generate)
  else if f.opc = 0x4 then (if f.a then .illegal .aNotAllowed else .command .zeroize)
  else .illegal .reservedOpcode

/-- `decode` of R80: the command a 32-bit word offers, or Illegal. It reads no state (R83). -/
def decode (w : Word) : Decoded := decodeFields (CmdFields.ofWord w)

/-- OPC of a command (R77). -/
def Instr.opc : Instr → BitVec 4
  | .instantiate => 0x1
  | .reseed => 0x2
  | .reseedA => 0x2
  | .generate => 0x3
  | .generateA => 0x3
  | .zeroize => 0x4

/-- The A bit of a command (R77, R78). -/
def Instr.aBit : Instr → Bool
  | .instantiate => false
  | .reseed => false
  | .reseedA => true
  | .generate => false
  | .generateA => true
  | .zeroize => false

/-- The fields of a command's word (R81). -/
def Instr.fields (i : Instr) : CmdFields := { opc := i.opc, a := i.aBit, rsv := 0 }

/-- A command is well formed when its word's fields are. -/
def Instr.wellFormed (i : Instr) : Bool := i.fields.wellFormed

/-- The word of a command (R81). -/
def encode (i : Instr) : Word := i.fields.toWord

/-- What the decoder reads from an instruction of `nbits` bits numbered as spec/opcode_table.json numbers them.
A command is one 32-bit word written to CMD (R75); the bits above `nbits` are 0. -/
def decodeTableWord (nbits w : Nat) : Option Instr :=
  if nbits ≤ 32 then (decode (BitVec.ofNat 32 (w % 2 ^ nbits))).toOption else none

end Sys2Proof
end

