-- ==== Sys2Proof/Machine/State.lean ====
section
/-! DEFINITION. The state of the block (spec/10_state.md R20, R44), the inputs that reach it, the reasons a step
can stop, and the state after reset (R46). Everything here is plain data. -/

namespace Sys2Proof.Machine

/-- The rejection codes of R166. Codes 0x8 to 0xF are reserved and never produced, so they have no constructor. -/
inductive ErrCode where
  /-- 0x0 NONE -/
  | noError
  /-- 0x1 ILLEGAL_CMD -/
  | illegalCmd
  /-- 0x2 NOT_INSTANTIATED -/
  | notInstantiated
  /-- 0x3 RANGE -/
  | range
  /-- 0x4 OVERLAP -/
  | overlap
  /-- 0x5 COUNT_EXHAUSTED -/
  | countExhausted
  /-- 0x6 RESEED_REQUIRED -/
  | reseedRequired
  /-- 0x7 REQUEST_TOO_LARGE -/
  | requestTooLarge
  deriving DecidableEq, Repr

/-- The eight argument registers (R28). -/
structure Args where
  seg0Addr : Word
  seg0Len  : Word
  seg1Addr : Word
  seg1Len  : Word
  seg2Addr : Word
  seg2Len  : Word
  outAddr  : Word
  outLen   : Word
  deriving DecidableEq, Repr

/-- The names of the argument registers (R28). -/
inductive ArgReg where
  | seg0Addr | seg0Len | seg1Addr | seg1Len | seg2Addr | seg2Len | outAddr | outLen
  deriving DecidableEq, Repr

/-- LATCH (R44): the command's OPC and A bit and the argument registers, copied at acceptance (R29). -/
structure Latch where
  opc  : BitVec 4
  a    : Bool
  args : Args
  deriving DecidableEq, Repr

/-- The stored fields of STATUS (R32). Its INST bit is a view of the state `inst`. -/
structure Status where
  busy    : Bool
  done    : Bool
  err     : Bool
  errcode : ErrCode
  ovr     : Bool
  deriving DecidableEq, Repr

/-- The three segments (R57). -/
inductive SegIdx where
  | seg0 | seg1 | seg2
  deriving DecidableEq, Repr

/-- The separator byte of HK: "0x00 or 0x01" (R98). -/
inductive Sep where
  | zero | one
  deriving DecidableEq, Repr

/-- The message selectors of R98. -/
inductive MsgSel where
  /-- NONE: the empty message -/
  | nothing
  /-- I3: entropy ‖ nonce ‖ personalization -/
  | i3
  /-- RS: entropy ‖ additional-or-empty -/
  | rs
  /-- GA: additional -/
  | ga
  deriving DecidableEq, Repr

/-- The micro-operations of R96. -/
inductive MicroOp where
  /-- SETKV(k, v), R97 -/
  | setKV (k v : ByteString)
  /-- HK(sep, sel), R98 -/
  | hk (sep : Sep) (sel : MsgSel)
  /-- HV, R99 -/
  | hv
  /-- HO(off, n), R133 -/
  | ho (off n : Nat)
  /-- SETCNT(c), R108 -/
  | setCnt (c : Count)
  /-- INCCNT, R108 -/
  | incCnt
  /-- SETINST(b), R109 -/
  | setInst (b : Bool)
  deriving DecidableEq, Repr

/-- DMEM: the written bytes as (address, byte) pairs, addresses strictly rising. An address that is not listed is
unwritten and has no value (R51; log entry 3). -/
abbrev Memory := List Host.Cell

/-- The widths of a host access (R52, R53). -/
inductive Width where
  | w8 | w16 | w32
  deriving DecidableEq, Repr

/-- One access of a host to a host address (R50). A write carries a bus word of which an access of 8 or 16 bits
uses the low bits (log entry 11). -/
inductive Access where
  | read (width : Width) (addr : Nat)
  | write (width : Width) (addr : Nat) (data : Word)
  deriving DecidableEq, Repr

/-- What happens next to the block: a host's access arrives (R65), the sequencer takes its turn (R95), or the
platform asserts reset (R190). -/
inductive Event where
  | host (acc : Access)
  | sequencer
  | reset
  deriving DecidableEq, Repr

/-- The block's answer to a host access: the read data (0 where there is none) and the bus-error flag
(R52, R177; log entries 7 and 8). -/
structure BusResponse where
  error : Bool
  data  : Word
  deriving DecidableEq, Repr

/-- The state of the machine. -/
structure State where
  /-- The parameters (R6). No step writes them (log entry 1). -/
  cfg    : Config
  /-- K (R21) -/
  k      : ByteString
  /-- V (R22) -/
  v      : ByteString
  /-- COUNT (R25) -/
  count  : Count
  /-- INST (R27) -/
  inst   : Bool
  /-- the argument registers (R28) -/
  args   : Args
  /-- STATUS (R32) -/
  status : Status
  /-- LATCH (R44) -/
  latch  : Latch
  /-- UQ, head first (R30, R44) -/
  uq     : List MicroOp
  /-- DMEM (R50) -/
  dmem   : Memory
  /-- MODEL's own: COUNT as it was before the running command, which COUNT_LO and COUNT_HI read while BUSY = 1
  (R152; log entry 4). -/
  heldCount : Count
  /-- MODEL's own: what is still to happen, first event first (R65, R95; log entry 5). -/
  events : List Event
  /-- MODEL's own: the answer to the last host access (log entry 7). -/
  resp   : Option BusResponse
  deriving DecidableEq, Repr

/-- Why a step stops with a fault. None of these is an event of the hardware (R172). -/
inductive Fault where
  /-- A read of a DMEM byte that nothing has written since reset, by a host access or by the sequencer's read of a
  used segment (R51, I3). Safe: the hardware returns some byte and goes on. -/
  | unwrittenByte (addr : Nat)
  /-- A DMEM access of the sequencer at or past DMEM_SIZE, which names no byte (R50). Acceptance rules it out
  (R58): no reachable state raises it. Safe. -/
  | noSuchByte (addr : Nat)
  /-- A host access at an address in neither window: it is no access to this block (R50). Raised by the host port.
  Safe. -/
  | unmappedAddress (addr : Nat)
  deriving DecidableEq, Repr

/-- Why a step is refused. -/
inductive Refusal where
  /-- The dispatcher has no meaning for the instruction with this mnemonic. Safe. No arm raises it. -/
  | notModelled (mnemonic : String)
  deriving DecidableEq, Repr

/-- All argument registers 0 (R28, R46). -/
def Args.zero : Args :=
  { seg0Addr := 0, seg0Len := 0, seg1Addr := 0, seg1Len := 0, seg2Addr := 0, seg2Len := 0, outAddr := 0, outLen := 0 }

/-- STATUS = 0x00000000 (R46). -/
def Status.zero : Status := { busy := false, done := false, err := false, errcode := .noError, ovr := false }

/-- LATCH is unspecified after reset (R46). DESIGN CHOICE (log entry 10): all zero. -/
def Latch.zero : Latch := { opc := 0, a := false, args := Args.zero }

/-- The state of R46 for the parameters `cfg`: what reset leaves (R190), with no event to come. -/
def State.resetWith (cfg : Config) : State :=
  { cfg := cfg
    k := rep cfg.hashLen 0x00
    v := rep cfg.hashLen 0x00
    count := 0
    inst := false
    args := Args.zero
    status := Status.zero
    latch := Latch.zero
    uq := []
    dmem := []
    heldCount := 0
    events := []
    resp := none }

/-- The machine right after reset, with the parameter values of R6. -/
def State.reset : State := State.resetWith Config.standard

end Sys2Proof.Machine
end

