-- ==== Sys2Proof/Machine/Ops.lean ====
section
/-! DEFINITION. The shared operations: cells by address, byte strings in DMEM (spec/20_memory.md R55), the tag
function (spec/00_scope.md R7), the argument registers, and the handling of an offered command: drop, reject,
accept, complete (spec/60_exceptions.md R165, R169 to R171). -/

namespace Sys2Proof.Machine

/-- The outcome of a step of this machine. -/
abbrev Result := Host.Outcome State Fault Refusal

/-! Cells by address -/

/-- The value stored at a key, if any. -/
def cellGet? {β : Type} (a : Nat) : List (Nat × β) → Option β
  | [] => none
  | (x, b) :: m => if x = a then some b else cellGet? a m

/-- Store a value at a key. In a list with rising keys the keys stay rising. -/
def cellSet {β : Type} (a : Nat) (b : β) : List (Nat × β) → List (Nat × β)
  | [] => [(a, b)]
  | (x, c) :: m =>
    if a < x then (a, b) :: (x, c) :: m
    else if a = x then (a, b) :: m
    else (x, c) :: cellSet a b m

/-- The canonical form of memory: addresses strictly rising, so equal memories are equal lists. -/
abbrev Memory.wf (m : Memory) : Prop := m.Pairwise (fun x y => x.1 < y.1)

/-- The byte at a DMEM address; `none` is an unwritten byte (R51). -/
def Memory.byte? (m : Memory) (a : Nat) : Option Byte := cellGet? a m

/-! Byte strings in DMEM -/

/-- `MemRead(a, n)` (R55). An unwritten byte is the model's fault (R51). -/
def memRead (a : Nat) : (n : Nat) → Memory → Except Fault ByteString
  | 0, _ => .ok []
  | n + 1, m =>
    match Memory.byte? m a with
    | none => .error (.unwrittenByte a)
    | some b =>
      match memRead (a + 1) n m with
      | .error f => .error f
      | .ok bs => .ok (b :: bs)

/-- `MemWrite(a, n, s)` with n = len(s) (R55): byte i goes to address a + i. -/
def memWrite (a : Nat) : ByteString → Memory → Memory
  | [], m => m
  | b :: bs, m => memWrite (a + 1) bs (cellSet a b m)

/-- The sequencer's read. An address at or past DMEM_SIZE names no byte (R50; log entry 12). -/
def dmemRead (size a n : Nat) (m : Memory) : Except Fault ByteString :=
  if n = 0 ∨ a + n ≤ size then memRead a n m else .error (.noSuchByte a)

/-- The sequencer's write. An address at or past DMEM_SIZE names no byte (R50; log entry 12). -/
def dmemWrite (size a : Nat) (bs : ByteString) (m : Memory) : Except Fault Memory :=
  if bs.length = 0 ∨ a + bs.length ≤ size then .ok (memWrite a bs m) else .error (.noSuchByte a)

/-! Byte order of host accesses -/

/-- The word whose little-endian bytes are given, byte 0 in bits [7:0] (R54). -/
def leWord : ByteString → Word
  | [] => 0
  | b :: bs => (leWord bs <<< 8) ||| b.setWidth 32

/-- The low n bytes of a word, bits [7:0] first (R54). -/
def leBytes : (n : Nat) → Word → ByteString
  | 0, _ => []
  | n + 1, w => w.setWidth 8 :: leBytes n (w >>> 8)

/-- The bytes an access of this width moves (R53). -/
def Width.bytes : Width → Nat
  | .w8 => 1
  | .w16 => 2
  | .w32 => 4

/-! The tag function -/

/-- `HMAC_H(key, msg)` (R7, R13) for the block's L. -/
def hmac (cfg : Config) (key msg : ByteString) : ByteString := (Config.hmacH cfg.hashLen key msg).toList

/-- The separator byte of HK (R98). -/
def Sep.byte : Sep → Byte
  | .zero => 0x00
  | .one => 0x01

/-! The argument registers -/

/-- Read an argument register (R155). -/
def Args.get (r : Args) : ArgReg → Word
  | .seg0Addr => r.seg0Addr
  | .seg0Len => r.seg0Len
  | .seg1Addr => r.seg1Addr
  | .seg1Len => r.seg1Len
  | .seg2Addr => r.seg2Addr
  | .seg2Len => r.seg2Len
  | .outAddr => r.outAddr
  | .outLen => r.outLen

/-- Store all 32 bits of a value in an argument register (R155). -/
def Args.set (r : Args) (x : ArgReg) (w : Word) : Args :=
  match x with
  | .seg0Addr => { r with seg0Addr := w }
  | .seg0Len => { r with seg0Len := w }
  | .seg1Addr => { r with seg1Addr := w }
  | .seg1Len => { r with seg1Len := w }
  | .seg2Addr => { r with seg2Addr := w }
  | .seg2Len => { r with seg2Len := w }
  | .outAddr => { r with outAddr := w }
  | .outLen => { r with outLen := w }

/-- Write an argument register of the block. -/
def writeArg (x : ArgReg) (w : Word) (s : State) : State := { s with args := s.args.set x w }

/-! Answers on the bus -/

/-- Answer a host access with data. -/
def respond (w : Word) (s : State) : State := { s with resp := some { error := false, data := w } }

/-- Answer a host access with a bus error: data 0, and nothing of the block changes (R52, R177). -/
def busError (s : State) : State := { s with resp := some { error := true, data := 0 } }

/-! Offering a command -/

/-- A locked access while BUSY = 1 sets OVR and has no other effect (R35, R165). -/
def markOverrun (s : State) : State := { s with status := { s.status with ovr := true } }

/-- `reject(e)` (R170), the block's whole trap mechanism: DONE, ERR and ERRCODE, and nothing else. -/
def reject (e : ErrCode) (s : State) : State :=
  { s with status := { s.status with done := true, err := true, errcode := e } }

/-- `accept(c)` (R169): LATCH takes OPC, A and the argument registers (R29), UQ takes the micro-program, BUSY is set,
DONE, ERR and ERRCODE are cleared. The model keeps COUNT as it was, for the readout (log entry 4). -/
def accept (c : Instr) (prog : List MicroOp) (s : State) : State :=
  { s with
    latch := { opc := c.opc, a := c.aBit, args := s.args }
    uq := prog
    status := { s.status with busy := true, done := false, err := false, errcode := .noError }
    heldCount := s.count }

/-- Completion (R171): BUSY is cleared and DONE is set. This is what ends a command; the block has no return
operation (R176). -/
def complete (s : State) : State := { s with status := { s.status with busy := false, done := true } }

/-- R165 for a word that decodes to the command `c`, with `e` the answer of its checks (R168) and `prog` its
micro-program: dropped while BUSY = 1, rejected, or accepted. -/
def offer (c : Instr) (e : ErrCode) (prog : List MicroOp) (s : State) : Result :=
  if s.status.busy then .next (markOverrun s)
  else if e = .noError then .next (accept c prog s)
  else .next (reject e s)

/-- R165 for an Illegal word: dropped while BUSY = 1, else rejected with ILLEGAL_CMD (R156). -/
def offerIllegal (s : State) : Result :=
  if s.status.busy then .next (markOverrun s) else .next (reject .illegalCmd s)

end Sys2Proof.Machine
end

