-- ==== Sys2Proof/Machine/Operands.lean ====
section
/-! DEFINITION. The operands of the commands: segments and the output region (spec/20_memory.md R57), the messages
of HK (spec/40_update.md R98), the range and overlap checks (R58, R60) and the acceptance checks
(spec/60_exceptions.md R167, R168). -/

namespace Sys2Proof.Machine

/-- A region of DMEM: address and length as natural numbers (R79). -/
structure Region where
  addr : Nat
  len  : Nat
  deriving DecidableEq, Repr

/-- The region of segment i: (SEGi_ADDR, SEGi_LEN) (R57). -/
def Args.segRegion (r : Args) : SegIdx → Region
  | .seg0 => { addr := r.seg0Addr.toNat, len := r.seg0Len.toNat }
  | .seg1 => { addr := r.seg1Addr.toNat, len := r.seg1Len.toNat }
  | .seg2 => { addr := r.seg2Addr.toNat, len := r.seg2Len.toNat }

/-- The output region: (OUT_ADDR, OUT_LEN) (R57). -/
def Args.outRegion (r : Args) : Region := { addr := r.outAddr.toNat, len := r.outLen.toNat }

/-- The range check: `len = 0` or `addr + len ≤ DMEM_SIZE`, on natural numbers (R58). -/
def Region.inRange (size : Nat) (r : Region) : Bool := decide (r.len = 0 ∨ r.addr + r.len ≤ size)

/-- The overlap of R60, on natural numbers. -/
def Region.overlaps (x y : Region) : Bool :=
  decide (0 < x.len ∧ 0 < y.len ∧ x.addr < y.addr + y.len ∧ y.addr < x.addr + x.len)

/-- The segments a command uses (R57, R167). -/
def usedSegs : Instr → List SegIdx
  | .instantiate => [.seg0, .seg1, .seg2]
  | .reseed => [.seg0]
  | .reseedA => [.seg0, .seg1]
  | .generate => []
  | .generateA => [.seg0]
  | .zeroize => []

/-- The commands with an output region (R57, R167). -/
def usesOutput : Instr → Bool
  | .generate => true
  | .generateA => true
  | .instantiate => false
  | .reseed => false
  | .reseedA => false
  | .zeroize => false

/-- The commands that need INST = 1 (R167). -/
def needsInst : Instr → Bool
  | .instantiate => false
  | .reseed => true
  | .reseedA => true
  | .generate => true
  | .generateA => true
  | .zeroize => false

/-- The regions a command uses (R57): its segments, then its output region. -/
def usedRegions (c : Instr) (r : Args) : List Region :=
  (usedSegs c).map r.segRegion ++ (if usesOutput c then [r.outRegion] else [])

/-- `check(c)` (R168): the first of the checks that fails, on the live argument registers, INST and COUNT. -/
def check (c : Instr) (s : State) : ErrCode :=
  if needsInst c ∧ s.inst = false then .notInstantiated
  else if (usedRegions c s.args).any (fun r => !r.inRange s.cfg.dmemSize) then .range
  else if c = .generateA ∧ (s.args.segRegion .seg0).overlaps s.args.outRegion then .overlap
  else if usesOutput c ∧ s.count.toNat = 2 ^ 64 - 1 then .countExhausted
  else if usesOutput c ∧ s.cfg.reseedLimit ≠ 0 ∧ s.cfg.reseedLimit.toNat < s.count.toNat then .reseedRequired
  else if usesOutput c ∧ s.cfg.maxGenBytes ≠ 0 ∧ s.cfg.maxGenBytes.toNat < s.args.outLen.toNat then .requestTooLarge
  else .noError

/-- `seg(i)` for the argument values `r`: ε when its length is 0, else the bytes of DMEM (R57). -/
def readSeg (size : Nat) (r : Args) (m : Memory) (i : SegIdx) : Except Fault ByteString :=
  dmemRead size (r.segRegion i).addr (r.segRegion i).len m

/-- The concatenation of segments, with nothing between them (R98). -/
def readSegs (size : Nat) (r : Args) (m : Memory) : List SegIdx → Except Fault ByteString
  | [] => .ok []
  | i :: is =>
    match readSeg size r m i with
    | .error f => .error f
    | .ok x =>
      match readSegs size r m is with
      | .error f => .error f
      | .ok y => .ok (x ++ y)

/-- The segments that a message selector names (R98). RS takes seg(1) only when LATCH.a = 1. -/
def selSegs (a : Bool) : MsgSel → List SegIdx
  | .nothing => []
  | .i3 => [.seg0, .seg1, .seg2]
  | .rs => if a then [.seg0, .seg1] else [.seg0]
  | .ga => [.seg0]

/-- `msg(sel)` (R98), read through LATCH, never through the live argument registers (R29). -/
def message (s : State) (sel : MsgSel) : Except Fault ByteString :=
  readSegs s.cfg.dmemSize s.latch.args s.dmem (selSegs s.latch.a sel)

/-- The input bytes of a command offered in the state s, its used segments one after another (R57), as its
micro-operations will read them. -/
def commandInput (c : Instr) (s : State) : Except Fault ByteString :=
  readSegs s.cfg.dmemSize s.args s.dmem (usedSegs c)

end Sys2Proof.Machine
end

