-- ==== Sys2Proof/Machine/Sequencer.lean ====
section
/-! DEFINITION. The sequencer: the micro-operations and the step that takes the head of UQ
(spec/40_update.md R95 to R99, R108, R109; spec/43_generate.md R133), and the micro-programs of Update (R100). -/

namespace Sys2Proof.Machine

/-- `SETKV(k, v)` (R97). -/
def microSetKV (k v : ByteString) (s : State) : State := { s with k := k, v := v }

/-- `HK(sep, sel)` (R98): the old K is the key, and V ‖ [sep] ‖ msg(sel) the message. -/
def microHK (sep : Sep) (sel : MsgSel) (s : State) : Except Fault State :=
  match message s sel with
  | .error f => .error f
  | .ok m => .ok { s with k := hmac s.cfg s.k (s.v ++ [sep.byte] ++ m) }

/-- `HV` (R99). -/
def microHV (s : State) : State := { s with v := hmac s.cfg s.k s.v }

/-- `HO(off, n)` (R133): the whole tag goes to V, its first n bytes to DMEM at LATCH.out_addr + off. -/
def microHO (off n : Nat) (s : State) : Except Fault State :=
  let tag := hmac s.cfg s.k s.v
  match dmemWrite s.cfg.dmemSize (s.latch.args.outAddr.toNat + off) (tag.take n) s.dmem with
  | .error f => .error f
  | .ok m => .ok { s with v := tag, dmem := m }

/-- `SETCNT(c)` (R108). -/
def microSetCnt (c : Count) (s : State) : State := { s with count := c }

/-- `INCCNT` (R108). It runs only with COUNT < 2^64 − 1, since acceptance rejects the command otherwise (R168);
in a state that no run reaches the 64-bit sum would wrap (log entry 13). -/
def microIncCnt (s : State) : State := { s with count := s.count + 1 }

/-- `SETINST(b)` (R109). -/
def microSetInst (b : Bool) (s : State) : State := { s with inst := b }

/-- The effect of one micro-operation (R96). -/
def microStep : MicroOp → State → Except Fault State
  | .setKV k v, s => .ok (microSetKV k v s)
  | .hk sep sel, s => microHK sep sel s
  | .hv, s => .ok (microHV s)
  | .ho off n, s => microHO off n s
  | .setCnt c, s => .ok (microSetCnt c s)
  | .incCnt, s => .ok (microIncCnt s)
  | .setInst b, s => .ok (microSetInst b s)

/-- Take `rest` as UQ; when that is empty the same step completes the command (R95, R171). -/
def advance (rest : List MicroOp) (s : State) : State :=
  if rest.isEmpty then complete { s with uq := [] } else { s with uq := rest }

/-- A step of the sequencer (R95). With UQ empty it has no step: the block is idle and nothing changes (R185). -/
def sequencerStep (s : State) : Result :=
  match s.uq with
  | [] => .next s
  | op :: rest =>
    match microStep op s with
    | .error f => .fault f
    | .ok t => .next (advance rest t)

/-- `UPD(absent)` (R100). -/
def updAbsent : List MicroOp := [.hk .zero .nothing, .hv]

/-- `UPD(present(sel))` (R100). -/
def updPresent (sel : MsgSel) : List MicroOp := [.hk .zero sel, .hv, .hk .one sel, .hv]

end Sys2Proof.Machine
end

