-- ==== Sys2Proof/Machine/Generate.lean ====
section
/-! DEFINITION. GENERATE and GENERATE.A, the generator sequencer (spec/43_generate.md R130 to R132). -/

namespace Sys2Proof.Machine

/-- `nb = ceil(N / L)` (R130, R132). -/
def blockCount (L N : Nat) : Nat := (N + L - 1) / L

/-- `n_i = min(L, N − i·L)`, the bytes of block i (R132). -/
def blockLen (L N i : Nat) : Nat := min L (N - i * L)

/-- The output loop as micro-operations: HO(i·L, n_i) for 0 ≤ i < nb (R130, R132). -/
def outputLoop (L N : Nat) : List MicroOp :=
  (List.range (blockCount L N)).map (fun i => .ho (i * L) (blockLen L N i))

/-- The micro-program of GENERATE (R130): output loop, two-step post-Update, INCCNT. -/
def progGenerate (cfg : Config) (args : Args) : List MicroOp :=
  outputLoop cfg.hashLen args.outLen.toNat ++ updAbsent ++ [.incCnt]

/-- The micro-program of GENERATE.A (R131): pre-Update, output loop, post-Update, INCCNT. -/
def progGenerateA (cfg : Config) (args : Args) : List MicroOp :=
  updPresent .ga ++ outputLoop cfg.hashLen args.outLen.toNat ++ updPresent .ga ++ [.incCnt]

/-- GENERATE offered to the block: OUT_LEN bytes at OUT_ADDR, additional input absent. -/
def execGenerate (s : State) : Result := offer .generate (check .generate s) (progGenerate s.cfg s.args) s

/-- GENERATE.A offered to the block: OUT_LEN bytes at OUT_ADDR, with seg(0) as additional input. -/
def execGenerateA (s : State) : Result := offer .generateA (check .generateA s) (progGenerateA s.cfg s.args) s

end Sys2Proof.Machine
end

