-- ==== Sys2Proof/Machine/Instantiate.lean ====
section
/-! DEFINITION. INSTANTIATE (spec/41_instantiate.md R110). -/

namespace Sys2Proof.Machine

/-- The micro-program of INSTANTIATE (R110). -/
def progInstantiate (cfg : Config) : List MicroOp :=
  [.setKV (rep cfg.hashLen 0x00) (rep cfg.hashLen 0x01)] ++ updPresent .i3 ++ [.setCnt 1, .setInst true]

/-- INSTANTIATE offered to the block: seed a new generator from seg(0), seg(1), seg(2). -/
def execInstantiate (s : State) : Result :=
  offer .instantiate (check .instantiate s) (progInstantiate s.cfg) s

end Sys2Proof.Machine
end

