-- ==== Sys2Proof/Machine/Reseed.lean ====
section
/-! DEFINITION. RESEED and RESEED.A (spec/42_reseed.md R120, R121). -/

namespace Sys2Proof.Machine

/-- The micro-program of RESEED (R120). msg(RS) is seg(0), since LATCH.a = 0. -/
def progReseed : List MicroOp := updPresent .rs

/-- The micro-program of RESEED.A (R121). msg(RS) is seg(0) ‖ seg(1), since LATCH.a = 1. -/
def progReseedA : List MicroOp := updPresent .rs

/-- RESEED offered to the block: refresh K and V from seg(0). -/
def execReseed (s : State) : Result := offer .reseed (check .reseed s) progReseed s

/-- RESEED.A offered to the block: refresh K and V from seg(0) ‖ seg(1). -/
def execReseedA (s : State) : Result := offer .reseedA (check .reseedA s) progReseedA s

end Sys2Proof.Machine
end

