-- ==== Sys2Proof/Machine/Zeroize.lean ====
section
/-! DEFINITION. ZEROIZE (spec/44_control.md R150). -/

namespace Sys2Proof.Machine

/-- The micro-program of ZEROIZE (R150). -/
def progZeroize (cfg : Config) : List MicroOp :=
  [.setKV (rep cfg.hashLen 0x00) (rep cfg.hashLen 0x00), .setCnt 0, .setInst false]

/-- ZEROIZE offered to the block: destroy the generator. -/
def execZeroize (s : State) : Result := offer .zeroize (check .zeroize s) (progZeroize s.cfg) s

end Sys2Proof.Machine
end

