-- ==== Sys2Proof/Machine/Dispatch.lean ====
section
/-! DEFINITION. The meaning of every command: what offering it to the block does (spec/60_exceptions.md R165). -/

namespace Sys2Proof.Machine

def exec (i : Instr) (s : State) : Host.Outcome State Fault Refusal :=
  match i with
  | .instantiate => Sys2Proof.Machine.execInstantiate s
  | .reseed => Sys2Proof.Machine.execReseed s
  | .reseedA => Sys2Proof.Machine.execReseedA s
  | .generate => Sys2Proof.Machine.execGenerate s
  | .generateA => Sys2Proof.Machine.execGenerateA s
  | .zeroize => Sys2Proof.Machine.execZeroize s

end Sys2Proof.Machine
end

