-- ==== Sys2Proof/Machine/Flags.lean ====
section
/-! DEFINITION. The STATUS register: its codes, its value as software reads it and the effect of writing it
(spec/10_state.md R32; spec/44_control.md R153, R154; spec/60_exceptions.md R166). -/

namespace Sys2Proof.Machine

/-- The value of ERRCODE (R166). -/
def ErrCode.code : ErrCode → BitVec 4
  | .noError => 0x0
  | .illegalCmd => 0x1
  | .notInstantiated => 0x2
  | .range => 0x3
  | .overlap => 0x4
  | .countExhausted => 0x5
  | .reseedRequired => 0x6
  | .requestTooLarge => 0x7

/-- A word with one bit at place n. -/
def bitAt (b : Bool) (n : Nat) : Word := (BitVec.ofBool b).setWidth 32 <<< n

/-- What a read of STATUS returns (R153): bits [31:9] are 0 and bit 3 is INST. -/
def statusWord (s : State) : Word :=
  bitAt s.status.ovr 8 ||| (s.status.errcode.code.setWidth 32 <<< 4) ||| bitAt s.inst 3 ||| bitAt s.status.err 2
    ||| bitAt s.status.done 1 ||| bitAt s.status.busy 0

/-- A write of v to STATUS: OVR is cleared when v[8] = 1, and no other field changes (R32, R154). -/
def writeStatus (v : Word) (s : State) : State :=
  if v.getLsbD 8 then { s with status := { s.status with ovr := false } } else s

end Sys2Proof.Machine
end

