-- ==== Sys2Proof/Machine/HostPort.lean ====
section
/-! DEFINITION. The host port: the two windows (spec/20_memory.md R50, R52, R53), the register map
(spec/10_state.md R28, R32 to R43), the busy lock (R35) and the effect of every host access
(spec/44_control.md R152 to R158). -/

namespace Sys2Proof.Machine

/-- What a host address selects: an offset of the register window, a DMEM address, or neither (R50). -/
inductive Target where
  | reg (off : Nat)
  | dmem (addr : Nat)
  | nowhere
  deriving DecidableEq, Repr

/-- The size of the register window (R42, R50). -/
def regWindowSize : Nat := 0x200

/-- The window that a host address falls in (R50). With windows that overlap, which legal parameters exclude, the
register window is taken (log entry 9). -/
def target (cfg : Config) (addr : Nat) : Target :=
  if cfg.regBase ≤ addr ∧ addr < cfg.regBase + regWindowSize then .reg (addr - cfg.regBase)
  else if cfg.dmemBase ≤ addr ∧ addr < cfg.dmemBase + cfg.dmemSize then .dmem (addr - cfg.dmemBase)
  else .nowhere

/-- The registers of the map (R43). -/
inductive RegName where
  | id | param | dmemSizeR | reseedLimitR | maxGenR | cmd | status | countLo | countHi
  | arg (x : ArgReg)
  /-- word w of the K window -/
  | kWin (w : Nat)
  /-- word w of the V window -/
  | vWin (w : Nat)
  | reserved
  deriving DecidableEq, Repr

/-- The register at an offset of the window (R43). Offsets that the map does not name are reserved (R42). -/
def regAt (off : Nat) : RegName :=
  if off = 0x000 then .id
  else if off = 0x004 then .param
  else if off = 0x008 then .dmemSizeR
  else if off = 0x00C then .reseedLimitR
  else if off = 0x010 then .maxGenR
  else if off = 0x020 then .cmd
  else if off = 0x024 then .status
  else if off = 0x028 then .countLo
  else if off = 0x02C then .countHi
  else if off = 0x040 then .arg .seg0Addr
  else if off = 0x044 then .arg .seg0Len
  else if off = 0x048 then .arg .seg1Addr
  else if off = 0x04C then .arg .seg1Len
  else if off = 0x050 then .arg .seg2Addr
  else if off = 0x054 then .arg .seg2Len
  else if off = 0x058 then .arg .outAddr
  else if off = 0x05C then .arg .outLen
  else if 0x100 ≤ off ∧ off < 0x140 then .kWin ((off - 0x100) / 4)
  else if 0x140 ≤ off ∧ off < 0x180 then .vWin ((off - 0x140) / 4)
  else .reserved

/-- ID (R36). -/
def idWord : Word := 0x48440100

/-- PARAM (R37): [7:0] = L, [15:8] = COUNT_W, [16] = KV_READABLE. -/
def paramWord (cfg : Config) : Word :=
  BitVec.ofNat 32 cfg.hashLen ||| (BitVec.ofNat 32 Config.countWidth <<< 8) ||| bitAt cfg.kvReadable 16

/-- COUNT as the host reads it: while a command runs, COUNT as it was before that command (R152; log entry 4). -/
def countReadout (s : State) : Count := if s.status.busy then s.heldCount else s.count

/-- Word w of a K or V window: bytes 4w to 4w + 3, little-endian, a byte index ≥ L reading 0 (R41). -/
def windowWord (x : ByteString) (w : Nat) : Word :=
  leWord [x.getD (4 * w) 0, x.getD (4 * w + 1) 0, x.getD (4 * w + 2) 0, x.getD (4 * w + 3) 0]

/-- What a read of a register returns while no lock is in the way (R36 to R42, R152, R153, R155, R158). -/
def regValue (r : RegName) (s : State) : Word :=
  match r with
  | .id => idWord
  | .param => paramWord s.cfg
  | .dmemSizeR => BitVec.ofNat 32 s.cfg.dmemSize
  | .reseedLimitR => s.cfg.reseedLimit
  | .maxGenR => s.cfg.maxGenBytes
  | .cmd => 0
  | .status => statusWord s
  | .countLo => (countReadout s).extractLsb' 0 32
  | .countHi => (countReadout s).extractLsb' 32 32
  | .arg x => s.args.get x
  | .kWin w => if s.cfg.kvReadable then windowWord s.k w else 0
  | .vWin w => if s.cfg.kvReadable then windowWord s.v w else 0
  | .reserved => 0

/-- The reads that the busy lock covers: the K and V windows (R35). -/
def RegName.readLocked : RegName → Bool
  | .kWin _ => true
  | .vWin _ => true
  | .id => false
  | .param => false
  | .dmemSizeR => false
  | .reseedLimitR => false
  | .maxGenR => false
  | .cmd => false
  | .status => false
  | .countLo => false
  | .countHi => false
  | .arg _ => false
  | .reserved => false

/-- A read of the register window at a legal offset. A locked read returns 0 and sets OVR (R35). -/
def readReg (r : RegName) (s : State) : State :=
  if r.readLocked ∧ s.status.busy then respond 0 (markOverrun s) else respond (regValue r s) s

/-- A write of w to CMD offers w as a command (R80, R165). Every meaning and `offerIllegal` test BUSY first, so a
write while BUSY = 1 is dropped whatever its word. -/
def writeCmd (w : Word) (s : State) : Result :=
  match decode w with
  | .command i => exec i s
  | .illegal _ => offerIllegal s

/-- A write of the register window at a legal offset. Only CMD, STATUS and the argument registers take one (R28,
R32, R39); writes to every other offset are ignored and never set OVR (R41, R42, R158). -/
def writeReg (r : RegName) (w : Word) (s : State) : Result :=
  match r with
  | .cmd => writeCmd w s
  | .status => .next (writeStatus w s)
  | .arg x => .next (if s.status.busy then markOverrun s else writeArg x w s)
  | .id => .next s
  | .param => .next s
  | .dmemSizeR => .next s
  | .reseedLimitR => .next s
  | .maxGenR => .next s
  | .countLo => .next s
  | .countHi => .next s
  | .kWin _ => .next s
  | .vWin _ => .next s
  | .reserved => .next s

/-- A host read of n bytes of DMEM at a legal address: 0 and OVR while BUSY = 1 (R35), else the bytes,
little-endian (R54). An unwritten byte is the model's fault (R51). -/
def readDmem (a n : Nat) (s : State) : Result :=
  if s.status.busy then .next (respond 0 (markOverrun s))
  else
    match memRead a n s.dmem with
    | .error f => .fault f
    | .ok bs => .next (respond (leWord bs) s)

/-- A host write of n bytes of DMEM at a legal address: dropped, with OVR, while BUSY = 1 (R35), else the bytes,
little-endian (R54). -/
def writeDmem (a n : Nat) (w : Word) (s : State) : State :=
  if s.status.busy then markOverrun s else { s with dmem := memWrite a (leBytes n w) s.dmem }

/-- A register access is legal when it is 32 bits wide at a multiple of 4 (R52). -/
def regAccessLegal (width : Width) (off : Nat) : Bool := decide (width = .w32 ∧ off % 4 = 0)

/-- A DMEM access of n bytes is legal at a when a mod n = 0 and a + n ≤ DMEM_SIZE (R53). -/
def dmemAccessLegal (cfg : Config) (width : Width) (a : Nat) : Bool :=
  decide (a % width.bytes = 0 ∧ a + width.bytes ≤ cfg.dmemSize)

/-- One host access (R65). A bus error comes before the busy lock: it has no effect on any state, OVR included
(R52, R53; log entry 8). -/
def hostAccess (acc : Access) (s : State) : Result :=
  match acc with
  | .read width addr =>
    match target s.cfg addr with
    | .reg off => .next (if regAccessLegal width off then readReg (regAt off) s else busError s)
    | .dmem a => if dmemAccessLegal s.cfg width a then readDmem a width.bytes s else .next (busError s)
    | .nowhere => .fault (.unmappedAddress addr)
  | .write width addr w =>
    match target s.cfg addr with
    | .reg off => if regAccessLegal width off then writeReg (regAt off) w (respond 0 s) else .next (busError s)
    | .dmem a => .next (if dmemAccessLegal s.cfg width a then writeDmem a width.bytes w (respond 0 s) else busError s)
    | .nowhere => .fault (.unmappedAddress addr)

/-- The reset input (R190, R191): every piece of state takes the value of R46, a running command is abandoned and
every DMEM byte is unwritten. The configuration keeps its constants; what is still to happen stays so. -/
def assertReset (s : State) : State := { State.resetWith s.cfg with events := s.events }

/-- One event. -/
def perform (e : Event) (s : State) : Result :=
  match e with
  | .host acc => hostAccess acc s
  | .sequencer => sequencerStep s
  | .reset => .next (assertReset s)

/-- The host address of CMD (R39, R50). -/
def cmdAddr (cfg : Config) : Nat := cfg.regBase + 0x020

/-- The host's 32-bit write of a command word to CMD (R75). -/
def cmdWrite (cfg : Config) (w : Word) : Event := .host (.write .w32 (cmdAddr cfg) w)

end Sys2Proof.Machine
end

