-- ==== Sys2Proof/Machine/Step.lean ====
section
/-! DEFINITION. The step of the machine: the next event takes place, or, with none to come, the sequencer takes its
turn (spec/40_update.md R95; spec/20_memory.md R65). -/

namespace Sys2Proof.Machine

/-- One step. The events in State are the order in which host accesses, sequencer turns and resets take place, any
order being a state (R95, R183). With no event left the sequencer steps: a sequencer that can step eventually does
(log entry 5). -/
def step (s : State) : Host.Outcome State Fault Refusal :=
  match s.events with
  | [] => sequencerStep s
  | e :: es => perform e { s with events := es }

/-- The state in which the next step is a host's write of the command word w to CMD (R80; log entry 6). -/
def State.withFetchWord (s : State) (nbits w : Nat) : State :=
  { s with events := cmdWrite s.cfg (BitVec.ofNat 32 (w % 2 ^ nbits)) :: s.events }

end Sys2Proof.Machine
end

