-- ==== Sys2Proof/Machine/HostProgram.lean ====
section
/-! DEFINITION. The notation of host programs (spec/30_encoding.md R84, R85) as a layer over the block: hosts that
run such programs, each access going through the host port. Nothing of the block depends on this layer
(log entry 14). -/

namespace Sys2Proof.Machine

/-- One line of a host program (R84). `h`, `d` and `r` name host registers; a label is the index of a line. -/
inductive HostOp where
  /-- `W32 off, v` -/
  | w32 (off : Nat) (v : Word)
  /-- `R32 off -> h` -/
  | r32 (off h : Nat)
  /-- `SB a, v` -/
  | sb (a : Nat) (v : Word)
  /-- `SH a, v` -/
  | sh (a : Nat) (v : Word)
  /-- `SW a, v` -/
  | sw (a : Nat) (v : Word)
  /-- `LB a -> h` -/
  | lb (a h : Nat)
  /-- `LH a -> h` -/
  | lh (a h : Nat)
  /-- `LW a -> h` -/
  | lw (a h : Nat)
  /-- `CMD <mnemonic>` -/
  | cmd (c : Instr)
  /-- `ANDI d, r, imm` -/
  | andi (d r : Nat) (imm : Word)
  /-- `BNEI r, imm, label` -/
  | bnei (r : Nat) (imm : Word) (label : Nat)
  deriving DecidableEq, Repr

/-- The bus access of a line, for the lines that make one (R84). -/
def HostOp.access (cfg : Config) : HostOp → Option Access
  | .w32 off v => some (.write .w32 (cfg.regBase + off) v)
  | .r32 off _ => some (.read .w32 (cfg.regBase + off))
  | .sb a v => some (.write .w8 (cfg.dmemBase + a) v)
  | .sh a v => some (.write .w16 (cfg.dmemBase + a) v)
  | .sw a v => some (.write .w32 (cfg.dmemBase + a) v)
  | .lb a _ => some (.read .w8 (cfg.dmemBase + a))
  | .lh a _ => some (.read .w16 (cfg.dmemBase + a))
  | .lw a _ => some (.read .w32 (cfg.dmemBase + a))
  | .cmd c => some (.write .w32 (cmdAddr cfg) (encode c))
  | .andi _ _ _ => none
  | .bnei _ _ _ => none

/-- The host register that a line loads from the bus, if it does (R84). -/
def HostOp.loads : HostOp → Option Nat
  | .r32 _ h => some h
  | .lb _ h => some h
  | .lh _ h => some h
  | .lw _ h => some h
  | .w32 _ _ => none
  | .sb _ _ => none
  | .sh _ _ => none
  | .sw _ _ => none
  | .cmd _ => none
  | .andi _ _ _ => none
  | .bnei _ _ _ => none

/-- A host: its program, the index of its next line and its registers, cells by number. -/
structure HostCpu where
  prog : List HostOp
  pc   : Nat
  regs : List (Nat × Word)
  deriving DecidableEq, Repr

/-- A host register. DESIGN CHOICE (log entry 14): 0 until it is written. -/
def HostCpu.reg (p : HostCpu) (h : Nat) : Word := (cellGet? h p.regs).getD 0

/-- Write a host register. -/
def HostCpu.setReg (p : HostCpu) (h : Nat) (w : Word) : HostCpu := { p with regs := cellSet h w p.regs }

/-- Go to a line. -/
def HostCpu.goto (p : HostCpu) (n : Nat) : HostCpu := { p with pc := n }

/-- The data of the block's last answer. -/
def respData (b : State) : Word :=
  match b.resp with
  | some r => r.data
  | none => 0

/-- The host after the line `op` made its access and the block answered in the state b. -/
def HostCpu.afterAccess (p : HostCpu) (op : HostOp) (b : State) : HostCpu :=
  match op.loads with
  | some h => (p.setReg h (respData b)).goto (p.pc + 1)
  | none => p.goto (p.pc + 1)

/-- The host after a line that makes no access (R84: ANDI, BNEI). -/
def HostCpu.afterLocal (p : HostCpu) (op : HostOp) : HostCpu :=
  match op with
  | .andi d r imm => (p.setReg d (p.reg r &&& imm)).goto (p.pc + 1)
  | .bnei r imm label => if p.reg r ≠ imm then p.goto label else p.goto (p.pc + 1)
  | .w32 _ _ => p.goto (p.pc + 1)
  | .r32 _ _ => p.goto (p.pc + 1)
  | .sb _ _ => p.goto (p.pc + 1)
  | .sh _ _ => p.goto (p.pc + 1)
  | .sw _ _ => p.goto (p.pc + 1)
  | .lb _ _ => p.goto (p.pc + 1)
  | .lh _ _ => p.goto (p.pc + 1)
  | .lw _ _ => p.goto (p.pc + 1)
  | .cmd _ => p.goto (p.pc + 1)

/-- The block with the hosts that drive it. -/
structure System where
  block : State
  hosts : List HostCpu
  deriving DecidableEq, Repr

/-- Whose turn it is: any host's, the sequencer's, or the reset input's (R95, R183, R190). -/
inductive Turn where
  | host (n : Nat)
  | sequencer
  | reset
  deriving DecidableEq, Repr

/-- Host n runs its next line. A host at the end of its program, or one that does not exist, does nothing. -/
def System.hostTurn (n : Nat) (y : System) : Host.Outcome System Fault Refusal :=
  match y.hosts[n]? with
  | none => .next y
  | some p =>
    match p.prog[p.pc]? with
    | none => .next y
    | some op =>
      match op.access y.block.cfg with
      | none => .next { y with hosts := y.hosts.set n (p.afterLocal op) }
      | some acc =>
        match hostAccess acc y.block with
        | .next b => .next { block := b, hosts := y.hosts.set n (p.afterAccess op b) }
        | .fault f => .fault f
        | .refused r => .refused r

/-- One turn of the system. The order of turns is left open: a schedule is any list of turns (R95, R183). -/
def System.turn (t : Turn) (y : System) : Host.Outcome System Fault Refusal :=
  match t with
  | .host n => y.hostTurn n
  | .sequencer =>
    match sequencerStep y.block with
    | .next b => .next { y with block := b }
    | .fault f => .fault f
    | .refused r => .refused r
  | .reset => .next { y with block := assertReset y.block }

/-- The system after a schedule. -/
def System.run : List Turn → System → Host.Outcome System Fault Refusal
  | [], y => .next y
  | t :: ts, y =>
    match y.turn t with
    | .next z => System.run ts z
    | .fault f => .fault f
    | .refused r => .refused r

/-! The pseudo-instructions of R85. A pseudo-instruction that waits takes the index of its first line. -/

/-- `SBYTES a, bytes` -/
def sbytes (a : Nat) : ByteString → List HostOp
  | [] => []
  | b :: bs => .sb a (b.setWidth 32) :: sbytes (a + 1) bs

/-- The number of a segment. -/
def SegIdx.number : SegIdx → Nat
  | .seg0 => 0
  | .seg1 => 1
  | .seg2 => 2

/-- `SEG i, a, n` -/
def segLines (i : SegIdx) (a n : Word) : List HostOp :=
  [.w32 (0x040 + 8 * i.number) a, .w32 (0x044 + 8 * i.number) n]

/-- `OUTBUF a, n` -/
def outbufLines (a n : Word) : List HostOp := [.w32 0x058 a, .w32 0x05C n]

/-- `WAIT` at line `at0`: loop until BUSY = 0 and DONE = 1. -/
def waitLines (at0 : Nat) : List HostOp := [.r32 0x024 0, .andi 1 0 0x3, .bnei 1 0x2 at0]

/-- `COUNT -> hN, hM` -/
def countLines (n m : Nat) : List HostOp := [.r32 0x028 n, .r32 0x02C m]

/-- `INSTANTIATE_P (ea, en), (na, nn), (pa, pn)` -/
def instantiateP (at0 : Nat) (ea en na nn pa pn : Word) : List HostOp :=
  segLines .seg0 ea en ++ segLines .seg1 na nn ++ segLines .seg2 pa pn ++ [.cmd .instantiate] ++ waitLines (at0 + 7)

/-- `RESEED_P (ea, en)` -/
def reseedP (at0 : Nat) (ea en : Word) : List HostOp :=
  segLines .seg0 ea en ++ [.cmd .reseed] ++ waitLines (at0 + 3)

/-- `RESEED_P (ea, en), (aa, an)` -/
def reseedAP (at0 : Nat) (ea en aa an : Word) : List HostOp :=
  segLines .seg0 ea en ++ segLines .seg1 aa an ++ [.cmd .reseedA] ++ waitLines (at0 + 5)

/-- `GENERATE_P (oa, n)` -/
def generateP (at0 : Nat) (oa n : Word) : List HostOp :=
  outbufLines oa n ++ [.cmd .generate] ++ waitLines (at0 + 3)

/-- `GENERATE_P (oa, n), (aa, an)` -/
def generateAP (at0 : Nat) (oa n aa an : Word) : List HostOp :=
  segLines .seg0 aa an ++ outbufLines oa n ++ [.cmd .generateA] ++ waitLines (at0 + 5)

/-- `GENERATE_INTO_P` without additional input: the expansion of GENERATE_P (R85). -/
def generateIntoP (at0 : Nat) (oa n : Word) : List HostOp := generateP at0 oa n

/-- `GENERATE_INTO_P` with additional input: the expansion of GENERATE_P (R85). -/
def generateIntoAP (at0 : Nat) (oa n aa an : Word) : List HostOp := generateAP at0 oa n aa an

end Sys2Proof.Machine
end

