-- ==== Sys2Proof/Machine/FunctionForm.lean ====
section
/-! DEFINITION. The function forms of Update and of every command (spec/40_update.md R101; spec/10_state.md R44;
the "Function form" of R110, R120, R121, R130, R131, R150), and the micro-program of a latched command. The step
does not call them: statements say that the micro-steps give the same results. -/

namespace Sys2Proof.Machine

/-- `update(K, V, pd)` (R101). `none` is `absent`, which differs from `some []` (R11, R103). -/
def update (cfg : Config) (K V : ByteString) (pd : Option ByteString) : ByteString × ByteString :=
  let m := pd.getD []
  let K1 := hmac cfg K (V ++ [0x00] ++ m)
  let V1 := hmac cfg K1 V
  match pd with
  | none => (K1, V1)
  | some _ =>
    let K2 := hmac cfg K1 (V1 ++ [0x01] ++ m)
    (K2, hmac cfg K2 V1)

/-- V_i of the output loop: V_0 = V and V_i = HMAC_H(K, V_{i−1}) (R134). -/
def outputTag (cfg : Config) (K V : ByteString) : Nat → ByteString
  | 0 => V
  | i + 1 => hmac cfg K (outputTag cfg K V i)

/-- The output V_1 ‖ … ‖ V_nb truncated to N bytes (R134). -/
def outputBytes (cfg : Config) (K V : ByteString) (N : Nat) : ByteString :=
  ((List.range (blockCount cfg.hashLen N)).flatMap (fun i => outputTag cfg K V (i + 1))).take N

/-- The state in which a command `c` that was accepted in the idle state s has completed, with the values given for
the state it writes: LATCH keeps the copy of R29, UQ is empty, BUSY = 0, DONE = 1, ERR = 0, ERRCODE = 0 (R169,
R171). Everything else is as in s. -/
def completed (c : Instr) (s : State) (k v : ByteString) (count : Count) (inst : Bool) (dmem : Memory) : State :=
  { s with
    k := k
    v := v
    count := count
    inst := inst
    dmem := dmem
    latch := { opc := c.opc, a := c.aBit, args := s.args }
    uq := []
    heldCount := s.count
    status := { busy := false, done := true, err := false, errcode := .noError, ovr := s.status.ovr } }

/-- INSTANTIATE whose input is m (R110). -/
def fnInstantiate (m : ByteString) (s : State) : State :=
  let kv := update s.cfg (rep s.cfg.hashLen 0x00) (rep s.cfg.hashLen 0x01) (some m)
  completed .instantiate s kv.1 kv.2 1 true s.dmem

/-- RESEED whose input is m (R120). -/
def fnReseed (m : ByteString) (s : State) : State :=
  let kv := update s.cfg s.k s.v (some m)
  completed .reseed s kv.1 kv.2 s.count s.inst s.dmem

/-- RESEED.A whose input is m (R121). -/
def fnReseedA (m : ByteString) (s : State) : State :=
  let kv := update s.cfg s.k s.v (some m)
  completed .reseedA s kv.1 kv.2 s.count s.inst s.dmem

/-- GENERATE (R130). -/
def fnGenerate (s : State) : State :=
  let N := s.args.outLen.toNat
  let kv := update s.cfg s.k (outputTag s.cfg s.k s.v (blockCount s.cfg.hashLen N)) none
  completed .generate s kv.1 kv.2 (s.count + 1) s.inst
    (memWrite s.args.outAddr.toNat (outputBytes s.cfg s.k s.v N) s.dmem)

/-- GENERATE.A whose additional input is x (R131). -/
def fnGenerateA (x : ByteString) (s : State) : State :=
  let N := s.args.outLen.toNat
  let pre := update s.cfg s.k s.v (some x)
  let kv := update s.cfg pre.1 (outputTag s.cfg pre.1 pre.2 (blockCount s.cfg.hashLen N)) (some x)
  completed .generateA s kv.1 kv.2 (s.count + 1) s.inst
    (memWrite s.args.outAddr.toNat (outputBytes s.cfg pre.1 pre.2 N) s.dmem)

/-- ZEROIZE (R150). -/
def fnZeroize (s : State) : State :=
  completed .zeroize s (rep s.cfg.hashLen 0x00) (rep s.cfg.hashLen 0x00) 0 false s.dmem

/-- The micro-program of a command for the argument values `r` (R169: `microprogram(c)`). -/
def microprogram (cfg : Config) (r : Args) : Instr → List MicroOp
  | .instantiate => progInstantiate cfg
  | .reseed => progReseed
  | .reseedA => progReseedA
  | .generate => progGenerate cfg r
  | .generateA => progGenerateA cfg r
  | .zeroize => progZeroize cfg

end Sys2Proof.Machine
end

