-- ==== Sys2Proof/Safety.lean ====
section
/-! DEFINITION. What a good state of the block is, in the terms that statements use: the invariant of every step
and the states in which each command is accepted. -/

namespace Sys2Proof.Machine

/-- n steps of the machine, stopping at the first fault. -/
def runSteps : Nat → State → Result
  | 0, s => .next s
  | n + 1, s =>
    match step s with
    | .next t => runSteps n t
    | .fault f => .fault f
    | .refused r => .refused r

/-- How many of these events are turns of the sequencer. -/
def sequencerTurns (es : List Event) : Nat := es.count .sequencer

/-- The block runs the command c: LATCH names it, its regions are in range and (for GENERATE.A) apart (R58, R60),
UQ holds what is left of its micro-program (R30), and COUNT is as it was at acceptance until the micro-operation
before the last of INSTANTIATE and ZEROIZE writes it (R108; log entry 4). -/
structure Runs (c : Instr) (s : State) : Prop where
  opc_eq : s.latch.opc = c.opc
  a_eq : s.latch.a = c.aBit
  left_of_program : s.uq <:+ microprogram s.cfg s.latch.args c
  in_range : ∀ r ∈ usedRegions c s.latch.args, r.inRange s.cfg.dmemSize = true
  apart : c = .generateA → (s.latch.args.segRegion .seg0).overlaps s.latch.args.outRegion = false
  has_generator : needsInst c = true → s.inst = true
  not_exhausted : usesOutput c = true → s.heldCount.toNat < 2 ^ 64 - 1
  count_held : (∃ b, s.uq = [.setInst b]) ∨ s.count = s.heldCount
  count_set : ∀ b, s.uq = [.setInst b] → s.count = if b then 1 else 0

/-- The invariant of the machine: it holds after reset and every step keeps it. -/
structure GoodState (s : State) : Prop where
  /-- the parameters are legal (R6) -/
  cfg_legal : s.cfg.wellFormed = true
  /-- K is exactly L bytes (R23) -/
  k_length : s.k.length = s.cfg.hashLen
  /-- V is exactly L bytes (R23) -/
  v_length : s.v.length = s.cfg.hashLen
  /-- memory is in its canonical form -/
  dmem_canonical : Memory.wf s.dmem
  /-- every written byte is a byte of DMEM (R50) -/
  dmem_bounded : ∀ x ∈ s.dmem, x.1 < s.cfg.dmemSize
  /-- BUSY = 1 exactly when UQ is non-empty (R31) -/
  busy_iff : s.status.busy = true ↔ s.uq ≠ []
  /-- DONE = 0 and ERR = 0 while a command runs (R33, R34) -/
  busy_flags : s.status.busy = true → s.status.done = false ∧ s.status.err = false
  /-- ERR = 1 exactly when ERRCODE is a rejection code (R34) -/
  err_iff : s.status.err = true ↔ s.status.errcode ≠ .noError
  /-- after a rejection DONE = 1 until the next command is accepted (R33, R34) -/
  err_done : s.status.err = true → s.status.done = true
  /-- a running command is one of the six, part of the way through its micro-program -/
  running : s.status.busy = true → ∃ c, Runs c s
  /-- a generator exists exactly when COUNT, as the host reads it, is not 0 (R25, R27, R139) -/
  inst_iff : s.inst = true ↔ countReadout s ≠ 0

/-- Every byte of the segments that the running command uses is written (R51). -/
def InputsWritten (s : State) : Prop :=
  ∀ c, Runs c s → ∀ i ∈ usedSegs c, ∀ j < (s.latch.args.segRegion i).len,
    Memory.byte? s.dmem ((s.latch.args.segRegion i).addr + j) ≠ none

/-- INSTANTIATE is accepted: legal parameters, BUSY = 0, all three segments in range (R110). -/
structure ReadyInstantiate (s : State) : Prop where
  cfg_legal : s.cfg.wellFormed = true
  idle : s.status.busy = false
  seg0_in : (s.args.segRegion .seg0).inRange s.cfg.dmemSize = true
  seg1_in : (s.args.segRegion .seg1).inRange s.cfg.dmemSize = true
  seg2_in : (s.args.segRegion .seg2).inRange s.cfg.dmemSize = true

/-- RESEED is accepted: BUSY = 0, INST = 1, seg(0) in range (R120). -/
structure ReadyReseed (s : State) : Prop where
  cfg_legal : s.cfg.wellFormed = true
  idle : s.status.busy = false
  inst_set : s.inst = true
  seg0_in : (s.args.segRegion .seg0).inRange s.cfg.dmemSize = true

/-- RESEED.A is accepted: as RESEED, and seg(1) in range (R121). -/
structure ReadyReseedA (s : State) : Prop extends ReadyReseed s where
  seg1_in : (s.args.segRegion .seg1).inRange s.cfg.dmemSize = true

/-- GENERATE is accepted: BUSY = 0, INST = 1, the output region in range, COUNT below 2^64 − 1 and, where the
limits are enabled, COUNT ≤ RESEED_LIMIT and OUT_LEN ≤ MAX_GEN_BYTES (R130). -/
structure ReadyGenerate (s : State) : Prop where
  cfg_legal : s.cfg.wellFormed = true
  idle : s.status.busy = false
  inst_set : s.inst = true
  out_in : s.args.outRegion.inRange s.cfg.dmemSize = true
  not_exhausted : s.count.toNat < 2 ^ 64 - 1
  under_limit : s.cfg.reseedLimit = 0 ∨ s.count.toNat ≤ s.cfg.reseedLimit.toNat
  under_cap : s.cfg.maxGenBytes = 0 ∨ s.args.outLen.toNat ≤ s.cfg.maxGenBytes.toNat

/-- GENERATE.A is accepted: as GENERATE, with seg(0) in range and apart from the output region (R131). -/
structure ReadyGenerateA (s : State) : Prop extends ReadyGenerate s where
  seg0_in : (s.args.segRegion .seg0).inRange s.cfg.dmemSize = true
  apart : (s.args.segRegion .seg0).overlaps s.args.outRegion = false

end Sys2Proof.Machine
end

