-- ==== Sys2Proof/Certificates/Slice0/Obligations.lean ====
section
/-! DEFINITION. The statements about the block. Each names the rule of spec/ that it formalises, or the sections it
rests on. -/

open Sys2Proof Sys2Proof.Machine

/-! Words that the statements use -/

namespace Sys2Proof.Stated

/-- The word of a command in the opcode map (R81). -/
def commandWord : Instr → Word
  | .instantiate => 0x00000001
  | .reseed => 0x00000002
  | .reseedA => 0x00000012
  | .generate => 0x00000003
  | .generateA => 0x00000013
  | .zeroize => 0x00000004

/-- The state after the bus has taken a write and the events `es` remain. -/
def acked (s : State) (es : List Event) : State := { s with events := es, resp := some { error := false, data := 0 } }

/-- s with OVR set. -/
def overrun (s : State) : State :=
  { s with status := { busy := s.status.busy, done := s.status.done, err := s.status.err,
                       errcode := s.status.errcode, ovr := true } }

/-- s with the command rejected: DONE, ERR and ERRCODE (R170). -/
def rejected (e : ErrCode) (s : State) : State :=
  { s with status := { busy := s.status.busy, done := true, err := true, errcode := e, ovr := s.status.ovr } }

/-- s with a command of these OPC and A accepted and this micro-program loaded (R169). The held count is the
model's (log entry 4). -/
def accepted (opc : BitVec 4) (a : Bool) (uq : List MicroOp) (s : State) : State :=
  { s with
    latch := { opc := opc, a := a, args := s.args }
    uq := uq
    status := { busy := true, done := false, err := false, errcode := .noError, ovr := s.status.ovr }
    heldCount := s.count }

/-- The state after a micro-operation whose effects made s, with `rest` left of UQ: the step that empties UQ completes
the command (R95, R171). -/
def afterMicro (rest : List MicroOp) (s : State) : State :=
  match rest with
  | [] => { s with uq := [], status := { busy := false, done := true, err := s.status.err,
                                         errcode := s.status.errcode, ovr := s.status.ovr } }
  | op :: ops => { s with uq := op :: ops }

/-- s with an answer on the bus. -/
def answered (data : Word) (s : State) : State := { s with resp := some { error := false, data := data } }

/-- s with a bus error on the bus. -/
def busFault (data : Word) (s : State) : State := { s with resp := some { error := true, data := data } }

/-- The outcome goes on to the state s, with an answer without error on the bus. So a write is taken: the data of its
answer are the model's own (log entry 7) and left open here. -/
def Took (r : Result) (s : State) : Prop := ∃ d : Word, r = .next (answered d s)

/-- The segments that each command uses (R57), whose range is checked, row by row of the table of R167. -/
def rangeChecked : List (Instr × SegIdx) :=
  [(.instantiate, .seg0), (.reseed, .seg0), (.reseedA, .seg0), (.generateA, .seg0),
   (.instantiate, .seg1), (.reseedA, .seg1), (.instantiate, .seg2)]

/-- When a check applies to a command (R167) and fails (R168, R60). -/
def CheckFails (c : Instr) (s : State) : ErrCode → Prop
  | .noError => False
  | .illegalCmd => False
  | .notInstantiated => c ∈ [Instr.reseed, .reseedA, .generate, .generateA] ∧ s.inst = false
  | .range =>
    (∃ i, (c, i) ∈ rangeChecked ∧ (s.args.segRegion i).len > 0 ∧
      (s.args.segRegion i).addr + (s.args.segRegion i).len > s.cfg.dmemSize) ∨
    (c ∈ [Instr.generate, .generateA] ∧ s.args.outLen.toNat > 0 ∧
      s.args.outAddr.toNat + s.args.outLen.toNat > s.cfg.dmemSize)
  | .overlap =>
    c = .generateA ∧ s.args.seg0Len.toNat > 0 ∧ s.args.outLen.toNat > 0 ∧
      s.args.seg0Addr.toNat < s.args.outAddr.toNat + s.args.outLen.toNat ∧
      s.args.outAddr.toNat < s.args.seg0Addr.toNat + s.args.seg0Len.toNat
  | .countExhausted => c ∈ [Instr.generate, .generateA] ∧ s.count.toNat = 2 ^ 64 - 1
  | .reseedRequired =>
    c ∈ [Instr.generate, .generateA] ∧ s.cfg.reseedLimit ≠ 0 ∧ s.count.toNat > s.cfg.reseedLimit.toNat
  | .requestTooLarge =>
    c ∈ [Instr.generate, .generateA] ∧ s.cfg.maxGenBytes ≠ 0 ∧ s.args.outLen.toNat > s.cfg.maxGenBytes.toNat

/-- What a command leaves in COUNT when it completes (R25), as a natural number. -/
def countAfter : Instr → Nat → Nat
  | .instantiate, _ => 1
  | .reseed, n => n
  | .reseedA, n => n
  | .generate, n => n + 1
  | .generateA, n => n + 1
  | .zeroize, _ => 0

/-- What a command leaves in INST when it completes (R27). -/
def instAfter : Instr → Bool → Bool
  | .instantiate, _ => true
  | .reseed, b => b
  | .reseedA, b => b
  | .generate, b => b
  | .generateA, b => b
  | .zeroize, _ => false

/-- The command that LATCH names. -/
def latched (c : Instr) (s : State) : Prop := s.latch.opc = c.opc ∧ s.latch.a = c.aBit

/-- The micro-operations that call HMAC_H (R98, R99, R133). -/
def callsHmac : MicroOp → Bool
  | .hk _ _ => true
  | .hv => true
  | .ho _ _ => true
  | .setKV _ _ => false
  | .setCnt _ => false
  | .incCnt => false
  | .setInst _ => false

/-- How many calls of HMAC_H a micro-program makes. -/
def hmacCalls (p : List MicroOp) : Nat := p.countP callsHmac

/-- Segment i of the running command, which is in range, holds the bytes x (R57, R55). -/
def SegBytes (s : State) (i : SegIdx) (x : ByteString) : Prop :=
  (s.latch.args.segRegion i).inRange s.cfg.dmemSize = true ∧ x.length = (s.latch.args.segRegion i).len ∧
    ∀ j < x.length, Memory.byte? s.dmem ((s.latch.args.segRegion i).addr + j) = x[j]?

/-- The message that a selector of R98 stands for. -/
def SelMessage (s : State) : MsgSel → ByteString → Prop
  | .nothing, m => m = []
  | .i3, m => ∃ x y z, SegBytes s .seg0 x ∧ SegBytes s .seg1 y ∧ SegBytes s .seg2 z ∧ m = x ++ y ++ z
  | .rs, m =>
    ∃ x, SegBytes s .seg0 x ∧ (s.latch.a = false → m = x) ∧
      (s.latch.a = true → ∃ y, SegBytes s .seg1 y ∧ m = x ++ y)
  | .ga, m => SegBytes s .seg0 m

/-- The segments that a selector of R98 names, with LATCH.a = a. -/
def Selects (a : Bool) : MsgSel → SegIdx → Prop
  | .nothing, _ => False
  | .i3, _ => True
  | .rs, i => i = .seg0 ∨ (i = .seg1 ∧ a = true)
  | .ga, i => i = .seg0

/-- The number of a segment. A message has its segments in this order (R98). -/
def segNumber : SegIdx → Nat
  | .seg0 => 0
  | .seg1 => 1
  | .seg2 => 2

/-- The address x lies in the region r. -/
def Inside (x : Nat) (r : Region) : Prop := r.addr ≤ x ∧ x < r.addr + r.len

/-- The offsets of the argument registers with their names (R28). -/
def argOffsets : List (Nat × ArgReg) :=
  [(0x040, .seg0Addr), (0x044, .seg0Len), (0x048, .seg1Addr), (0x04C, .seg1Len), (0x050, .seg2Addr),
   (0x054, .seg2Len), (0x058, .outAddr), (0x05C, .outLen)]

/-- The offsets that R28 and R32 to R41 name, window words aside. -/
def namedOffsets : List Nat :=
  [0x000, 0x004, 0x008, 0x00C, 0x010, 0x020, 0x024, 0x028, 0x02C] ++ argOffsets.map Prod.fst

/-- The two states agree in all but K and V. -/
def SameButKV (s t : State) : Prop := { s with k := t.k, v := t.v } = t

/-- Two outcomes of an access are alike: both go on to states that agree in all but K and V, or both stop for the
same reason. -/
def AlikeButKV : Result → Result → Prop
  | .next s, .next t => SameButKV s t
  | .fault f, .fault g => f = g
  | .refused f, .refused g => f = g
  | _, _ => False

/-- The two states agree in all but the last answer on the bus and OVR. -/
def SameButBus (s t : State) : Prop :=
  { s with resp := t.resp, status := { s.status with ovr := t.status.ovr } } = t

end Sys2Proof.Stated

open Sys2Proof.Stated

/-! Command words -/

/-- R81: each command's encoding is its word of the opcode map, that word decodes to it, and a word that is none of the
six is Illegal. -/
def Obligations.CommandWordsAreTheOpcodeMap : Prop :=
  (∀ c : Instr, encode c = commandWord c ∧ decode (commandWord c) = .command c) ∧
  ∀ w : Word, (∀ c : Instr, w ≠ commandWord c) → ∃ why, decode w = .illegal why

/-- Encoding and decoding agree, in both directions: a word decodes to a command exactly when it is that command's
word. Rests on 30_encoding.md section 3 (R80, R81). -/
def Obligations.DecodeAndEncodeAgree : Prop :=
  ∀ (c : Instr) (w : Word), c.wellFormed = true → (decode w = .command c ↔ w = encode c)

/-- The decoder on fields: a command's fields are exactly the well-formed ones, whatever RSV, A and OPC are.
Rests on 30_encoding.md sections 1 and 4 (R76, R77, R82). -/
def Obligations.FieldsDecodeExactlyWhenWellFormed : Prop :=
  ∀ f : CmdFields, (f.wellFormed = true ↔ ∃ c, decodeFields f = .command c) ∧
    (∀ w : Word, w.toNat / 32 ≠ 0 → decode w = .illegal .reservedBits) ∧
    CmdFields.ofWord f.toWord = f

/-- A few words written out from R81 and R82 decode as the spec says. Sanity. -/
def Obligations.WrittenWordsDecode : Prop :=
  decode 0b00000000000000000000000000000001 = .command .instantiate ∧
  decode 0b00000000000000000000000000010010 = .command .reseedA ∧
  decode 0b00000000000000000000000000000011 = .command .generate ∧
  decode 0b00000000000000000000000000000100 = .command .zeroize ∧
  decode 0x00000000 = .illegal .reservedOpcode ∧
  decode 0x00000011 = .illegal .aNotAllowed ∧
  decode 0x00000014 = .illegal .aNotAllowed ∧
  decode 0x00000023 = .illegal .reservedBits

/-! A step and a command -/

/-- A step runs the decoded command: the next event being a host's write of a command word to CMD, the step is the
meaning of that command in the state where the write is taken off the events and acknowledged on the bus (log entries 5 and 7). The same of
the state that stands for placing the word. Rests on 30_encoding.md R80 and 60_exceptions.md R165. -/
def Obligations.StepRunsTheWrittenCommand : Prop :=
  ∀ (s : State) (es : List Event) (w : Word) (c : Instr),
    decode w = .command c →
    (s.events = .host (.write .w32 (s.cfg.regBase + 0x020) w) :: es → step s = exec c (acked s es)) ∧
    step (s.withFetchWord 32 w.toNat) = exec c (acked s s.events)

/-- R165, R169, R170: a CMD write is dropped, rejected or accepted, with exactly these effects and no other. The held
count that acceptance leaves is the model's own (log entry 4) and left open here. -/
def Obligations.CmdWriteIsDroppedRejectedOrAccepted : Prop :=
  ∀ (s s' : State) (es : List Event) (w : Word),
    s.events = .host (.write .w32 (s.cfg.regBase + 0x020) w) :: es → s' = { s with events := es } →
    (s.status.busy = true → Took (step s) (overrun s')) ∧
    (s.status.busy = false → ∀ why, decode w = .illegal why → Took (step s) (rejected .illegalCmd s')) ∧
    (s.status.busy = false → ∀ c, decode w = .command c → check c s ≠ .noError →
      Took (step s) (rejected (check c s) s')) ∧
    (s.status.busy = false → ∀ c, decode w = .command c → check c s = .noError →
      ∃ h, Took (step s)
          { accepted (w.extractLsb' 0 4) (w.getLsbD 4) (microprogram s.cfg s.args c) s' with heldCount := h } ∧
        microprogram s.cfg s.args c ≠ [])

/-- R167, R168: the code reported is the first check in the order of the codes that applies to the command and fails;
with no check failing it is NONE. -/
def Obligations.CheckReportsTheFirstFailure : Prop :=
  ∀ (c : Instr) (s : State),
    (∀ e, e ≠ .noError → (check c s = e ↔
      CheckFails c s e ∧ ∀ e' : ErrCode, e'.code.toNat < e.code.toNat → ¬ CheckFails c s e')) ∧
    (check c s = .noError ↔ ∀ e, ¬ CheckFails c s e)

/-- R156: an illegal command word written while idle. With INST = 1 and OVR = 0 STATUS then reads 0x0000001E. -/
def Obligations.IllegalCommandIsRejected : Prop :=
  ∀ (s : State) (es : List Event) (w : Word) (why : IllegalWord),
    s.events = .host (.write .w32 (s.cfg.regBase + 0x020) w) :: es → s.status.busy = false →
    decode w = .illegal why →
    ∃ t d, step s = .next t ∧ t = answered d (rejected .illegalCmd { s with events := es }) ∧
      ErrCode.code .illegalCmd = 0x1 ∧
      (s.inst = true → s.status.ovr = false → statusWord t = 0x0000001E)

/-! Commands: acceptance and the run to completion -/

/-- INSTANTIATE: whenever it is accepted, offering it loads this micro-program, and seven steps of the sequencer give
exactly the function form, all else unchanged. Rests on 41_instantiate.md R110 (micro-program and function form). -/
def Obligations.InstantiateRunsToItsFunctionForm : Prop :=
  ∀ (s : State) (m : ByteString), ReadyInstantiate s → s.events = [] → commandInput .instantiate s = .ok m →
    ∃ a, exec .instantiate s = .next a ∧
      a = accepted 0x1 false
        [.setKV (rep s.cfg.hashLen 0x00) (rep s.cfg.hashLen 0x01), .hk .zero .i3, .hv, .hk .one .i3, .hv,
         .setCnt 1, .setInst true] s ∧
      runSteps 7 a = .next (fnInstantiate m s)

/-- RESEED and RESEED.A: whenever accepted, offering them loads UPD(present(RS)), and four steps of the sequencer give
exactly the function form, all else unchanged; COUNT and INST stay. Rests on 42_reseed.md R120, R121. -/
def Obligations.ReseedRunsToItsFunctionForm : Prop :=
  (∀ (s : State) (m : ByteString), ReadyReseed s → s.events = [] → commandInput .reseed s = .ok m →
    ∃ a, exec .reseed s = .next a ∧
      a = accepted 0x2 false [.hk .zero .rs, .hv, .hk .one .rs, .hv] s ∧
      runSteps 4 a = .next (fnReseed m s) ∧ (fnReseed m s).count = s.count ∧ (fnReseed m s).inst = s.inst) ∧
  ∀ (s : State) (m : ByteString), ReadyReseedA s → s.events = [] → commandInput .reseedA s = .ok m →
    ∃ a, exec .reseedA s = .next a ∧
      a = accepted 0x2 true [.hk .zero .rs, .hv, .hk .one .rs, .hv] s ∧
      runSteps 4 a = .next (fnReseedA m s) ∧ (fnReseedA m s).count = s.count ∧ (fnReseedA m s).inst = s.inst

/-- GENERATE: whenever it is accepted, offering it loads output loop, UPD(absent) and INCCNT, and nb + 3 steps of the
sequencer give exactly the function form, all else unchanged. Rests on 43_generate.md R130. -/
def Obligations.GenerateRunsToItsFunctionForm : Prop :=
  ∀ s : State, ReadyGenerate s → s.events = [] →
    ∃ a, exec .generate s = .next a ∧
      a = accepted 0x3 false
        (outputLoop s.cfg.hashLen s.args.outLen.toNat ++ [.hk .zero .nothing, .hv, .incCnt]) s ∧
      runSteps (blockCount s.cfg.hashLen s.args.outLen.toNat + 3) a = .next (fnGenerate s)

/-- GENERATE.A: whenever it is accepted, offering it loads pre-Update, output loop, post-Update and INCCNT, and
nb + 9 steps of the sequencer give exactly the function form, all else unchanged: the additional input that the
post-Update reads again is the one the pre-Update read, though the output has been written between. Rests on
43_generate.md R131 and 20_memory.md R60. -/
def Obligations.GenerateARunsToItsFunctionForm : Prop :=
  ∀ (s : State) (x : ByteString), ReadyGenerateA s → s.events = [] → commandInput .generateA s = .ok x →
    ∃ a, exec .generateA s = .next a ∧
      a = accepted 0x3 true
        ([.hk .zero .ga, .hv, .hk .one .ga, .hv] ++ outputLoop s.cfg.hashLen s.args.outLen.toNat ++
          [.hk .zero .ga, .hv, .hk .one .ga, .hv, .incCnt]) s ∧
      runSteps (blockCount s.cfg.hashLen s.args.outLen.toNat + 9) a = .next (fnGenerateA x s)

/-- ZEROIZE: always accepted while idle, whatever INST, the argument registers and the configuration are; three steps
of the sequencer zero K, V, COUNT and INST, and nothing else changes but STATUS, LATCH and UQ. Rests on
44_control.md R150. -/
def Obligations.ZeroizeRunsToItsFunctionForm : Prop :=
  ∀ s : State, s.status.busy = false → s.events = [] →
    ∃ a, exec .zeroize s = .next a ∧
      a = accepted 0x4 false
        [.setKV (rep s.cfg.hashLen 0x00) (rep s.cfg.hashLen 0x00), .setCnt 0, .setInst false] s ∧
      runSteps 3 a = .next
        { s with
          k := rep s.cfg.hashLen 0x00
          v := rep s.cfg.hashLen 0x00
          count := 0
          inst := false
          latch := { opc := 0x4, a := false, args := s.args }
          uq := []
          heldCount := s.count
          status := { busy := false, done := true, err := false, errcode := .noError, ovr := s.status.ovr } }

/-- R134: the output of GENERATE and GENERATE.A, byte by byte, with every other byte of DMEM as it was. K and V are
those with which the output loop begins; the loop ends with V_nb in V and the same K. -/
def Obligations.OutputBytesAreTheTagChain : Prop :=
  (∀ s : State, ReadyGenerate s → s.events = [] →
    let nb := blockCount s.cfg.hashLen s.args.outLen.toNat
    ∃ a u t, exec .generate s = .next a ∧ runSteps nb a = .next u ∧ runSteps (nb + 3) a = .next t ∧
      u.k = s.k ∧ u.v = outputTag s.cfg s.k s.v nb ∧
      ∀ x, Memory.byte? t.dmem x =
        if s.args.outAddr.toNat ≤ x ∧ x < s.args.outAddr.toNat + s.args.outLen.toNat then
          (outputTag s.cfg s.k s.v ((x - s.args.outAddr.toNat) / s.cfg.hashLen + 1))[
            (x - s.args.outAddr.toNat) % s.cfg.hashLen]?
        else Memory.byte? s.dmem x) ∧
  ∀ (s : State) (x : ByteString), ReadyGenerateA s → s.events = [] → commandInput .generateA s = .ok x →
    let nb := blockCount s.cfg.hashLen s.args.outLen.toNat
    let kv := update s.cfg s.k s.v (some x)
    ∃ a u t, exec .generateA s = .next a ∧ runSteps (4 + nb) a = .next u ∧ runSteps (nb + 9) a = .next t ∧
      u.k = kv.1 ∧ u.v = outputTag s.cfg kv.1 kv.2 nb ∧
      ∀ y, Memory.byte? t.dmem y =
        if s.args.outAddr.toNat ≤ y ∧ y < s.args.outAddr.toNat + s.args.outLen.toNat then
          (outputTag s.cfg kv.1 kv.2 ((y - s.args.outAddr.toNat) / s.cfg.hashLen + 1))[
            (y - s.args.outAddr.toNat) % s.cfg.hashLen]?
        else Memory.byte? s.dmem y

/-- R132: the output loop has ceil(N / L) blocks, the first i with i·L ≥ N; block i is HO(i·L, min(L, N − i·L)); every
block but the last has L bytes, and the last has from 1 to L. -/
def Obligations.OutputLoopHasTheRightBlocks : Prop :=
  ∀ L N : Nat, 1 ≤ L →
    (∀ i, N ≤ i * L ↔ blockCount L N ≤ i) ∧
    (outputLoop L N).length = blockCount L N ∧
    (∀ i < blockCount L N, (outputLoop L N)[i]? = some (.ho (i * L) (min L (N - i * L)))) ∧
    (∀ i, i + 1 < blockCount L N → min L (N - i * L) = L) ∧
    (0 < N → 1 ≤ N - (blockCount L N - 1) * L ∧ N - (blockCount L N - 1) * L ≤ L)

/-- R143: the HMAC calls of the two commands. With them the lengths of the micro-programs, which
70_reset_and_hazards.md R206 gives, and the bound of 10_state.md R30 on UQ. -/
def Obligations.GenerateMakesNbPlusTwoOrEightCalls : Prop :=
  ∀ (cfg : Config) (r : Args),
    let nb := blockCount cfg.hashLen r.outLen.toNat
    hmacCalls (microprogram cfg r .generate) = nb + 2 ∧ hmacCalls (microprogram cfg r .generateA) = nb + 8 ∧
    (microprogram cfg r .generate).length = nb + 3 ∧ (microprogram cfg r .generateA).length = nb + 9 ∧
    ∀ c, (microprogram cfg r c).length ≤ nb + 9

/-! Micro-operations -/

/-- R99: HV is one step, with the whole state given; and with it the other micro-operations that touch registers only
(40_update.md R97, R108, R109), each as the step that takes it off UQ. -/
def Obligations.RegisterMicroOperationsDoOnlyTheirWrite : Prop :=
  ∀ (s : State) (rest : List MicroOp), s.events = [] →
    (s.uq = .hv :: rest → step s = .next (afterMicro rest { s with v := hmac s.cfg s.k s.v })) ∧
    (∀ k v, s.uq = .setKV k v :: rest → step s = .next (afterMicro rest { s with k := k, v := v })) ∧
    (∀ c, s.uq = .setCnt c :: rest → step s = .next (afterMicro rest { s with count := c })) ∧
    (s.uq = .incCnt :: rest → step s = .next (afterMicro rest { s with count := s.count + 1 })) ∧
    (∀ b, s.uq = .setInst b :: rest → step s = .next (afterMicro rest { s with inst := b }))

/-- R98: HK with every selector, its message made of the bytes of the segments that LATCH gives. -/
def Obligations.HkMixesTheSelectedMessage : Prop :=
  ∀ (s : State) (sep : Sep) (sel : MsgSel) (m : ByteString) (rest : List MicroOp),
    s.events = [] → SelMessage s sel m → s.uq = .hk sep sel :: rest →
    let msg := s.v ++ [match sep with | .zero => 0x00#8 | .one => 0x01#8] ++ m
    step s = .next (afterMicro rest { s with k := hmac s.cfg s.k msg }) ∧ msg.length = s.v.length + 1 + m.length

/-- R133: HO puts the whole tag into V and its first n bytes into DMEM from LATCH.out_addr + off on; every other byte
of DMEM, and everything else, stays. -/
def Obligations.HoWritesTheFirstBytesOfTheTag : Prop :=
  ∀ (s : State) (off n : Nat) (rest : List MicroOp), s.events = [] → 1 ≤ n → n ≤ s.cfg.hashLen →
    s.latch.args.outAddr.toNat + off + n ≤ s.cfg.dmemSize → s.uq = .ho off n :: rest →
    ∃ t, step s = .next t ∧ t = afterMicro rest { s with v := hmac s.cfg s.k s.v, dmem := t.dmem } ∧
      ∀ x, Memory.byte? t.dmem x =
        if s.latch.args.outAddr.toNat + off ≤ x ∧ x < s.latch.args.outAddr.toNat + off + n then
          (hmac s.cfg s.k s.v)[x - (s.latch.args.outAddr.toNat + off)]?
        else Memory.byte? s.dmem x

/-- R100, R101: the micro-operations of Update, run in order, give the K and V of the function `update`, written out;
nothing else changes. -/
def Obligations.UpdateMicroOperationsGiveTheUpdateFunction : Prop :=
  ∀ (s : State) (rest : List MicroOp), s.events = [] →
    (∀ sel m, message s sel = .ok m → s.uq = [.hk .zero sel, .hv, .hk .one sel, .hv] ++ rest →
      let K1 := hmac s.cfg s.k (s.v ++ [0x00] ++ m)
      let V1 := hmac s.cfg K1 s.v
      let K2 := hmac s.cfg K1 (V1 ++ [0x01] ++ m)
      let V2 := hmac s.cfg K2 V1
      updPresent sel = [.hk .zero sel, .hv, .hk .one sel, .hv] ∧
      update s.cfg s.k s.v (some m) = (K2, V2) ∧
      runSteps 4 s = .next (afterMicro rest { s with k := K2, v := V2 })) ∧
    (s.uq = [.hk .zero .nothing, .hv] ++ rest →
      let K1 := hmac s.cfg s.k (s.v ++ [0x00])
      let V1 := hmac s.cfg K1 s.v
      updAbsent = [.hk .zero .nothing, .hv] ∧
      update s.cfg s.k s.v none = (K1, V1) ∧
      runSteps 2 s = .next (afterMicro rest { s with k := K1, v := V1 }))

/-! The invariant and the whole machine -/

/-- The state after reset meets the invariant, for every legal configuration. -/
def Obligations.ResetMeetsTheInvariant : Prop :=
  GoodState State.reset ∧ ∀ cfg : Config, cfg.wellFormed = true → GoodState (State.resetWith cfg)

/-- Every step keeps the invariant, whatever event takes place: K and V stay L bytes long, memory stays canonical and
inside DMEM, BUSY says whether UQ is non-empty, the running command stays part of the way through its own
micro-program, ERR and ERRCODE agree, a generator exists exactly when the count read by the host is not 0.
Rests on 10_state.md R23, R30, R31, R33, R34; 20_memory.md R50, R58. -/
def Obligations.EveryStepKeepsTheInvariant : Prop :=
  ∀ s t : State, GoodState s → step s = .next t → GoodState t

/-- What COUNT, as the host reads it (log entry 4), becomes in any step of the machine. It changes only when a command
completes, by that command's row of the table, or at reset; GENERATE adds exactly 1 as a natural number, so it never
wraps, and at 2^64 − 1 GENERATE is rejected. Rests on 10_state.md R25 and 44_control.md R152. -/
def Obligations.CountChangesOnlyAtCompletionOrReset : Prop :=
  (∀ s t : State, GoodState s → step s = .next t →
    (s.events.head? = some .reset → countReadout t = 0) ∧
    (s.events.head? ≠ some .reset → s.status.busy = true → t.status.busy = false →
      ∀ c, latched c s → (countReadout t).toNat = countAfter c (countReadout s).toNat) ∧
    (s.events.head? ≠ some .reset → ¬(s.status.busy = true ∧ t.status.busy = false) →
      countReadout t = countReadout s)) ∧
  ∀ (c : Instr) (s : State), c = .generate ∨ c = .generateA → s.inst = true →
    (∀ r ∈ usedRegions c s.args, r.inRange s.cfg.dmemSize = true) →
    (c = .generateA → (s.args.segRegion .seg0).overlaps s.args.outRegion = false) →
    s.count.toNat = 2 ^ 64 - 1 → check c s = .countExhausted

/-- INST changes only when INSTANTIATE completes, which sets it, when ZEROIZE completes, which clears it, or at
reset. Rests on 10_state.md R27. -/
def Obligations.InstChangesOnlyAtCompletionOrReset : Prop :=
  ∀ s t : State, GoodState s → step s = .next t →
    (s.events.head? = some .reset → t.inst = false) ∧
    (s.events.head? ≠ some .reset → s.status.busy = true → t.status.busy = false →
      ∀ c, latched c s → t.inst = instAfter c s.inst) ∧
    (s.events.head? ≠ some .reset → ¬(s.status.busy = true ∧ t.status.busy = false) → t.inst = s.inst)

/-- A step from a good state stops only on a read of a byte that nothing has written, or on a host access in neither
window; no micro-operation fails for any other reason and no command is refused. Rests on 60_exceptions.md R172 and
20_memory.md R50, R51. -/
def Obligations.OnlyUnwrittenBytesAndStrayAccessesStop : Prop :=
  ∀ s : State, GoodState s →
    (∀ f, step s = .fault f →
      (∃ a, f = .unwrittenByte a ∧ Memory.byte? s.dmem a = none) ∨
      (∃ a acc es, f = .unmappedAddress a ∧ s.events = .host acc :: es ∧ target s.cfg a = .nowhere ∧
        ∃ width, acc = .read width a ∨ ∃ w, acc = .write width a w)) ∧
    ∀ r, step s ≠ .refused r

/-- Every accepted command completes. In a good state with a command running, its inputs written and no other
event in the way, the sequencer runs UQ down: BUSY stays 1 until the step that empties UQ, which sets DONE; ERR and
ERRCODE stay 0. Rests on 60_exceptions.md R171 and 20_memory.md R51. -/
def Obligations.EveryAcceptedCommandCompletes : Prop :=
  ∀ s : State, GoodState s → s.status.busy = true → InputsWritten s → s.events = [] →
    (∃ t, runSteps s.uq.length s = .next t ∧ t.status.busy = false ∧ t.status.done = true ∧ t.uq = [] ∧
      t.status.err = false ∧ t.status.errcode = .noError) ∧
    ∀ j < s.uq.length, ∃ t, runSteps j s = .next t ∧ t.status.busy = true ∧ t.uq = s.uq.drop j

/-- Host accesses that come between the sequencer's turns do not disturb a running command: while it runs, any order
of host accesses and turns leaves what the turns alone leave, but for OVR and the last answer on the bus.
Rests on 10_state.md R35, R44 and 40_update.md R95. -/
def Obligations.HostAccessesDoNotDisturbARunningCommand : Prop :=
  ∀ (s t u : State) (es : List Event), GoodState s → s.status.busy = true → .reset ∉ es →
    sequencerTurns es < s.uq.length →
    runSteps es.length { s with events := es } = .next t →
    runSteps (sequencerTurns es) { s with events := [] } = .next u →
    SameButBus t u

/-- The configuration is no state: no step changes it. Rests on 10_state.md R20. -/
def Obligations.NoStepChangesTheConfiguration : Prop :=
  ∀ s t : State, step s = .next t → t.cfg = s.cfg

/-- A byte of DMEM changes only by reset, by a host write of it while no command runs, or by an output block of the
sequencer that covers it; so no command clears DMEM, and a written byte stays written until reset. Rests on
20_memory.md R51, R61 and 70_reset_and_hazards.md R202. -/
def Obligations.DmemChangesOnlyByWritesThatCoverIt : Prop :=
  ∀ (s t : State) (a : Nat), step s = .next t →
    (Memory.byte? t.dmem a ≠ Memory.byte? s.dmem a →
      s.events.head? = some .reset ∨
      (∃ width addr b w es, s.events = .host (.write width addr w) :: es ∧ target s.cfg addr = .dmem b ∧
        s.status.busy = false ∧ b ≤ a ∧ a < b + width.bytes) ∨
      (∃ off n rest, s.uq = .ho off n :: rest ∧ (s.events = [] ∨ s.events.head? = some .sequencer) ∧
        s.latch.args.outAddr.toNat + off ≤ a ∧ a < s.latch.args.outAddr.toNat + off + n)) ∧
    (s.events.head? ≠ some .reset → Memory.byte? s.dmem a ≠ none → Memory.byte? t.dmem a ≠ none)

/-- No host access, a command word included, changes K, V, COUNT or INST in its own step. Rests on 10_state.md R21,
R22, R25 and 60_exceptions.md R179. -/
def Obligations.HostAccessesCannotWriteTheGenerator : Prop :=
  ∀ (s t : State) (acc : Access) (es : List Event), s.events = .host acc :: es → step s = .next t →
    t.k = s.k ∧ t.v = s.v ∧ t.count = s.count ∧ t.inst = s.inst

/-- With KV_READABLE = 0 a host access learns nothing of K and V: from two states that differ in K and V only, it
gets the same answer, or the same stop, and again leaves states that differ in K and V only. Rests on
10_state.md R41 and 60_exceptions.md R179. -/
def Obligations.HostAccessesLearnNothingOfKAndV : Prop :=
  ∀ (s t : State) (acc : Access), s.cfg.kvReadable = false → SameButKV s t →
    AlikeButKV (hostAccess acc s) (hostAccess acc t)

/-- An argument register changes only by a host's write of it while no command runs, or at reset: the sequencer never
writes one, and no command clears one. Rests on 10_state.md R28, R29, R35. -/
def Obligations.ArgumentRegistersChangeOnlyByIdleHostWrites : Prop :=
  ∀ (s t : State) (x : ArgReg), step s = .next t → t.args.get x ≠ s.args.get x →
    s.events.head? = some .reset ∨
    ∃ addr off w es, s.events = .host (.write .w32 addr w) :: es ∧ target s.cfg addr = .reg off ∧
      (off, x) ∈ argOffsets ∧ s.status.busy = false ∧ t.args.get x = w

/-! Host accesses -/

/-- R35: the busy lock, access by access; OVR, once set, stays until the host clears it or a reset happens, and
nothing but a host access while BUSY = 1 sets it. -/
def Obligations.BusyLockDropsAndRecords : Prop :=
  (∀ s : State, s.cfg.wellFormed = true → s.status.busy = true →
    (∀ w, Took (hostAccess (.write .w32 (s.cfg.regBase + 0x020) w) s) (overrun s)) ∧
    (∀ off x w, (off, x) ∈ argOffsets →
      Took (hostAccess (.write .w32 (s.cfg.regBase + off) w) s) (overrun s)) ∧
    (∀ width a w, a % width.bytes = 0 → a + width.bytes ≤ s.cfg.dmemSize →
      Took (hostAccess (.write width (s.cfg.dmemBase + a) w) s) (overrun s) ∧
      hostAccess (.read width (s.cfg.dmemBase + a)) s = .next (overrun (answered 0 s))) ∧
    (∀ off, 0x100 ≤ off → off < 0x180 → off % 4 = 0 →
      hostAccess (.read .w32 (s.cfg.regBase + off)) s = .next (overrun (answered 0 s))) ∧
    (∀ off, off < 0x200 → off % 4 = 0 → ¬(0x100 ≤ off ∧ off < 0x180) →
      ∃ w, hostAccess (.read .w32 (s.cfg.regBase + off)) s = .next (answered w s)) ∧
    (∀ off w t, off < 0x200 → off % 4 = 0 → off ≠ 0x020 → (∀ x, (off, x) ∉ argOffsets) →
      hostAccess (.write .w32 (s.cfg.regBase + off) w) s = .next t → t.status.ovr = true → s.status.ovr = true)) ∧
  ∀ s t : State, step s = .next t →
    (s.status.ovr = true → t.status.ovr = false →
      s.events.head? = some .reset ∨
      ∃ addr w es, s.events = .host (.write .w32 addr w) :: es ∧ target s.cfg addr = .reg 0x024 ∧
        w.getLsbD 8 = true) ∧
    (s.status.ovr = false → t.status.ovr = true → s.status.busy = true ∧ ∃ acc es, s.events = .host acc :: es)

/-- A register access that is not an aligned 32-bit access is a bus error: error response with data 0 for a read, and no
effect on any state, OVR included. So is a misaligned DMEM access, and an aligned one lies inside DMEM. That the run
goes on after a bus error, with the error as the answer on the bus, is the model's choice (log entry 8): the spec
leaves to the platform what the host does with it. Rests on 20_memory.md R52, R53 and 60_exceptions.md R177. -/
def Obligations.BusErrorsHaveNoEffect : Prop :=
  ∀ (s : State) (width : Width) (w : Word), s.cfg.wellFormed = true →
    (∀ off < 0x200, width ≠ .w32 ∨ off % 4 ≠ 0 →
      hostAccess (.read width (s.cfg.regBase + off)) s = .next (busFault 0 s) ∧
      ∃ d, hostAccess (.write width (s.cfg.regBase + off) w) s = .next (busFault d s)) ∧
    (∀ a < s.cfg.dmemSize, a % width.bytes ≠ 0 →
      hostAccess (.read width (s.cfg.dmemBase + a)) s = .next (busFault 0 s) ∧
      ∃ d, hostAccess (.write width (s.cfg.dmemBase + a) w) s = .next (busFault d s)) ∧
    (∀ a < s.cfg.dmemSize, a % width.bytes = 0 → a + width.bytes ≤ s.cfg.dmemSize)

/-- R153: what a read of STATUS returns, in every state, BUSY or not; nothing else changes. -/
def Obligations.StatusReadsItsFields : Prop :=
  ∀ s : State, ∃ w : Word,
    hostAccess (.read .w32 (s.cfg.regBase + 0x024)) s = .next (answered w s) ∧
    w.toNat = 256 * s.status.ovr.toNat + 16 * s.status.errcode.code.toNat + 8 * s.inst.toNat +
      4 * s.status.err.toNat + 2 * s.status.done.toNat + s.status.busy.toNat

/-- R154: a write of STATUS clears OVR when its bit 8 is 1 and changes no other field, in every state, BUSY or not. -/
def Obligations.StatusWriteClearsOvrOnly : Prop :=
  ∀ (s : State) (w : Word),
    Took (hostAccess (.write .w32 (s.cfg.regBase + 0x024) w) s)
      { s with status := { busy := s.status.busy, done := s.status.done, err := s.status.err,
                           errcode := s.status.errcode, ovr := s.status.ovr && !w.getLsbD 8 } }

/-- R155: an argument register reads back its value, BUSY or not; a write stores all 32 bits while BUSY = 0, whatever
the value, and is dropped with OVR set while BUSY = 1; no other register changes. -/
def Obligations.ArgumentRegistersStoreAndRead : Prop :=
  ∀ (s : State) (off : Nat) (x : ArgReg) (w : Word), (off, x) ∈ argOffsets →
    hostAccess (.read .w32 (s.cfg.regBase + off)) s = .next (answered (s.args.get x) s) ∧
    (s.status.busy = true → Took (hostAccess (.write .w32 (s.cfg.regBase + off) w) s) (overrun s)) ∧
    (s.status.busy = false →
      ∃ t d, hostAccess (.write .w32 (s.cfg.regBase + off) w) s = .next t ∧
        t = { answered d s with args := t.args } ∧ t.args.get x = w ∧
        ∀ y, y ≠ x → t.args.get y = s.args.get y)

/-- R152: reading the count changes no state and never sets OVR, idle or busy. From the acceptance of a command, through
any order of host accesses and sequencer turns in which it does not complete, the readout is COUNT as it was before
the command. After ZEROIZE and after reset both words read 0. -/
def Obligations.CountReadsAsBeforeTheRunningCommand : Prop :=
  (∀ s : State,
    hostAccess (.read .w32 (s.cfg.regBase + 0x028)) s = .next (answered ((countReadout s).setWidth 32) s) ∧
    hostAccess (.read .w32 (s.cfg.regBase + 0x02C)) s = .next (answered ((countReadout s >>> 32).setWidth 32) s) ∧
    (s.status.busy = false → countReadout s = s.count)) ∧
  (∀ s : State, countReadout (fnZeroize s) = 0) ∧ (∀ cfg : Config, countReadout (State.resetWith cfg) = 0) ∧
  ∀ (s a t : State) (c : Instr) (es : List Event), GoodState s → s.status.busy = false → exec c s = .next a →
    .reset ∉ es → sequencerTurns es < a.uq.length →
    runSteps es.length { a with events := es } = .next t → countReadout t = s.count

/-- R158: the identification and configuration registers read their constants, and writes to them, to COUNT_LO and
COUNT_HI and to reserved offsets are ignored and never set OVR. -/
def Obligations.ConfigurationRegistersReadTheirConstants : Prop :=
  ∀ s : State,
    hostAccess (.read .w32 (s.cfg.regBase + 0x000)) s = .next (answered 0x48440100 s) ∧
    (s.cfg.hashLen < 256 → ∃ w : Word, hostAccess (.read .w32 (s.cfg.regBase + 0x004)) s = .next (answered w s) ∧
      w.toNat = s.cfg.hashLen + 64 * 256 + 65536 * s.cfg.kvReadable.toNat) ∧
    hostAccess (.read .w32 (s.cfg.regBase + 0x008)) s = .next (answered (BitVec.ofNat 32 s.cfg.dmemSize) s) ∧
    hostAccess (.read .w32 (s.cfg.regBase + 0x00C)) s = .next (answered s.cfg.reseedLimit s) ∧
    hostAccess (.read .w32 (s.cfg.regBase + 0x010)) s = .next (answered s.cfg.maxGenBytes s) ∧
    ∀ off w, off < 0x200 → off % 4 = 0 →
      off ∈ [0x000, 0x004, 0x008, 0x00C, 0x010, 0x028, 0x02C] ∨ (off ∉ namedOffsets ∧ ¬(0x100 ≤ off ∧ off < 0x180)) →
      Took (hostAccess (.write .w32 (s.cfg.regBase + off) w) s) s

/-- R42: a reserved offset reads 0, and a write to it is ignored and sets no OVR, in every state; the register window
is 0x200 bytes. -/
def Obligations.ReservedOffsetsReadZero : Prop :=
  (∀ (s : State) (off : Nat) (w : Word), off < 0x200 → off % 4 = 0 → off ∉ namedOffsets →
    ¬(0x100 ≤ off ∧ off < 0x180) →
    hostAccess (.read .w32 (s.cfg.regBase + off)) s = .next (answered 0 s) ∧
    Took (hostAccess (.write .w32 (s.cfg.regBase + off) w) s) s) ∧
  ∀ (cfg : Config) (off : Nat), target cfg (cfg.regBase + off) = .reg off ↔ off < 0x200

/-- R41: word n of the K and V windows: the bytes 4n to 4n + 3 while KV_READABLE = 1 and BUSY = 0, with 0 past the end;
0 while KV_READABLE = 0; 0 with OVR set while BUSY = 1; writes are ignored. -/
def Obligations.WindowsShowKAndVOnlyWhenReadable : Prop :=
  ∀ (s : State) (n : Nat), n < 16 →
    (s.status.busy = false → s.cfg.kvReadable = true →
      ∃ x y : Word, hostAccess (.read .w32 (s.cfg.regBase + (0x100 + 4 * n))) s = .next (answered x s) ∧
        hostAccess (.read .w32 (s.cfg.regBase + (0x140 + 4 * n))) s = .next (answered y s) ∧
        ∀ i < 4, (x >>> (8 * i)).setWidth 8 = s.k.getD (4 * n + i) 0 ∧
          (y >>> (8 * i)).setWidth 8 = s.v.getD (4 * n + i) 0) ∧
    (s.status.busy = false → s.cfg.kvReadable = false →
      hostAccess (.read .w32 (s.cfg.regBase + (0x100 + 4 * n))) s = .next (answered 0 s) ∧
      hostAccess (.read .w32 (s.cfg.regBase + (0x140 + 4 * n))) s = .next (answered 0 s)) ∧
    (s.status.busy = true →
      hostAccess (.read .w32 (s.cfg.regBase + (0x100 + 4 * n))) s = .next (overrun (answered 0 s)) ∧
      hostAccess (.read .w32 (s.cfg.regBase + (0x140 + 4 * n))) s = .next (overrun (answered 0 s))) ∧
    ∀ w, Took (hostAccess (.write .w32 (s.cfg.regBase + (0x100 + 4 * n)) w) s) s ∧
      Took (hostAccess (.write .w32 (s.cfg.regBase + (0x140 + 4 * n)) w) s) s

/-- Little-endian accesses of DMEM. A write of any width stores the bytes of its word, bits [7:0] at the lowest
address, and leaves every other byte; a read of any width returns the word whose byte i is the byte at a + i, which is
the byte that an 8-bit read of a + i returns. Rests on 20_memory.md R53, R54. -/
def Obligations.DmemAccessesAreLittleEndian : Prop :=
  ∀ (s : State) (width : Width) (a : Nat), s.cfg.wellFormed = true → s.status.busy = false →
    a % width.bytes = 0 → a + width.bytes ≤ s.cfg.dmemSize →
    (∀ w, ∃ t d, hostAccess (.write width (s.cfg.dmemBase + a) w) s = .next t ∧
      t = { answered d s with dmem := t.dmem } ∧
      ∀ x, Memory.byte? t.dmem x =
        if a ≤ x ∧ x < a + width.bytes then some ((w >>> (8 * (x - a))).setWidth 8) else Memory.byte? s.dmem x) ∧
    ((∀ i < width.bytes, Memory.byte? s.dmem (a + i) ≠ none) →
      ∃ r : Word, hostAccess (.read width (s.cfg.dmemBase + a)) s = .next (answered r s) ∧
        r.toNat < 256 ^ width.bytes ∧
        ∀ i < width.bytes, Memory.byte? s.dmem (a + i) = some ((r >>> (8 * i)).setWidth 8) ∧
          hostAccess (.read .w8 (s.cfg.dmemBase + (a + i))) s =
            .next (answered (((r >>> (8 * i)).setWidth 8).setWidth 32) s))

/-- A host read of a byte that nothing has written stops the run. So does HK, whatever its selector, when a segment
that the selector names has such a byte: seg(0), seg(1) and seg(2) for I3; seg(0), and seg(1) when LATCH.a = 1, for RS;
seg(0) for GA. The byte it stops on lies in a named segment, no later in the message than the given one. So an
accepted INSTANTIATE, RESEED, RESEED.A or GENERATE.A with such a byte in a segment it uses stops at its first HK:
the second micro-operation of INSTANTIATE, the first of the others. After reset every byte is unwritten. Rests on
20_memory.md R51, R57 and 40_update.md R98. -/
def Obligations.UnwrittenDmemReadsFault : Prop :=
  (∀ (s : State) (width : Width) (a i : Nat), s.cfg.wellFormed = true → s.status.busy = false →
    a % width.bytes = 0 → a + width.bytes ≤ s.cfg.dmemSize → i < width.bytes → Memory.byte? s.dmem (a + i) = none →
    ∃ x, a ≤ x ∧ x ≤ a + i ∧ Memory.byte? s.dmem x = none ∧
      hostAccess (.read width (s.cfg.dmemBase + a)) s = .fault (.unwrittenByte x)) ∧
  (∀ (s : State) (sep : Sep) (sel : MsgSel) (rest : List MicroOp) (i : SegIdx) (j : Nat),
    s.events = [] → s.uq = .hk sep sel :: rest →
    (∀ k, Selects s.latch.a sel k → (s.latch.args.segRegion k).inRange s.cfg.dmemSize = true) →
    Selects s.latch.a sel i → j < (s.latch.args.segRegion i).len →
    Memory.byte? s.dmem ((s.latch.args.segRegion i).addr + j) = none →
    ∃ k x, Selects s.latch.a sel k ∧ Inside x (s.latch.args.segRegion k) ∧
      (segNumber k < segNumber i ∨ (k = i ∧ x ≤ (s.latch.args.segRegion i).addr + j)) ∧
      Memory.byte? s.dmem x = none ∧ step s = .fault (.unwrittenByte x)) ∧
  (∀ (c : Instr) (s : State) (i : SegIdx) (j : Nat), s.events = [] → s.status.busy = false → check c s = .noError →
    (c, i) ∈ rangeChecked → j < (s.args.segRegion i).len →
    Memory.byte? s.dmem ((s.args.segRegion i).addr + j) = none →
    ∃ a k x, exec c s = .next a ∧ (c, k) ∈ rangeChecked ∧ Inside x (s.args.segRegion k) ∧
      Memory.byte? s.dmem x = none ∧
      runSteps (if c = .instantiate then 2 else 1) a = .fault (.unwrittenByte x)) ∧
  ∀ a, Memory.byte? State.reset.dmem a = none

/-- R55: MemRead and MemWrite move byte i of a string from or to address a + i, and no other byte. -/
def Obligations.MemReadAndMemWriteMoveByteStrings : Prop :=
  ∀ (a n : Nat) (s : ByteString) (m : Memory),
    (memRead a n m = .ok s ↔ s.length = n ∧ ∀ i < n, Memory.byte? m (a + i) = s[i]?) ∧
    (∀ x, Memory.byte? (memWrite a s m) x = if a ≤ x ∧ x < a + s.length then s[x - a]? else Memory.byte? m x) ∧
    memRead a s.length (memWrite a s m) = .ok s ∧
    (Memory.wf m → Memory.wf (memWrite a s m))

/-! Consequences of the algorithm -/

/-- R112, R113: after INSTANTIATE only the concatenation of its inputs matters: not where the segment boundaries lie,
and not the old K, V, COUNT or INST. -/
def Obligations.InstantiateDependsOnlyOnItsInput : Prop :=
  ∀ (s s' : State) (m : ByteString), ReadyInstantiate s → ReadyInstantiate s' → s.events = [] → s'.events = [] →
    s.cfg.hashLen = s'.cfg.hashLen → commandInput .instantiate s = .ok m → commandInput .instantiate s' = .ok m →
    ∃ a a' t t', exec .instantiate s = .next a ∧ exec .instantiate s' = .next a' ∧
      runSteps 7 a = .next t ∧ runSteps 7 a' = .next t' ∧
      t.k = t'.k ∧ t.v = t'.v ∧ t.count = 1 ∧ t'.count = 1 ∧ t.inst = true ∧ t'.inst = true

/-- R122: RESEED with entropy e, RESEED.A with entropy e and a zero-length seg(1), and RESEED.A with entropy ε and
seg(1) = e give the same K and V. -/
def Obligations.ReseedAbsentAndEmptyAdditionalAgree : Prop :=
  ∀ (s1 s2 s3 : State) (e : ByteString), ReadyReseed s1 → ReadyReseedA s2 → ReadyReseedA s3 →
    s1.events = [] → s2.events = [] → s3.events = [] →
    s1.cfg.hashLen = s2.cfg.hashLen → s1.cfg.hashLen = s3.cfg.hashLen →
    s1.k = s2.k → s1.k = s3.k → s1.v = s2.v → s1.v = s3.v →
    readSeg s1.cfg.dmemSize s1.args s1.dmem .seg0 = .ok e →
    readSeg s2.cfg.dmemSize s2.args s2.dmem .seg0 = .ok e → s2.args.seg1Len = 0 →
    s3.args.seg0Len = 0 → readSeg s3.cfg.dmemSize s3.args s3.dmem .seg1 = .ok e →
    ∃ a1 a2 a3 t1 t2 t3, exec .reseed s1 = .next a1 ∧ exec .reseedA s2 = .next a2 ∧ exec .reseedA s3 = .next a3 ∧
      runSteps 4 a1 = .next t1 ∧ runSteps 4 a2 = .next t2 ∧ runSteps 4 a3 = .next t3 ∧
      (t1.k, t1.v) = update s1.cfg s1.k s1.v (some e) ∧ (t2.k, t2.v) = (t1.k, t1.v) ∧ (t3.k, t3.v) = (t1.k, t1.v)

/-- R140: the prefix property. From one K and V, the shorter request writes what the longer one writes first,
whatever COUNT, the output address and the rest of the two states are. With equal lengths this is the claim of
10_state.md R24 for GENERATE. -/
def Obligations.ShorterOutputIsAPrefix : Prop :=
  ∀ s s' : State, ReadyGenerate s → ReadyGenerate s' → s.events = [] → s'.events = [] →
    s.cfg.hashLen = s'.cfg.hashLen → s.k = s'.k → s.v = s'.v → s.args.outLen.toNat ≤ s'.args.outLen.toNat →
    ∃ a a' t t', exec .generate s = .next a ∧ exec .generate s' = .next a' ∧
      runSteps a.uq.length a = .next t ∧ runSteps a'.uq.length a' = .next t' ∧
      ∀ j < s.args.outLen.toNat, ∃ b, Memory.byte? t.dmem (s.args.outAddr.toNat + j) = some b ∧
        Memory.byte? t'.dmem (s'.args.outAddr.toNat + j) = some b

/-- The output depends on K, V, OUT_LEN, the A bit, the additional input and HMAC_H only: two accepted GENERATE.A that
agree in these write the same bytes and leave the same K and V, whatever COUNT, the addresses, the limits and the rest
of the states are. Rests on 10_state.md R24. -/
def Obligations.OutputDoesNotDependOnCountOrPlace : Prop :=
  ∀ (s s' : State) (x : ByteString), ReadyGenerateA s → ReadyGenerateA s' → s.events = [] → s'.events = [] →
    s.cfg.hashLen = s'.cfg.hashLen → s.k = s'.k → s.v = s'.v → s.args.outLen = s'.args.outLen →
    commandInput .generateA s = .ok x → commandInput .generateA s' = .ok x →
    ∃ a a' t t', exec .generateA s = .next a ∧ exec .generateA s' = .next a' ∧
      runSteps a.uq.length a = .next t ∧ runSteps a'.uq.length a' = .next t' ∧ t.k = t'.k ∧ t.v = t'.v ∧
      ∀ j < s.args.outLen.toNat, ∃ b, Memory.byte? t.dmem (s.args.outAddr.toNat + j) = some b ∧
        Memory.byte? t'.dmem (s'.args.outAddr.toNat + j) = some b

/-- A second ZEROIZE leaves the state of the first; after one, RESEED and GENERATE in both forms are rejected
with NOT_INSTANTIATED. The held count is the model's own field and is left out (log entry 4).
Rests on 44_control.md R151. -/
def Obligations.ZeroizeIsIdempotentAndEndsTheGenerator : Prop :=
  ∀ s : State, s.status.busy = false → s.events = [] →
    ∃ a t b u, exec .zeroize s = .next a ∧ runSteps 3 a = .next t ∧ exec .zeroize t = .next b ∧
      runSteps 3 b = .next u ∧ { u with heldCount := t.heldCount } = t ∧
      ∀ c ∈ [Instr.reseed, .reseedA, .generate, .generateA], exec c t = .next (rejected .notInstantiated t)

/-- With RESEED_LIMIT enabled and COUNT over it, both forms of GENERATE are rejected, and a completed RESEED does not
help, since it leaves COUNT alone; a completed INSTANTIATE sets COUNT to 1. Rests on 60_exceptions.md R175 and
42_reseed.md R123. -/
def Obligations.ReseedDoesNotClearReseedRequired : Prop :=
  ∀ s : State, s.status.busy = false → s.cfg.reseedLimit ≠ 0 → s.count.toNat > s.cfg.reseedLimit.toNat →
    (∀ c ∈ [Instr.generate, .generateA], ∃ e, e ≠ .noError ∧ exec c s = .next (rejected e s)) ∧
    (∀ m c, c ∈ [Instr.generate, .generateA] →
      ∃ e, e ≠ .noError ∧ exec c (fnReseed m s) = .next (rejected e (fnReseed m s)) ∧
        exec c (fnReseedA m s) = .next (rejected e (fnReseedA m s))) ∧
    (s.inst = true → s.args.outRegion.inRange s.cfg.dmemSize = true → s.count.toNat < 2 ^ 64 - 1 →
      check .generate s = .reseedRequired) ∧
    ∀ m, (fnInstantiate m s).count = 1

/-! Reset -/

/-- R190: reset, at any time, whatever runs. The values of LATCH and of the model's own fields are left out: the spec
gives none (log entry 10). -/
def Obligations.ResetSetsEveryPieceOfState : Prop :=
  ∀ (s : State) (es : List Event), s.events = .reset :: es →
    ∃ t, step s = .next t ∧ t.cfg = s.cfg ∧ t.events = es ∧
      t.k = List.replicate s.cfg.hashLen 0x00 ∧ t.v = List.replicate s.cfg.hashLen 0x00 ∧
      t.count = 0 ∧ countReadout t = 0 ∧ t.inst = false ∧ (∀ x, t.args.get x = 0) ∧
      t.status = { busy := false, done := false, err := false, errcode := .noError, ovr := false } ∧
      statusWord t = 0 ∧ t.uq = [] ∧ ∀ a, Memory.byte? t.dmem a = none

/-- R46 on the state after reset: K and V zero and L bytes long, COUNT, INST, the argument registers and STATUS zero, UQ
empty, DMEM unwritten, the configuration registers at their constants. LATCH is left out: the spec gives no value. -/
def Obligations.ResetStateIsAsListed : Prop :=
  State.reset.k = List.replicate 32 0x00 ∧ State.reset.v = List.replicate 32 0x00 ∧ State.reset.count = 0 ∧
  State.reset.inst = false ∧ (∀ x, State.reset.args.get x = 0) ∧ statusWord State.reset = 0x00000000 ∧
  State.reset.uq = [] ∧ (∀ a, Memory.byte? State.reset.dmem a = none) ∧
  regValue .id State.reset = 0x48440100 ∧ regValue .param State.reset = 0x00004020 ∧
  regValue .dmemSizeR State.reset = 4096 ∧ regValue .reseedLimitR State.reset = 0 ∧
  regValue .maxGenR State.reset = 0

/-! Host programs -/

/-- WAIT, from its first line, leaves the loop exactly when STATUS shows BUSY = 0 and DONE = 1, with STATUS in h0, and
changes nothing of the block but the answer on the bus. Rests on 30_encoding.md R85. -/
def Obligations.WaitLeavesTheLoopExactlyWhenDone : Prop :=
  ∀ (b : State) (regs : List (Nat × Word)) (rest : List HostOp),
    ∃ p, System.run [.host 0, .host 0, .host 0]
        { block := b, hosts := [{ prog := waitLines 0 ++ rest, pc := 0, regs := regs }] } =
          .next { block := answered (statusWord b) b, hosts := [p] } ∧
      p.prog = waitLines 0 ++ rest ∧ p.reg 0 = statusWord b ∧
      p.pc = if b.status.busy = false ∧ b.status.done = true then 3 else 0

/-- R200: a host that runs WAIT after reset, with no command written, waits for ever: under every schedule of host and
sequencer turns it is still in the loop. -/
def Obligations.WaitAfterResetNeverEnds : Prop :=
  ∀ (cfg : Config) (ts : List Turn), .reset ∉ ts →
    ∃ y p, System.run ts
        { block := State.resetWith cfg, hosts := [{ prog := waitLines 0, pc := 0, regs := [] }] } = .next y ∧
      y.hosts = [p] ∧ p.pc < 3 ∧ y.block.status.done = false

/-- A CMD write while BUSY = 1 is lost, and the running command's completion then shows DONE = 1 with ERR = 0,
with only OVR to tell; K, V, COUNT, INST and DMEM are those that the running command alone leaves.
Rests on 70_reset_and_hazards.md R196. -/
def Obligations.DroppedCommandIsLostAndDoneMisleads : Prop :=
  ∀ (s : State) (w : Word), GoodState s → s.status.busy = true → InputsWritten s → s.events = [] →
    ∃ t u, runSteps (1 + s.uq.length) { s with events := [.host (.write .w32 (s.cfg.regBase + 0x020) w)] } = .next t ∧
      runSteps s.uq.length s = .next u ∧
      t.status = { busy := false, done := true, err := false, errcode := .noError, ovr := true } ∧
      t.k = u.k ∧ t.v = u.v ∧ t.count = u.count ∧ t.inst = u.inst ∧ t.dmem = u.dmem

/-! The command register -/

/-- R39: a read of CMD returns 0 and has no effect, BUSY or not. A host write of a word to CMD offers it as a command:
dropped while BUSY = 1, rejected when no command has that word, else handled by the meaning of its command. Nothing of
the written word stays in CMD: a read after the write returns 0, and the effect of a drop and of such a rejection is
the same for every word. The opcode and the A bit of an accepted word are in LATCH. The data of the answer to the
write are left open (log entry 7). -/
def Obligations.CmdOffersItsWordAndReadsZero : Prop :=
  (∀ s : State, hostAccess (.read .w32 (s.cfg.regBase + 0x020)) s = .next (answered 0 s)) ∧
  ∀ (s : State) (w : Word),
    (s.status.busy = true → Took (hostAccess (.write .w32 (s.cfg.regBase + 0x020) w) s) (overrun s)) ∧
    (s.status.busy = false → ∀ why, decode w = .illegal why →
      Took (hostAccess (.write .w32 (s.cfg.regBase + 0x020) w) s) (rejected .illegalCmd s)) ∧
    (∀ c, decode w = .command c →
      ∃ d, hostAccess (.write .w32 (s.cfg.regBase + 0x020) w) s = exec c (answered d s)) ∧
    ∃ t, hostAccess (.write .w32 (s.cfg.regBase + 0x020) w) s = .next t ∧
      hostAccess (.read .w32 (s.cfg.regBase + 0x020)) t = .next (answered 0 t) ∧
      (s.status.busy = false → t.status.busy = true → t.latch.opc = w.extractLsb' 0 4 ∧ t.latch.a = w.getLsbD 4)
end

