-- ==== Sys2Proof/Laws/Memory.lean ====
section
/-! SUPPORT. The laws of memory: read after write, that every operation keeps the canonical form, and what MemRead
and MemWrite do byte by byte (spec/20_memory.md R55). -/

namespace Sys2Proof.Machine

/-! Cells -/

theorem cellGet?_cellSet {β : Type} (a x : Nat) (b : β) (m : List (Nat × β)) :
    cellGet? x (cellSet a b m) = if a = x then some b else cellGet? x m := by
  induction m with
  | nil => rfl
  | cons y m ih =>
    obtain ⟨z, c⟩ := y
    simp only [cellSet]
    split
    · rfl
    · split
      · subst a
        simp only [cellGet?]
        split <;> rfl
      · simp only [cellGet?, ih]
        split
        · rw [if_neg (by omega)]
        · rfl

theorem mem_cellSet {β : Type} {a : Nat} {b : β} {m : List (Nat × β)} {x : Nat × β} (h : x ∈ cellSet a b m) :
    x = (a, b) ∨ x ∈ m := by
  induction m with
  | nil => exact .inl (List.mem_singleton.mp h)
  | cons y m ih =>
    obtain ⟨z, c⟩ := y
    simp only [cellSet] at h
    split at h
    · exact List.mem_cons.mp h
    · split at h
      · exact (List.mem_cons.mp h).imp id (List.mem_cons_of_mem _)
      · rcases List.mem_cons.mp h with h | h
        · exact .inr (h ▸ List.mem_cons_self)
        · exact (ih h).imp id (List.mem_cons_of_mem _)

theorem cellSet_wf {a : Nat} {b : Byte} {m : Memory} (h : Memory.wf m) : Memory.wf (cellSet a b m) := by
  induction m with
  | nil => exact List.pairwise_singleton _ _
  | cons y m ih =>
    obtain ⟨z, c⟩ := y
    obtain ⟨hz, hm⟩ := List.pairwise_cons.mp h
    simp only [cellSet]
    split
    · refine List.pairwise_cons.mpr ⟨fun x hx => ?_, h⟩
      rcases List.mem_cons.mp hx with rfl | hx
      · assumption
      · exact Nat.lt_trans ‹a < z› (hz x hx)
    · split
      · subst a
        exact List.pairwise_cons.mpr ⟨hz, hm⟩
      · refine List.pairwise_cons.mpr ⟨fun x hx => ?_, ih hm⟩
        rcases mem_cellSet hx with rfl | hx
        · show z < a
          omega
        · exact hz x hx

/-! Memory by bytes -/

@[simp] theorem byte?_nil (x : Nat) : Memory.byte? [] x = none := rfl

theorem byte?_cellSet (a x : Nat) (b : Byte) (m : Memory) :
    Memory.byte? (cellSet a b m) x = if a = x then some b else Memory.byte? m x :=
  cellGet?_cellSet a x b m

/-- An address at or past every listed one is unwritten. -/
theorem byte?_of_bounded {m : Memory} {n : Nat} (h : ∀ x ∈ m, x.1 < n) {a : Nat} (ha : n ≤ a) :
    Memory.byte? m a = none := by
  induction m with
  | nil => rfl
  | cons y m ih =>
    have hy := h y List.mem_cons_self
    have : Memory.byte? (y :: m) a = if y.1 = a then some y.2 else Memory.byte? m a := rfl
    rw [this, if_neg (by omega)]
    exact ih fun x hx => h x (List.mem_cons_of_mem _ hx)

/-- MemWrite, byte by byte: inside the string the string's byte, elsewhere the old one. -/
theorem byte?_memWrite (bs : ByteString) (a x : Nat) (m : Memory) :
    Memory.byte? (memWrite a bs m) x =
      if a ≤ x ∧ x < a + bs.length then bs[x - a]? else Memory.byte? m x := by
  induction bs generalizing a m with
  | nil => rw [if_neg (by simp only [List.length_nil]; omega)]; rfl
  | cons b bs ih =>
    rw [memWrite, ih, byte?_cellSet]
    by_cases h1 : a + 1 ≤ x ∧ x < a + 1 + bs.length
    · rw [if_pos h1, if_pos ⟨by omega, by rw [List.length_cons]; omega⟩,
        show x - a = (x - (a + 1)) + 1 by omega, List.getElem?_cons_succ]
    · rw [if_neg h1]
      by_cases h2 : a = x
      · subst h2
        rw [if_pos rfl, if_pos ⟨Nat.le_refl _, by rw [List.length_cons]; omega⟩, Nat.sub_self]
        rfl
      · rw [if_neg h2, if_neg (by rw [List.length_cons]; omega)]

theorem memWrite_wf {m : Memory} (h : Memory.wf m) (a : Nat) (bs : ByteString) : Memory.wf (memWrite a bs m) := by
  induction bs generalizing a m with
  | nil => exact h
  | cons b bs ih => exact ih (cellSet_wf h) (a + 1)

theorem memWrite_bounded {m : Memory} {n : Nat} (h : ∀ x ∈ m, x.1 < n) {a : Nat} {bs : ByteString}
    (ha : bs.length = 0 ∨ a + bs.length ≤ n) : ∀ x ∈ memWrite a bs m, x.1 < n := by
  induction bs generalizing a m with
  | nil => exact h
  | cons b bs ih =>
    rw [List.length_cons] at ha
    refine ih (fun x hx => ?_) (.inr (by omega))
    rcases mem_cellSet hx with rfl | hx
    · show a < n
      omega
    · exact h x hx

/-- Writing two strings one after the other is writing their concatenation. -/
theorem memWrite_append (xs ys : ByteString) (a : Nat) (m : Memory) :
    memWrite a (xs ++ ys) m = memWrite (a + xs.length) ys (memWrite a xs m) := by
  induction xs generalizing a m with
  | nil => rfl
  | cons b xs ih =>
    simp only [List.cons_append, memWrite, List.length_cons]
    rw [ih, show a + 1 + xs.length = a + (xs.length + 1) by omega]

/-- MemRead answers exactly the bytes it reads, byte i from address a + i. -/
theorem memRead_ok_iff (a n : Nat) (m : Memory) (bs : ByteString) :
    memRead a n m = .ok bs ↔ bs.length = n ∧ ∀ i < n, Memory.byte? m (a + i) = bs[i]? := by
  induction n generalizing a bs with
  | zero =>
    simp only [memRead, Except.ok.injEq, Nat.not_lt_zero, false_implies, implies_true, and_true]
    exact ⟨fun h => h ▸ rfl, fun h => (List.length_eq_zero_iff.mp h).symm⟩
  | succ n ih =>
    simp only [memRead]
    cases hb : Memory.byte? m a with
    | none =>
      refine ⟨nofun, fun ⟨hl, h⟩ => ?_⟩
      have h0 := h 0 (by omega)
      rw [Nat.add_zero, hb, List.getElem?_eq_getElem (by omega)] at h0
      exact nomatch h0
    | some b =>
      cases hr : memRead (a + 1) n m with
      | error f =>
        refine ⟨nofun, fun ⟨hl, h⟩ => ?_⟩
        have : memRead (a + 1) n m = .ok bs.tail := (ih (a + 1) bs.tail).mpr
          ⟨by rw [List.length_tail]; omega, fun i hi => by
            rw [show a + 1 + i = a + (i + 1) by omega, h (i + 1) (by omega), List.getElem?_tail]⟩
        rw [hr] at this
        exact nomatch this
      | ok cs =>
        obtain ⟨hl, hcs⟩ := (ih (a + 1) cs).mp hr
        simp only [Except.ok.injEq]
        constructor
        · rintro rfl
          refine ⟨by rw [List.length_cons, hl], fun i hi => ?_⟩
          cases i with
          | zero => exact hb
          | succ i => rw [show a + (i + 1) = a + 1 + i by omega, hcs i (by omega), List.getElem?_cons_succ]
        · rintro ⟨hl', h⟩
          refine List.ext_getElem? fun i => ?_
          by_cases hi : i < n + 1
          · cases i with
            | zero => rw [← h 0 hi]; exact hb.symm
            | succ i =>
              rw [← h (i + 1) hi, List.getElem?_cons_succ, ← hcs i (by omega), show a + (i + 1) = a + 1 + i by omega]
          · rw [List.getElem?_eq_none (by rw [List.length_cons]; omega), List.getElem?_eq_none (by omega)]

/-- MemRead faults only on an unwritten byte of the string it reads. -/
theorem memRead_error {a n : Nat} {m : Memory} {f : Fault} (h : memRead a n m = .error f) :
    ∃ x, f = .unwrittenByte x ∧ a ≤ x ∧ x < a + n ∧ Memory.byte? m x = none := by
  induction n generalizing a with
  | zero => exact nomatch h
  | succ n ih =>
    simp only [memRead] at h
    split at h
    · exact ⟨a, (Except.error.inj h).symm, Nat.le_refl _, by omega, ‹_›⟩
    · split at h
      · rename_i hr
        obtain ⟨x, hf, h1, h2, h3⟩ := ih (hr.trans h)
        exact ⟨x, hf, by omega, by omega, h3⟩
      · exact nomatch h

/-- MemRead succeeds where every byte is written. -/
theorem memRead_ok_of_written {a n : Nat} {m : Memory} (h : ∀ i < n, Memory.byte? m (a + i) ≠ none) :
    ∃ bs, memRead a n m = .ok bs := by
  cases hr : memRead a n m with
  | ok bs => exact ⟨bs, rfl⟩
  | error f =>
    obtain ⟨x, -, h1, h2, h3⟩ := memRead_error hr
    exact absurd h3 (by have := h (x - a) (by omega); rwa [Nat.add_sub_cancel' h1] at this)

/-- MemRead of a range with an unwritten byte stops there or earlier. -/
theorem memRead_of_unwritten {a n j : Nat} {m : Memory} (hj : j < n) (h : Memory.byte? m (a + j) = none) :
    ∃ x, memRead a n m = .error (.unwrittenByte x) ∧ a ≤ x ∧ x ≤ a + j ∧ Memory.byte? m x = none := by
  induction n generalizing a j with
  | zero => exact absurd hj (Nat.not_lt_zero _)
  | succ n ih =>
    simp only [memRead]
    cases hb : Memory.byte? m a with
    | none => exact ⟨a, rfl, Nat.le_refl _, Nat.le_add_right _ _, hb⟩
    | some b =>
      cases j with
      | zero => exact nomatch h.symm.trans hb
      | succ j =>
        obtain ⟨x, h1, h2, h3, h4⟩ := ih (Nat.lt_of_succ_lt_succ hj) (show Memory.byte? m (a + 1 + j) = none by
          rw [← h, Nat.add_assoc, Nat.add_comm 1])
        exact ⟨x, by simp only [h1], by omega, by omega, h4⟩

/-- MemRead depends only on the bytes it reads. -/
theorem memRead_congr {a n : Nat} {m m' : Memory} (h : ∀ i < n, Memory.byte? m (a + i) = Memory.byte? m' (a + i)) :
    memRead a n m = memRead a n m' := by
  induction n generalizing a with
  | zero => rfl
  | succ n ih =>
    have h0 := h 0 (by omega)
    rw [Nat.add_zero] at h0
    simp only [memRead]
    rw [h0, ih fun i hi => by have := h (i + 1) (by omega); rwa [show a + (i + 1) = a + 1 + i by omega] at this]

/-! The sequencer's guarded accesses -/

/-- What a successful guarded write does. -/
theorem dmemWrite_ok {size a : Nat} {bs : ByteString} {m m' : Memory} (h : dmemWrite size a bs m = .ok m') :
    m' = memWrite a bs m ∧ (bs.length = 0 ∨ a + bs.length ≤ size) := by
  unfold dmemWrite at h
  split at h
  · exact ⟨(Except.ok.inj h).symm, ‹_›⟩
  · exact nomatch h

theorem dmemWrite_of_le {size a : Nat} {bs : ByteString} (m : Memory) (h : bs.length = 0 ∨ a + bs.length ≤ size) :
    dmemWrite size a bs m = .ok (memWrite a bs m) := if_pos h

theorem dmemRead_of_inRange {size : Nat} {r : Region} (m : Memory) (h : r.inRange size = true) :
    dmemRead size r.addr r.len m = memRead r.addr r.len m := if_pos (of_decide_eq_true h)

/-! Bytes of words -/

@[simp] theorem leBytes_length (n : Nat) (w : Word) : (leBytes n w).length = n := by
  induction n generalizing w with
  | zero => rfl
  | succ n ih => rw [leBytes, List.length_cons, ih]

/-- Byte i of a word's little-endian bytes (R54). -/
theorem leBytes_getElem? {n : Nat} (w : Word) {i : Nat} (h : i < n) :
    (leBytes n w)[i]? = some ((w >>> (8 * i)).setWidth 8) := by
  induction n generalizing w i with
  | zero => omega
  | succ n ih =>
    cases i with
    | zero => rfl
    | succ i =>
      rw [leBytes, List.getElem?_cons_succ, ih _ (by omega), ← BitVec.shiftRight_add, show 8 + 8 * i = 8 * (i + 1) by omega]

/-- Byte i of the word that up to four bytes make up (R54). -/
theorem leWord_byte {bs : ByteString} (h : bs.length ≤ 4) {i : Nat} (hi : i < bs.length) :
    bs[i]? = some ((leWord bs >>> (8 * i)).setWidth 8) := by
  induction bs generalizing i with
  | nil => exact absurd hi (Nat.not_lt_zero _)
  | cons b bs ih =>
    rw [List.length_cons] at h hi
    cases i with
    | zero =>
      rw [List.getElem?_cons_zero]
      refine congrArg some (BitVec.eq_of_getLsbD_eq fun j hj => ?_)
      simp [leWord, hj]
    | succ i =>
      rw [List.getElem?_cons_succ, ih (by omega) (by omega)]
      refine congrArg some (BitVec.eq_of_getLsbD_eq fun j hj => ?_)
      simp only [leWord, BitVec.getLsbD_setWidth, BitVec.getLsbD_ushiftRight, BitVec.getLsbD_or, BitVec.getLsbD_shiftLeft]
      have hb : b.getLsbD (8 * (i + 1) + j) = false := BitVec.getLsbD_of_ge _ _ (by omega)
      simp [hj, hb, show 8 * (i + 1) + j < 32 by omega, show ¬(8 * (i + 1) + j < 8) by omega,
        show 8 * (i + 1) + j - 8 = 8 * i + j by omega]

end Sys2Proof.Machine
end

