-- ==== Sys2Proof/Laws/State.lean ====
section
/-! SUPPORT. One lemma per field per update of State, true by rfl, so that no later proof unfolds a record
update. -/

namespace Sys2Proof.Machine

/-! markOverrun -/

@[simp] theorem markOverrun_cfg (s : State) : (markOverrun s).cfg = s.cfg := rfl
@[simp] theorem markOverrun_k (s : State) : (markOverrun s).k = s.k := rfl
@[simp] theorem markOverrun_v (s : State) : (markOverrun s).v = s.v := rfl
@[simp] theorem markOverrun_count (s : State) : (markOverrun s).count = s.count := rfl
@[simp] theorem markOverrun_inst (s : State) : (markOverrun s).inst = s.inst := rfl
@[simp] theorem markOverrun_args (s : State) : (markOverrun s).args = s.args := rfl
@[simp] theorem markOverrun_busy (s : State) : (markOverrun s).status.busy = s.status.busy := rfl
@[simp] theorem markOverrun_done (s : State) : (markOverrun s).status.done = s.status.done := rfl
@[simp] theorem markOverrun_err (s : State) : (markOverrun s).status.err = s.status.err := rfl
@[simp] theorem markOverrun_errcode (s : State) : (markOverrun s).status.errcode = s.status.errcode := rfl
@[simp] theorem markOverrun_ovr (s : State) : (markOverrun s).status.ovr = true := rfl
@[simp] theorem markOverrun_latch (s : State) : (markOverrun s).latch = s.latch := rfl
@[simp] theorem markOverrun_uq (s : State) : (markOverrun s).uq = s.uq := rfl
@[simp] theorem markOverrun_dmem (s : State) : (markOverrun s).dmem = s.dmem := rfl
@[simp] theorem markOverrun_heldCount (s : State) : (markOverrun s).heldCount = s.heldCount := rfl
@[simp] theorem markOverrun_events (s : State) : (markOverrun s).events = s.events := rfl
@[simp] theorem markOverrun_resp (s : State) : (markOverrun s).resp = s.resp := rfl

/-! reject -/

@[simp] theorem reject_cfg (e : ErrCode) (s : State) : (reject e s).cfg = s.cfg := rfl
@[simp] theorem reject_k (e : ErrCode) (s : State) : (reject e s).k = s.k := rfl
@[simp] theorem reject_v (e : ErrCode) (s : State) : (reject e s).v = s.v := rfl
@[simp] theorem reject_count (e : ErrCode) (s : State) : (reject e s).count = s.count := rfl
@[simp] theorem reject_inst (e : ErrCode) (s : State) : (reject e s).inst = s.inst := rfl
@[simp] theorem reject_args (e : ErrCode) (s : State) : (reject e s).args = s.args := rfl
@[simp] theorem reject_busy (e : ErrCode) (s : State) : (reject e s).status.busy = s.status.busy := rfl
@[simp] theorem reject_done (e : ErrCode) (s : State) : (reject e s).status.done = true := rfl
@[simp] theorem reject_err (e : ErrCode) (s : State) : (reject e s).status.err = true := rfl
@[simp] theorem reject_errcode (e : ErrCode) (s : State) : (reject e s).status.errcode = e := rfl
@[simp] theorem reject_ovr (e : ErrCode) (s : State) : (reject e s).status.ovr = s.status.ovr := rfl
@[simp] theorem reject_latch (e : ErrCode) (s : State) : (reject e s).latch = s.latch := rfl
@[simp] theorem reject_uq (e : ErrCode) (s : State) : (reject e s).uq = s.uq := rfl
@[simp] theorem reject_dmem (e : ErrCode) (s : State) : (reject e s).dmem = s.dmem := rfl
@[simp] theorem reject_heldCount (e : ErrCode) (s : State) : (reject e s).heldCount = s.heldCount := rfl
@[simp] theorem reject_events (e : ErrCode) (s : State) : (reject e s).events = s.events := rfl
@[simp] theorem reject_resp (e : ErrCode) (s : State) : (reject e s).resp = s.resp := rfl

/-! complete -/

@[simp] theorem complete_cfg (s : State) : (complete s).cfg = s.cfg := rfl
@[simp] theorem complete_k (s : State) : (complete s).k = s.k := rfl
@[simp] theorem complete_v (s : State) : (complete s).v = s.v := rfl
@[simp] theorem complete_count (s : State) : (complete s).count = s.count := rfl
@[simp] theorem complete_inst (s : State) : (complete s).inst = s.inst := rfl
@[simp] theorem complete_args (s : State) : (complete s).args = s.args := rfl
@[simp] theorem complete_busy (s : State) : (complete s).status.busy = false := rfl
@[simp] theorem complete_done (s : State) : (complete s).status.done = true := rfl
@[simp] theorem complete_err (s : State) : (complete s).status.err = s.status.err := rfl
@[simp] theorem complete_errcode (s : State) : (complete s).status.errcode = s.status.errcode := rfl
@[simp] theorem complete_ovr (s : State) : (complete s).status.ovr = s.status.ovr := rfl
@[simp] theorem complete_latch (s : State) : (complete s).latch = s.latch := rfl
@[simp] theorem complete_uq (s : State) : (complete s).uq = s.uq := rfl
@[simp] theorem complete_dmem (s : State) : (complete s).dmem = s.dmem := rfl
@[simp] theorem complete_heldCount (s : State) : (complete s).heldCount = s.heldCount := rfl
@[simp] theorem complete_events (s : State) : (complete s).events = s.events := rfl
@[simp] theorem complete_resp (s : State) : (complete s).resp = s.resp := rfl

/-! accept -/

@[simp] theorem accept_cfg (c : Instr) (p : List MicroOp) (s : State) : (accept c p s).cfg = s.cfg := rfl
@[simp] theorem accept_k (c : Instr) (p : List MicroOp) (s : State) : (accept c p s).k = s.k := rfl
@[simp] theorem accept_v (c : Instr) (p : List MicroOp) (s : State) : (accept c p s).v = s.v := rfl
@[simp] theorem accept_count (c : Instr) (p : List MicroOp) (s : State) : (accept c p s).count = s.count := rfl
@[simp] theorem accept_inst (c : Instr) (p : List MicroOp) (s : State) : (accept c p s).inst = s.inst := rfl
@[simp] theorem accept_args (c : Instr) (p : List MicroOp) (s : State) : (accept c p s).args = s.args := rfl
@[simp] theorem accept_busy (c : Instr) (p : List MicroOp) (s : State) : (accept c p s).status.busy = true := rfl
@[simp] theorem accept_done (c : Instr) (p : List MicroOp) (s : State) : (accept c p s).status.done = false := rfl
@[simp] theorem accept_err (c : Instr) (p : List MicroOp) (s : State) : (accept c p s).status.err = false := rfl
@[simp] theorem accept_errcode (c : Instr) (p : List MicroOp) (s : State) : (accept c p s).status.errcode = .noError := rfl
@[simp] theorem accept_ovr (c : Instr) (p : List MicroOp) (s : State) : (accept c p s).status.ovr = s.status.ovr := rfl
@[simp] theorem accept_latch (c : Instr) (p : List MicroOp) (s : State) : (accept c p s).latch = { opc := c.opc, a := c.aBit, args := s.args } := rfl
@[simp] theorem accept_uq (c : Instr) (p : List MicroOp) (s : State) : (accept c p s).uq = p := rfl
@[simp] theorem accept_dmem (c : Instr) (p : List MicroOp) (s : State) : (accept c p s).dmem = s.dmem := rfl
@[simp] theorem accept_heldCount (c : Instr) (p : List MicroOp) (s : State) : (accept c p s).heldCount = s.count := rfl
@[simp] theorem accept_events (c : Instr) (p : List MicroOp) (s : State) : (accept c p s).events = s.events := rfl
@[simp] theorem accept_resp (c : Instr) (p : List MicroOp) (s : State) : (accept c p s).resp = s.resp := rfl

/-! respond -/

@[simp] theorem respond_cfg (w : Word) (s : State) : (respond w s).cfg = s.cfg := rfl
@[simp] theorem respond_k (w : Word) (s : State) : (respond w s).k = s.k := rfl
@[simp] theorem respond_v (w : Word) (s : State) : (respond w s).v = s.v := rfl
@[simp] theorem respond_count (w : Word) (s : State) : (respond w s).count = s.count := rfl
@[simp] theorem respond_inst (w : Word) (s : State) : (respond w s).inst = s.inst := rfl
@[simp] theorem respond_args (w : Word) (s : State) : (respond w s).args = s.args := rfl
@[simp] theorem respond_status (w : Word) (s : State) : (respond w s).status = s.status := rfl
@[simp] theorem respond_latch (w : Word) (s : State) : (respond w s).latch = s.latch := rfl
@[simp] theorem respond_uq (w : Word) (s : State) : (respond w s).uq = s.uq := rfl
@[simp] theorem respond_dmem (w : Word) (s : State) : (respond w s).dmem = s.dmem := rfl
@[simp] theorem respond_heldCount (w : Word) (s : State) : (respond w s).heldCount = s.heldCount := rfl
@[simp] theorem respond_events (w : Word) (s : State) : (respond w s).events = s.events := rfl
@[simp] theorem respond_resp (w : Word) (s : State) : (respond w s).resp = some { error := false, data := w } := rfl

/-! busError -/

@[simp] theorem busError_cfg (s : State) : (busError s).cfg = s.cfg := rfl
@[simp] theorem busError_k (s : State) : (busError s).k = s.k := rfl
@[simp] theorem busError_v (s : State) : (busError s).v = s.v := rfl
@[simp] theorem busError_count (s : State) : (busError s).count = s.count := rfl
@[simp] theorem busError_inst (s : State) : (busError s).inst = s.inst := rfl
@[simp] theorem busError_args (s : State) : (busError s).args = s.args := rfl
@[simp] theorem busError_status (s : State) : (busError s).status = s.status := rfl
@[simp] theorem busError_latch (s : State) : (busError s).latch = s.latch := rfl
@[simp] theorem busError_uq (s : State) : (busError s).uq = s.uq := rfl
@[simp] theorem busError_dmem (s : State) : (busError s).dmem = s.dmem := rfl
@[simp] theorem busError_heldCount (s : State) : (busError s).heldCount = s.heldCount := rfl
@[simp] theorem busError_events (s : State) : (busError s).events = s.events := rfl
@[simp] theorem busError_resp (s : State) : (busError s).resp = some { error := true, data := 0 } := rfl

/-! writeArg -/

@[simp] theorem writeArg_cfg (x : ArgReg) (w : Word) (s : State) : (writeArg x w s).cfg = s.cfg := rfl
@[simp] theorem writeArg_k (x : ArgReg) (w : Word) (s : State) : (writeArg x w s).k = s.k := rfl
@[simp] theorem writeArg_v (x : ArgReg) (w : Word) (s : State) : (writeArg x w s).v = s.v := rfl
@[simp] theorem writeArg_count (x : ArgReg) (w : Word) (s : State) : (writeArg x w s).count = s.count := rfl
@[simp] theorem writeArg_inst (x : ArgReg) (w : Word) (s : State) : (writeArg x w s).inst = s.inst := rfl
@[simp] theorem writeArg_args (x : ArgReg) (w : Word) (s : State) : (writeArg x w s).args = s.args.set x w := rfl
@[simp] theorem writeArg_status (x : ArgReg) (w : Word) (s : State) : (writeArg x w s).status = s.status := rfl
@[simp] theorem writeArg_latch (x : ArgReg) (w : Word) (s : State) : (writeArg x w s).latch = s.latch := rfl
@[simp] theorem writeArg_uq (x : ArgReg) (w : Word) (s : State) : (writeArg x w s).uq = s.uq := rfl
@[simp] theorem writeArg_dmem (x : ArgReg) (w : Word) (s : State) : (writeArg x w s).dmem = s.dmem := rfl
@[simp] theorem writeArg_heldCount (x : ArgReg) (w : Word) (s : State) : (writeArg x w s).heldCount = s.heldCount := rfl
@[simp] theorem writeArg_events (x : ArgReg) (w : Word) (s : State) : (writeArg x w s).events = s.events := rfl
@[simp] theorem writeArg_resp (x : ArgReg) (w : Word) (s : State) : (writeArg x w s).resp = s.resp := rfl

/-! microSetKV -/

@[simp] theorem microSetKV_cfg (k v : ByteString) (s : State) : (microSetKV k v s).cfg = s.cfg := rfl
@[simp] theorem microSetKV_k (k v : ByteString) (s : State) : (microSetKV k v s).k = k := rfl
@[simp] theorem microSetKV_v (k v : ByteString) (s : State) : (microSetKV k v s).v = v := rfl
@[simp] theorem microSetKV_count (k v : ByteString) (s : State) : (microSetKV k v s).count = s.count := rfl
@[simp] theorem microSetKV_inst (k v : ByteString) (s : State) : (microSetKV k v s).inst = s.inst := rfl
@[simp] theorem microSetKV_args (k v : ByteString) (s : State) : (microSetKV k v s).args = s.args := rfl
@[simp] theorem microSetKV_status (k v : ByteString) (s : State) : (microSetKV k v s).status = s.status := rfl
@[simp] theorem microSetKV_latch (k v : ByteString) (s : State) : (microSetKV k v s).latch = s.latch := rfl
@[simp] theorem microSetKV_uq (k v : ByteString) (s : State) : (microSetKV k v s).uq = s.uq := rfl
@[simp] theorem microSetKV_dmem (k v : ByteString) (s : State) : (microSetKV k v s).dmem = s.dmem := rfl
@[simp] theorem microSetKV_heldCount (k v : ByteString) (s : State) : (microSetKV k v s).heldCount = s.heldCount := rfl
@[simp] theorem microSetKV_events (k v : ByteString) (s : State) : (microSetKV k v s).events = s.events := rfl
@[simp] theorem microSetKV_resp (k v : ByteString) (s : State) : (microSetKV k v s).resp = s.resp := rfl

/-! microHV -/

@[simp] theorem microHV_cfg (s : State) : (microHV s).cfg = s.cfg := rfl
@[simp] theorem microHV_k (s : State) : (microHV s).k = s.k := rfl
@[simp] theorem microHV_v (s : State) : (microHV s).v = hmac s.cfg s.k s.v := rfl
@[simp] theorem microHV_count (s : State) : (microHV s).count = s.count := rfl
@[simp] theorem microHV_inst (s : State) : (microHV s).inst = s.inst := rfl
@[simp] theorem microHV_args (s : State) : (microHV s).args = s.args := rfl
@[simp] theorem microHV_status (s : State) : (microHV s).status = s.status := rfl
@[simp] theorem microHV_latch (s : State) : (microHV s).latch = s.latch := rfl
@[simp] theorem microHV_uq (s : State) : (microHV s).uq = s.uq := rfl
@[simp] theorem microHV_dmem (s : State) : (microHV s).dmem = s.dmem := rfl
@[simp] theorem microHV_heldCount (s : State) : (microHV s).heldCount = s.heldCount := rfl
@[simp] theorem microHV_events (s : State) : (microHV s).events = s.events := rfl
@[simp] theorem microHV_resp (s : State) : (microHV s).resp = s.resp := rfl

/-! microSetCnt -/

@[simp] theorem microSetCnt_cfg (c : Count) (s : State) : (microSetCnt c s).cfg = s.cfg := rfl
@[simp] theorem microSetCnt_k (c : Count) (s : State) : (microSetCnt c s).k = s.k := rfl
@[simp] theorem microSetCnt_v (c : Count) (s : State) : (microSetCnt c s).v = s.v := rfl
@[simp] theorem microSetCnt_count (c : Count) (s : State) : (microSetCnt c s).count = c := rfl
@[simp] theorem microSetCnt_inst (c : Count) (s : State) : (microSetCnt c s).inst = s.inst := rfl
@[simp] theorem microSetCnt_args (c : Count) (s : State) : (microSetCnt c s).args = s.args := rfl
@[simp] theorem microSetCnt_status (c : Count) (s : State) : (microSetCnt c s).status = s.status := rfl
@[simp] theorem microSetCnt_latch (c : Count) (s : State) : (microSetCnt c s).latch = s.latch := rfl
@[simp] theorem microSetCnt_uq (c : Count) (s : State) : (microSetCnt c s).uq = s.uq := rfl
@[simp] theorem microSetCnt_dmem (c : Count) (s : State) : (microSetCnt c s).dmem = s.dmem := rfl
@[simp] theorem microSetCnt_heldCount (c : Count) (s : State) : (microSetCnt c s).heldCount = s.heldCount := rfl
@[simp] theorem microSetCnt_events (c : Count) (s : State) : (microSetCnt c s).events = s.events := rfl
@[simp] theorem microSetCnt_resp (c : Count) (s : State) : (microSetCnt c s).resp = s.resp := rfl

/-! microIncCnt -/

@[simp] theorem microIncCnt_cfg (s : State) : (microIncCnt s).cfg = s.cfg := rfl
@[simp] theorem microIncCnt_k (s : State) : (microIncCnt s).k = s.k := rfl
@[simp] theorem microIncCnt_v (s : State) : (microIncCnt s).v = s.v := rfl
@[simp] theorem microIncCnt_count (s : State) : (microIncCnt s).count = s.count + 1 := rfl
@[simp] theorem microIncCnt_inst (s : State) : (microIncCnt s).inst = s.inst := rfl
@[simp] theorem microIncCnt_args (s : State) : (microIncCnt s).args = s.args := rfl
@[simp] theorem microIncCnt_status (s : State) : (microIncCnt s).status = s.status := rfl
@[simp] theorem microIncCnt_latch (s : State) : (microIncCnt s).latch = s.latch := rfl
@[simp] theorem microIncCnt_uq (s : State) : (microIncCnt s).uq = s.uq := rfl
@[simp] theorem microIncCnt_dmem (s : State) : (microIncCnt s).dmem = s.dmem := rfl
@[simp] theorem microIncCnt_heldCount (s : State) : (microIncCnt s).heldCount = s.heldCount := rfl
@[simp] theorem microIncCnt_events (s : State) : (microIncCnt s).events = s.events := rfl
@[simp] theorem microIncCnt_resp (s : State) : (microIncCnt s).resp = s.resp := rfl

/-! microSetInst -/

@[simp] theorem microSetInst_cfg (b : Bool) (s : State) : (microSetInst b s).cfg = s.cfg := rfl
@[simp] theorem microSetInst_k (b : Bool) (s : State) : (microSetInst b s).k = s.k := rfl
@[simp] theorem microSetInst_v (b : Bool) (s : State) : (microSetInst b s).v = s.v := rfl
@[simp] theorem microSetInst_count (b : Bool) (s : State) : (microSetInst b s).count = s.count := rfl
@[simp] theorem microSetInst_inst (b : Bool) (s : State) : (microSetInst b s).inst = b := rfl
@[simp] theorem microSetInst_args (b : Bool) (s : State) : (microSetInst b s).args = s.args := rfl
@[simp] theorem microSetInst_status (b : Bool) (s : State) : (microSetInst b s).status = s.status := rfl
@[simp] theorem microSetInst_latch (b : Bool) (s : State) : (microSetInst b s).latch = s.latch := rfl
@[simp] theorem microSetInst_uq (b : Bool) (s : State) : (microSetInst b s).uq = s.uq := rfl
@[simp] theorem microSetInst_dmem (b : Bool) (s : State) : (microSetInst b s).dmem = s.dmem := rfl
@[simp] theorem microSetInst_heldCount (b : Bool) (s : State) : (microSetInst b s).heldCount = s.heldCount := rfl
@[simp] theorem microSetInst_events (b : Bool) (s : State) : (microSetInst b s).events = s.events := rfl
@[simp] theorem microSetInst_resp (b : Bool) (s : State) : (microSetInst b s).resp = s.resp := rfl

/-! Reading back an argument register -/

@[simp] theorem Args.get_set_same (r : Args) (x : ArgReg) (w : Word) : (r.set x w).get x = w := by
  cases x <;> rfl

theorem Args.get_set_other (r : Args) (w : Word) {x y : ArgReg} (h : y ≠ x) : (r.set x w).get y = r.get y := by
  cases x <;> cases y <;> first | rfl | exact absurd rfl h

/-! What UQ taking its tail leaves alone -/

@[simp] theorem advance_cfg (rest : List MicroOp) (s : State) : (advance rest s).cfg = s.cfg := by
  cases rest <;> rfl
@[simp] theorem advance_k (rest : List MicroOp) (s : State) : (advance rest s).k = s.k := by
  cases rest <;> rfl
@[simp] theorem advance_v (rest : List MicroOp) (s : State) : (advance rest s).v = s.v := by
  cases rest <;> rfl
@[simp] theorem advance_count (rest : List MicroOp) (s : State) : (advance rest s).count = s.count := by
  cases rest <;> rfl
@[simp] theorem advance_inst (rest : List MicroOp) (s : State) : (advance rest s).inst = s.inst := by
  cases rest <;> rfl
@[simp] theorem advance_args (rest : List MicroOp) (s : State) : (advance rest s).args = s.args := by
  cases rest <;> rfl
@[simp] theorem advance_latch (rest : List MicroOp) (s : State) : (advance rest s).latch = s.latch := by
  cases rest <;> rfl
@[simp] theorem advance_uq (rest : List MicroOp) (s : State) : (advance rest s).uq = rest := by
  cases rest <;> rfl
@[simp] theorem advance_dmem (rest : List MicroOp) (s : State) : (advance rest s).dmem = s.dmem := by
  cases rest <;> rfl
@[simp] theorem advance_heldCount (rest : List MicroOp) (s : State) : (advance rest s).heldCount = s.heldCount := by
  cases rest <;> rfl
@[simp] theorem advance_events (rest : List MicroOp) (s : State) : (advance rest s).events = s.events := by
  cases rest <;> rfl
@[simp] theorem advance_resp (rest : List MicroOp) (s : State) : (advance rest s).resp = s.resp := by
  cases rest <;> rfl
@[simp] theorem advance_err (rest : List MicroOp) (s : State) : (advance rest s).status.err = s.status.err := by
  cases rest <;> rfl
@[simp] theorem advance_errcode (rest : List MicroOp) (s : State) : (advance rest s).status.errcode = s.status.errcode := by
  cases rest <;> rfl
@[simp] theorem advance_ovr (rest : List MicroOp) (s : State) : (advance rest s).status.ovr = s.status.ovr := by
  cases rest <;> rfl
@[simp] theorem advance_nil_busy (s : State) : (advance [] s).status.busy = false := rfl
@[simp] theorem advance_nil_done (s : State) : (advance [] s).status.done = true := rfl
@[simp] theorem advance_cons_status (op : MicroOp) (rest : List MicroOp) (s : State) :
    (advance (op :: rest) s).status = s.status := rfl

/-! A write of STATUS touches OVR only -/

@[simp] theorem writeStatus_cfg (w : Word) (s : State) : (writeStatus w s).cfg = s.cfg := by
  unfold writeStatus; split <;> rfl
@[simp] theorem writeStatus_k (w : Word) (s : State) : (writeStatus w s).k = s.k := by
  unfold writeStatus; split <;> rfl
@[simp] theorem writeStatus_v (w : Word) (s : State) : (writeStatus w s).v = s.v := by
  unfold writeStatus; split <;> rfl
@[simp] theorem writeStatus_count (w : Word) (s : State) : (writeStatus w s).count = s.count := by
  unfold writeStatus; split <;> rfl
@[simp] theorem writeStatus_inst (w : Word) (s : State) : (writeStatus w s).inst = s.inst := by
  unfold writeStatus; split <;> rfl
@[simp] theorem writeStatus_args (w : Word) (s : State) : (writeStatus w s).args = s.args := by
  unfold writeStatus; split <;> rfl
@[simp] theorem writeStatus_latch (w : Word) (s : State) : (writeStatus w s).latch = s.latch := by
  unfold writeStatus; split <;> rfl
@[simp] theorem writeStatus_uq (w : Word) (s : State) : (writeStatus w s).uq = s.uq := by
  unfold writeStatus; split <;> rfl
@[simp] theorem writeStatus_dmem (w : Word) (s : State) : (writeStatus w s).dmem = s.dmem := by
  unfold writeStatus; split <;> rfl
@[simp] theorem writeStatus_heldCount (w : Word) (s : State) : (writeStatus w s).heldCount = s.heldCount := by
  unfold writeStatus; split <;> rfl
@[simp] theorem writeStatus_events (w : Word) (s : State) : (writeStatus w s).events = s.events := by
  unfold writeStatus; split <;> rfl
@[simp] theorem writeStatus_resp (w : Word) (s : State) : (writeStatus w s).resp = s.resp := by
  unfold writeStatus; split <;> rfl
@[simp] theorem writeStatus_busy (w : Word) (s : State) : (writeStatus w s).status.busy = s.status.busy := by
  unfold writeStatus; split <;> rfl
@[simp] theorem writeStatus_done (w : Word) (s : State) : (writeStatus w s).status.done = s.status.done := by
  unfold writeStatus; split <;> rfl
@[simp] theorem writeStatus_err (w : Word) (s : State) : (writeStatus w s).status.err = s.status.err := by
  unfold writeStatus; split <;> rfl
@[simp] theorem writeStatus_errcode (w : Word) (s : State) : (writeStatus w s).status.errcode = s.status.errcode := by
  unfold writeStatus; split <;> rfl

end Sys2Proof.Machine
end

