-- ==== Sys2Proof/Laws/Ops.lean ====
section
/-! SUPPORT. What each shared operation can do, said once: the tag function, offering a command, and the order of
the checks (spec/60_exceptions.md R165, R168). -/

namespace Sys2Proof.Machine

/-- A tag is L bytes long (R7). -/
@[simp] theorem hmac_length (cfg : Config) (key msg : ByteString) : (hmac cfg key msg).length = cfg.hashLen :=
  Vector.length_toList

/-- The three things that happen to an offered command (R165). -/
theorem offer_cases (c : Instr) (e : ErrCode) (p : List MicroOp) (s : State) :
    (s.status.busy = true ∧ offer c e p s = .next (markOverrun s)) ∨
    (s.status.busy = false ∧ e = .noError ∧ offer c e p s = .next (accept c p s)) ∨
    (s.status.busy = false ∧ e ≠ .noError ∧ offer c e p s = .next (reject e s)) := by
  unfold offer
  cases hb : s.status.busy
  · by_cases he : e = .noError
    · exact .inr (.inl ⟨rfl, he, by rw [if_neg Bool.false_ne_true, if_pos he]⟩)
    · exact .inr (.inr ⟨rfl, he, by rw [if_neg Bool.false_ne_true, if_neg he]⟩)
  · exact .inl ⟨rfl, by rw [if_pos rfl]⟩

/-- Every meaning offers its command with its own checks and micro-program. -/
theorem exec_eq_offer (c : Instr) (s : State) :
    exec c s = offer c (check c s) (microprogram s.cfg s.args c) s := by
  cases c <;> rfl

/-- The three things that happen to a command word that decodes to c (R165). -/
theorem exec_cases (c : Instr) (s : State) :
    (s.status.busy = true ∧ exec c s = .next (markOverrun s)) ∨
    (s.status.busy = false ∧ check c s = .noError ∧
      exec c s = .next (accept c (microprogram s.cfg s.args c) s)) ∨
    (s.status.busy = false ∧ check c s ≠ .noError ∧ exec c s = .next (reject (check c s) s)) := by
  rw [exec_eq_offer]
  exact offer_cases c (check c s) (microprogram s.cfg s.args c) s

/-- The two things that happen to an illegal word (R165). -/
theorem offerIllegal_cases (s : State) :
    (s.status.busy = true ∧ offerIllegal s = .next (markOverrun s)) ∨
    (s.status.busy = false ∧ offerIllegal s = .next (reject .illegalCmd s)) := by
  unfold offerIllegal
  cases hb : s.status.busy
  · exact .inr ⟨rfl, by rw [if_neg Bool.false_ne_true]⟩
  · exact .inl ⟨rfl, by rw [if_pos rfl]⟩

/-- What an accepted command has passed: every check that applies to it (R167, R168). -/
theorem check_noError_iff (c : Instr) (s : State) :
    check c s = .noError ↔
      (needsInst c = true → s.inst = true) ∧
      (∀ r ∈ usedRegions c s.args, r.inRange s.cfg.dmemSize = true) ∧
      (c = .generateA → (s.args.segRegion .seg0).overlaps s.args.outRegion = false) ∧
      (usesOutput c = true → s.count.toNat < 2 ^ 64 - 1 ∧
        (s.cfg.reseedLimit = 0 ∨ s.count.toNat ≤ s.cfg.reseedLimit.toNat) ∧
        (s.cfg.maxGenBytes = 0 ∨ s.args.outLen.toNat ≤ s.cfg.maxGenBytes.toNat)) := by
  have hc : s.count.toNat < 2 ^ 64 := s.count.isLt
  have hr : ((usedRegions c s.args).any (fun r => !r.inRange s.cfg.dmemSize) = true) ↔
      ¬ ∀ r ∈ usedRegions c s.args, r.inRange s.cfg.dmemSize = true := by
    simp [List.any_eq_true]
  unfold check
  split
  · rename_i h
    refine ⟨nofun, fun h' => ?_⟩
    exact absurd (h'.1 h.1) (by rw [h.2]; exact Bool.false_ne_true)
  · rename_i h1
    have h1' : needsInst c = true → s.inst = true := fun hn => by
      cases hi : s.inst
      · exact absurd ⟨hn, hi⟩ h1
      · rfl
    split
    · rename_i h
      exact ⟨nofun, fun h' => absurd h'.2.1 (hr.mp h)⟩
    · rename_i h2
      have h2' := not_not.mp (fun hn => h2 (hr.mpr hn))
      split
      · rename_i h
        exact ⟨nofun, fun h' => absurd (h'.2.2.1 h.1) (by rw [h.2]; exact Bool.true_eq_false_eq_False)⟩
      · rename_i h3
        have h3' : c = .generateA → (s.args.segRegion .seg0).overlaps s.args.outRegion = false := fun hc => by
          cases ho : (s.args.segRegion .seg0).overlaps s.args.outRegion
          · rfl
          · exact absurd ⟨hc, ho⟩ h3
        split
        · rename_i h
          exact ⟨nofun, fun h' => absurd (h'.2.2.2 h.1).1 (by omega)⟩
        · rename_i h4
          split
          · rename_i h
            refine ⟨nofun, fun h' => ?_⟩
            rcases (h'.2.2.2 h.1).2.1 with hl | hl
            · exact absurd hl h.2.1
            · omega
          · rename_i h5
            split
            · rename_i h
              refine ⟨nofun, fun h' => ?_⟩
              rcases (h'.2.2.2 h.1).2.2 with hl | hl
              · exact absurd hl h.2.1
              · omega
            · rename_i h6
              refine ⟨fun _ => ⟨h1', h2', h3', fun ho => ⟨?_, ?_, ?_⟩⟩, fun _ => rfl⟩
              · exact Nat.lt_of_le_of_ne (by omega) (fun hn => h4 ⟨ho, hn⟩)
              · by_cases hz : s.cfg.reseedLimit = 0
                · exact .inl hz
                · exact .inr (Nat.le_of_not_lt fun hl => h5 ⟨ho, hz, hl⟩)
              · by_cases hz : s.cfg.maxGenBytes = 0
                · exact .inl hz
                · exact .inr (Nat.le_of_not_lt fun hl => h6 ⟨ho, hz, hl⟩)

end Sys2Proof.Machine
end

