-- ==== Sys2Proof/Laws/Sequencer.lean ====
section
/-! SUPPORT. What reading segments, a micro-operation and a step of the sequencer can do, said once
(spec/40_update.md R95 to R99, R108, R109; spec/43_generate.md R133). -/

namespace Sys2Proof.Machine

/-! Reading segments -/

/-- Reading a segment that is in range is MemRead of its bytes. -/
theorem readSeg_of_inRange {size : Nat} {r : Args} (m : Memory) {i : SegIdx} (h : (r.segRegion i).inRange size = true) :
    readSeg size r m i = memRead (r.segRegion i).addr (r.segRegion i).len m :=
  dmemRead_of_inRange m h

/-- Reading segments that are in range faults only on an unwritten byte. -/
theorem readSegs_error {size : Nat} {r : Args} {m : Memory} {is : List SegIdx} {f : Fault}
    (hr : ∀ i ∈ is, (r.segRegion i).inRange size = true) (h : readSegs size r m is = .error f) :
    ∃ x, f = .unwrittenByte x ∧ Memory.byte? m x = none := by
  induction is with
  | nil => exact nomatch h
  | cons i is ih =>
    simp only [readSegs] at h
    split at h
    · rename_i h1
      rw [readSeg_of_inRange m (hr i List.mem_cons_self)] at h1
      obtain ⟨x, hf, -, -, hx⟩ := memRead_error h1
      exact ⟨x, (Except.error.inj h) ▸ hf, hx⟩
    · split at h
      · rename_i h2
        exact ih (fun j hj => hr j (List.mem_cons_of_mem _ hj)) (h2.trans h)
      · exact nomatch h

/-- Reading segments that are in range and written succeeds. -/
theorem readSegs_ok_of_written {size : Nat} {r : Args} {m : Memory} {is : List SegIdx}
    (hr : ∀ i ∈ is, (r.segRegion i).inRange size = true)
    (hw : ∀ i ∈ is, ∀ j < (r.segRegion i).len, Memory.byte? m ((r.segRegion i).addr + j) ≠ none) :
    ∃ bs, readSegs size r m is = .ok bs := by
  induction is with
  | nil => exact ⟨[], rfl⟩
  | cons i is ih =>
    obtain ⟨x, hx⟩ := memRead_ok_of_written (hw i List.mem_cons_self)
    obtain ⟨y, hy⟩ := ih (fun j hj => hr j (List.mem_cons_of_mem _ hj)) (fun j hj => hw j (List.mem_cons_of_mem _ hj))
    refine ⟨x ++ y, ?_⟩
    simp only [readSegs, readSeg_of_inRange m (hr i List.mem_cons_self), hx, hy]

/-- Reading segments that are in range, one of them with an unwritten byte, stops in that segment no later than there,
or in one before it. -/
theorem readSegs_of_unwritten {size : Nat} {r : Args} {m : Memory} {pre post : List SegIdx} {i : SegIdx} {j : Nat}
    (hr : ∀ k ∈ pre ++ i :: post, (r.segRegion k).inRange size = true) (hj : j < (r.segRegion i).len)
    (h : Memory.byte? m ((r.segRegion i).addr + j) = none) :
    ∃ k x, readSegs size r m (pre ++ i :: post) = .error (.unwrittenByte x) ∧
      (k ∈ pre ∨ (k = i ∧ x ≤ (r.segRegion i).addr + j)) ∧
      (r.segRegion k).addr ≤ x ∧ x < (r.segRegion k).addr + (r.segRegion k).len ∧ Memory.byte? m x = none := by
  induction pre with
  | nil =>
    obtain ⟨x, h1, h2, h3, h4⟩ := memRead_of_unwritten hj h
    refine ⟨i, x, ?_, .inr ⟨rfl, h3⟩, h2, by omega, h4⟩
    simp only [List.nil_append, readSegs, readSeg_of_inRange m (hr i List.mem_cons_self), h1]
  | cons p pre ih =>
    have hp := readSeg_of_inRange m (hr p List.mem_cons_self)
    simp only [List.cons_append, readSegs, hp]
    cases hm : memRead (r.segRegion p).addr (r.segRegion p).len m with
    | error f =>
      obtain ⟨x, rfl, h2, h3, h4⟩ := memRead_error hm
      exact ⟨p, x, rfl, .inl List.mem_cons_self, h2, h3, h4⟩
    | ok bs =>
      obtain ⟨k, x, h1, h2, h3⟩ := ih fun k hk => hr k (List.mem_cons_of_mem _ hk)
      exact ⟨k, x, by simp only [h1], h2.imp_left (List.mem_cons_of_mem _), h3⟩

/-- Reading segments depends only on the bytes of those that are in range. -/
theorem readSegs_congr {size : Nat} {r : Args} {m m' : Memory} {is : List SegIdx}
    (h : ∀ i ∈ is, ∀ j < (r.segRegion i).len,
      Memory.byte? m ((r.segRegion i).addr + j) = Memory.byte? m' ((r.segRegion i).addr + j)) :
    readSegs size r m is = readSegs size r m' is := by
  induction is with
  | nil => rfl
  | cons i is ih =>
    have h1 : readSeg size r m i = readSeg size r m' i := by
      unfold readSeg dmemRead
      rw [memRead_congr (h i List.mem_cons_self)]
    simp only [readSegs, h1, ih fun j hj => h j (List.mem_cons_of_mem _ hj)]

/-! A micro-operation -/

/-- What a micro-operation that succeeds leaves alone: all but K, V, COUNT, INST and DMEM. -/
theorem microStep_frame {op : MicroOp} {s t : State} (h : microStep op s = .ok t) :
    t = { s with k := t.k, v := t.v, count := t.count, inst := t.inst, dmem := t.dmem } := by
  cases op with
  | hk sep sel =>
    simp only [microStep, microHK] at h
    split at h
    · exact nomatch h
    · exact Except.ok.inj h ▸ rfl
  | ho off n =>
    simp only [microStep, microHO] at h
    split at h
    · exact nomatch h
    · exact Except.ok.inj h ▸ rfl
  | _ => exact Except.ok.inj h ▸ rfl

/-- HK succeeds exactly when its message can be read. -/
theorem microStep_hk {sep : Sep} {sel : MsgSel} {s t : State} (h : microStep (.hk sep sel) s = .ok t) :
    ∃ m, message s sel = .ok m ∧ t = { s with k := hmac s.cfg s.k (s.v ++ [sep.byte] ++ m) } := by
  simp only [microStep, microHK] at h
  split at h
  · exact nomatch h
  · exact ⟨_, ‹_›, (Except.ok.inj h).symm⟩

/-- HO writes the first n bytes of the tag (R133). -/
theorem microStep_ho {off n : Nat} {s t : State} (h : microStep (.ho off n) s = .ok t) :
    t = { s with
      v := hmac s.cfg s.k s.v
      dmem := memWrite (s.latch.args.outAddr.toNat + off) ((hmac s.cfg s.k s.v).take n) s.dmem } ∧
    ((min n s.cfg.hashLen = 0) ∨ s.latch.args.outAddr.toNat + off + min n s.cfg.hashLen ≤ s.cfg.dmemSize) := by
  simp only [microStep, microHO] at h
  split at h
  · exact nomatch h
  · rename_i hw
    obtain ⟨rfl, hb⟩ := dmemWrite_ok hw
    rw [List.length_take, hmac_length] at hb
    exact ⟨(Except.ok.inj h).symm, hb⟩

/-- HO succeeds when its bytes can be written. -/
theorem microStep_ho_of {off n : Nat} {s : State} {m : Memory}
    (h : dmemWrite s.cfg.dmemSize (s.latch.args.outAddr.toNat + off) ((hmac s.cfg s.k s.v).take n) s.dmem = .ok m) :
    microStep (.ho off n) s = .ok { s with v := hmac s.cfg s.k s.v, dmem := m } := by
  simp only [microStep, microHO, h]

/-- A micro-operation never changes a DMEM byte but by writing it: a written byte stays written. -/
theorem microStep_written {op : MicroOp} {s t : State} (h : microStep op s = .ok t) {a : Nat}
    (ha : Memory.byte? s.dmem a ≠ none) : Memory.byte? t.dmem a ≠ none := by
  cases op with
  | hk sep sel =>
    obtain ⟨m, -, rfl⟩ := microStep_hk h
    exact ha
  | ho off n =>
    obtain ⟨rfl, -⟩ := microStep_ho h
    show Memory.byte? (memWrite _ _ s.dmem) a ≠ none
    rw [byte?_memWrite]
    split
    · rw [List.getElem?_eq_getElem (by omega)]
      exact nofun
    · exact ha
  | _ => exact Except.ok.inj h ▸ ha

/-! A step of the sequencer -/

/-- The three things that a sequencer turn can be: nothing to do, a micro-operation that cannot read its message, a
micro-operation done. -/
theorem sequencerStep_cases (s : State) :
    (s.uq = [] ∧ sequencerStep s = .next s) ∨
    (∃ op rest f, s.uq = op :: rest ∧ microStep op s = .error f ∧ sequencerStep s = .fault f) ∨
    (∃ op rest t, s.uq = op :: rest ∧ microStep op s = .ok t ∧ sequencerStep s = .next (advance rest t)) := by
  unfold sequencerStep
  cases hu : s.uq with
  | nil => exact .inl ⟨rfl, rfl⟩
  | cons op rest =>
    cases hm : microStep op s with
    | error f => exact .inr (.inl ⟨op, rest, f, rfl, hm, by simp only [hm]⟩)
    | ok t => exact .inr (.inr ⟨op, rest, t, rfl, hm, by simp only [hm]⟩)

/-- A micro-operation that stops stops the step. -/
theorem sequencerStep_of_error {op : MicroOp} {rest : List MicroOp} {s : State} {f : Fault} (hu : s.uq = op :: rest)
    (hm : microStep op s = .error f) : sequencerStep s = .fault f := by
  unfold sequencerStep
  simp only [hu, hm]

/-- HK stops where the reading of its message stops. -/
theorem microStep_hk_error {sep : Sep} {sel : MsgSel} {s : State} {f : Fault} (h : message s sel = .error f) :
    microStep (.hk sep sel) s = .error f := by
  simp only [microStep, microHK, h]

/-- A sequencer turn on a non-empty UQ whose head succeeds. -/
theorem sequencerStep_of_ok {op : MicroOp} {rest : List MicroOp} {s t : State} (hu : s.uq = op :: rest)
    (hm : microStep op s = .ok t) : sequencerStep s = .next (advance rest t) := by
  unfold sequencerStep
  simp only [hu, hm]

/-- A sequencer turn that answers a next state leaves alone everything but K, V, COUNT, INST, DMEM, UQ and the
BUSY and DONE bits. -/
theorem sequencerStep_frame {s t : State} (h : sequencerStep s = .next t) :
    t.cfg = s.cfg ∧ t.args = s.args ∧ t.latch = s.latch ∧ t.heldCount = s.heldCount ∧ t.events = s.events ∧
      t.resp = s.resp ∧ t.status.ovr = s.status.ovr ∧ t.status.err = s.status.err ∧
      t.status.errcode = s.status.errcode := by
  rcases sequencerStep_cases s with ⟨-, he⟩ | ⟨_, _, _, -, -, he⟩ | ⟨op, rest, u, -, hm, he⟩
  · obtain rfl := Host.Outcome.next.inj (he.symm.trans h)
    exact ⟨rfl, rfl, rfl, rfl, rfl, rfl, rfl, rfl, rfl⟩
  · exact nomatch he.symm.trans h
  · obtain rfl := Host.Outcome.next.inj (he.symm.trans h)
    rw [microStep_frame hm]
    simp

end Sys2Proof.Machine
end

