-- ==== Sys2Proof/Laws/HostPort.lean ====
section
/-! SUPPORT. What a host access can do, said once (spec/20_memory.md R50, R52, R53; spec/10_state.md R35). -/

namespace Sys2Proof.Machine

/-- The register window begins at REG_BASE, whatever the configuration (R50). -/
theorem target_reg (cfg : Config) {off : Nat} (h : off < regWindowSize) : target cfg (cfg.regBase + off) = .reg off := by
  unfold target
  rw [if_pos ⟨Nat.le_add_right _ _, Nat.add_lt_add_left h _⟩, Nat.add_sub_cancel_left]

/-- With windows apart, DMEM address a is host address DMEM_BASE + a (R50). -/
theorem target_dmem {cfg : Config} (hw : cfg.wellFormed = true) {a : Nat} (h : a < cfg.dmemSize) :
    target cfg (cfg.dmemBase + a) = .dmem a := by
  have hap : cfg.regBase + 0x200 ≤ cfg.dmemBase ∨ cfg.dmemBase + cfg.dmemSize ≤ cfg.regBase := by
    have := (Bool.and_eq_true _ _).mp hw
    exact of_decide_eq_true this.2
  unfold target regWindowSize
  rw [if_neg (by omega), if_pos ⟨Nat.le_add_right _ _, by omega⟩, Nat.add_sub_cancel_left]

/-- A write of a command word to CMD is handled by the decoder and the meanings (R80, R165). -/
theorem hostAccess_cmd (w : Word) (s : State) :
    hostAccess (.write .w32 (cmdAddr s.cfg) w) s = writeCmd w (respond 0 s) := by
  unfold hostAccess cmdAddr
  simp only [target_reg s.cfg (show 0x020 < regWindowSize by decide)]
  rfl

/-- An aligned 32-bit read of the register window (R52). -/
theorem hostAccess_readReg (s : State) {off : Nat} (h : off < regWindowSize) (h4 : off % 4 = 0) :
    hostAccess (.read .w32 (s.cfg.regBase + off)) s = .next (readReg (regAt off) s) := by
  simp only [hostAccess, target_reg s.cfg h]
  rw [if_pos (show regAccessLegal .w32 off = true from decide_eq_true ⟨rfl, h4⟩)]

/-- An aligned 32-bit write of the register window (R52). -/
theorem hostAccess_writeReg (s : State) {off : Nat} (w : Word) (h : off < regWindowSize) (h4 : off % 4 = 0) :
    hostAccess (.write .w32 (s.cfg.regBase + off) w) s = writeReg (regAt off) w (respond 0 s) := by
  simp only [hostAccess, target_reg s.cfg h]
  rw [if_pos (show regAccessLegal .w32 off = true from decide_eq_true ⟨rfl, h4⟩)]

/-- A read inside the DMEM window (R53). -/
theorem hostAccess_readDmem {s : State} (hw : s.cfg.wellFormed = true) (width : Width) {a : Nat} (h : a < s.cfg.dmemSize) :
    hostAccess (.read width (s.cfg.dmemBase + a)) s =
      if dmemAccessLegal s.cfg width a then readDmem a width.bytes s else .next (busError s) := by
  simp only [hostAccess, target_dmem hw h]

/-- A write inside the DMEM window (R53). -/
theorem hostAccess_writeDmem {s : State} (hw : s.cfg.wellFormed = true) (width : Width) {a : Nat} (w : Word)
    (h : a < s.cfg.dmemSize) :
    hostAccess (.write width (s.cfg.dmemBase + a) w) s =
      .next (if dmemAccessLegal s.cfg width a then writeDmem a width.bytes w (respond 0 s) else busError s) := by
  simp only [hostAccess, target_dmem hw h]

/-- What a read of a register can do: answer, and set OVR where it is locked (R35, R62). -/
theorem readReg_cases (r : RegName) (s : State) :
    (r.readLocked = true ∧ s.status.busy = true ∧ readReg r s = respond 0 (markOverrun s)) ∨
    (¬(r.readLocked = true ∧ s.status.busy = true) ∧ readReg r s = respond (regValue r s) s) := by
  unfold readReg
  split
  · exact .inl ⟨‹_ ∧ _›.1, ‹_ ∧ _›.2, rfl⟩
  · exact .inr ⟨‹_›, rfl⟩

/-- Writing a command word keeps everything but STATUS, LATCH, UQ and the held count. -/
theorem writeCmd_next {w : Word} {s t : State} (h : writeCmd w s = .next t) :
    t = { s with status := t.status, latch := t.latch, uq := t.uq, heldCount := t.heldCount } := by
  unfold writeCmd at h
  split at h
  · rename_i c _
    rcases exec_cases c s with ⟨-, he⟩ | ⟨-, -, he⟩ | ⟨-, -, he⟩ <;>
      exact Host.Outcome.next.inj (he.symm.trans h) ▸ rfl
  · rcases offerIllegal_cases s with ⟨-, he⟩ | ⟨-, he⟩ <;> exact Host.Outcome.next.inj (he.symm.trans h) ▸ rfl

/-- A command word is always answered with a next state. -/
theorem writeCmd_total (w : Word) (s : State) : ∃ t, writeCmd w s = .next t := by
  unfold writeCmd
  split
  · rename_i c _
    rcases exec_cases c s with ⟨-, he⟩ | ⟨-, -, he⟩ | ⟨-, -, he⟩ <;> exact ⟨_, he⟩
  · rcases offerIllegal_cases s with ⟨-, he⟩ | ⟨-, he⟩ <;> exact ⟨_, he⟩

/-- A command word written while BUSY = 1 is dropped (R165). -/
theorem writeCmd_busy (w : Word) {s : State} (h : s.status.busy = true) : writeCmd w s = .next (markOverrun s) := by
  unfold writeCmd
  split
  · rename_i c _
    rcases exec_cases c s with ⟨-, he⟩ | ⟨hb, -, -⟩ | ⟨hb, -, -⟩
    · exact he
    · exact absurd (hb.symm.trans h) Bool.false_ne_true
    · exact absurd (hb.symm.trans h) Bool.false_ne_true
  · rcases offerIllegal_cases s with ⟨-, he⟩ | ⟨hb, -⟩
    · exact he
    · exact absurd (hb.symm.trans h) Bool.false_ne_true

/-- What a register write can do, register by register. -/
theorem writeReg_cases (r : RegName) (w : Word) (s : State) :
    (r = .cmd ∧ writeReg r w s = writeCmd w s) ∨
    (r = .status ∧ writeReg r w s = .next (writeStatus w s)) ∨
    (∃ x, r = .arg x ∧ s.status.busy = true ∧ writeReg r w s = .next (markOverrun s)) ∨
    (∃ x, r = .arg x ∧ s.status.busy = false ∧ writeReg r w s = .next (writeArg x w s)) ∨
    writeReg r w s = .next s := by
  cases r with
  | cmd => exact .inl ⟨rfl, rfl⟩
  | status => exact .inr (.inl ⟨rfl, rfl⟩)
  | arg x =>
    cases hb : s.status.busy
    · exact .inr (.inr (.inr (.inl ⟨x, rfl, rfl, by simp only [writeReg, hb]; rfl⟩)))
    · exact .inr (.inr (.inl ⟨x, rfl, rfl, by simp only [writeReg, hb]; rfl⟩))
  | _ => exact .inr (.inr (.inr (.inr rfl)))

/-- Everything a host access that answers a next state can do, up to its answer on the bus: nothing; set or clear
OVR; store an argument register or DMEM bytes while idle; offer a command word. -/
theorem hostAccess_next {acc : Access} {s t : State} (h : hostAccess acc s = .next t) :
    ∃ r : BusResponse,
      t = { s with resp := some r } ∨
      (s.status.busy = true ∧ t = { markOverrun s with resp := some r }) ∨
      (∃ w, t = writeStatus w { s with resp := some r }) ∨
      (∃ x w, s.status.busy = false ∧ t = writeArg x w { s with resp := some r }) ∨
      (∃ width a w, s.status.busy = false ∧ dmemAccessLegal s.cfg width a = true ∧
        t = { s with resp := some r, dmem := memWrite a (leBytes width.bytes w) s.dmem }) ∨
      (∃ w, writeCmd w { s with resp := some r } = .next t) := by
  cases acc with
  | read width addr =>
    simp only [hostAccess] at h
    split at h
    · rename_i off _
      obtain rfl := Host.Outcome.next.inj h
      split
      · rcases readReg_cases (regAt off) s with ⟨-, hb, he⟩ | ⟨-, he⟩
        · exact ⟨_, .inr (.inl ⟨hb, he⟩)⟩
        · exact ⟨_, .inl he⟩
      · exact ⟨_, .inl rfl⟩
    · split at h
      · unfold readDmem at h
        split at h
        · exact ⟨_, .inr (.inl ⟨‹_›, (Host.Outcome.next.inj h).symm⟩)⟩
        · split at h
          · exact nomatch h
          · exact ⟨_, .inl (Host.Outcome.next.inj h).symm⟩
      · exact ⟨_, .inl (Host.Outcome.next.inj h).symm⟩
    · exact nomatch h
  | write width addr w =>
    simp only [hostAccess] at h
    split at h
    · rename_i off _
      split at h
      · refine ⟨{ error := false, data := 0 }, ?_⟩
        rcases writeReg_cases (regAt off) w (respond 0 s) with ⟨-, he⟩ | ⟨-, he⟩ | ⟨x, -, hb, he⟩ | ⟨x, -, hb, he⟩ | he
        · exact .inr (.inr (.inr (.inr (.inr ⟨w, he.symm.trans h⟩))))
        · exact .inr (.inr (.inl ⟨w, Host.Outcome.next.inj (h.symm.trans he)⟩))
        · exact .inr (.inl ⟨hb, Host.Outcome.next.inj (h.symm.trans he)⟩)
        · exact .inr (.inr (.inr (.inl ⟨x, w, hb, Host.Outcome.next.inj (h.symm.trans he)⟩)))
        · exact .inl (Host.Outcome.next.inj (h.symm.trans he))
      · exact ⟨_, .inl (Host.Outcome.next.inj h).symm⟩
    · rename_i a _
      obtain rfl := Host.Outcome.next.inj h
      split
      · rename_i hl
        unfold writeDmem
        refine ⟨{ error := false, data := 0 }, ?_⟩
        split
        · exact .inr (.inl ⟨‹_›, rfl⟩)
        · rename_i hb
          exact .inr (.inr (.inr (.inr (.inl ⟨width, a, w, Bool.eq_false_iff.mpr hb, hl, rfl⟩))))
      · exact ⟨_, .inl rfl⟩
    · exact nomatch h

end Sys2Proof.Machine
end

