-- ==== Sys2Proof/Laws/PerInstr.lean ====
section
/-! SUPPORT. Facts of every command as syntax, one lemma per constructor. -/

namespace Sys2Proof.Laws.FieldsWellFormed

/-- The fields of the command's word are well formed: RSV = 0, OPC is defined, A is allowed (R76, R77). -/
def Statement (i : Instr) : Prop := i.wellFormed = true

theorem instantiate : Statement .instantiate := rfl
theorem reseed : Statement .reseed := rfl
theorem reseedA : Statement .reseedA := rfl
theorem generate : Statement .generate := rfl
theorem generateA : Statement .generateA := rfl
theorem zeroize : Statement .zeroize := rfl

end Sys2Proof.Laws.FieldsWellFormed
end

