-- ==== Sys2Proof/Laws/Run.lean ====
section
/-! SUPPORT. Steps in a row: how `runSteps` composes, and the step of a sequencer turn with no event to come. -/

namespace Sys2Proof.Machine

theorem runSteps_zero (s : State) : runSteps 0 s = .next s := rfl

theorem runSteps_succ_of {n : Nat} {s t : State} (h : step s = .next t) : runSteps (n + 1) s = runSteps n t := by
  simp only [runSteps, h]

/-- A run is the run of its first part and then of the rest. -/
theorem runSteps_add_of {m n : Nat} {s t : State} (h : runSteps m s = .next t) :
    runSteps (m + n) s = runSteps n t := by
  induction m generalizing s with
  | zero =>
    obtain rfl := Host.Outcome.next.inj h
    rw [Nat.zero_add]
  | succ m ih =>
    rw [Nat.succ_add]
    simp only [runSteps] at h ⊢
    cases hs : step s with
    | next u => rw [hs] at h; exact ih h
    | fault f => rw [hs] at h; exact nomatch h
    | refused r => rw [hs] at h; exact nomatch h

/-- With no event to come a step is a sequencer turn. -/
theorem step_of_no_event {s : State} (h : s.events = []) : step s = sequencerStep s := by
  unfold step
  rw [h]

/-- With no event to come and a head that succeeds, a run goes on from the rest of UQ. -/
theorem runSteps_cons_of {n : Nat} {s t : State} {op : MicroOp} {rest : List MicroOp} (he : s.events = [])
    (hu : s.uq = op :: rest) (hm : microStep op s = .ok t) : runSteps (n + 1) s = runSteps n (advance rest t) :=
  runSteps_succ_of ((step_of_no_event he).trans (sequencerStep_of_ok hu hm))

/-- A step on an event is that event, taken off the list. -/
theorem step_of_event {s : State} {e : Event} {es : List Event} (h : s.events = e :: es) :
    step s = perform e { s with events := es } := by
  unfold step
  rw [h]

end Sys2Proof.Machine
end

