-- ==== Sys2Proof/Laws/Program.lean ====
section
/-! SUPPORT. The micro-programs: what may stand at the head of a part-run program, and when a command is accepted
(spec/41_instantiate.md R110; spec/42_reseed.md R120, R121; spec/43_generate.md R130, R131; spec/44_control.md R150;
spec/60_exceptions.md R168). -/

namespace Sys2Proof.Machine

/-- An idle block accepts a command whose checks pass. -/
theorem exec_of_check {c : Instr} {s : State} (hb : s.status.busy = false) (hc : check c s = .noError) :
    exec c s = .next (accept c (microprogram s.cfg s.args c) s) := by
  rcases exec_cases c s with ⟨h, -⟩ | ⟨-, -, h⟩ | ⟨-, h, -⟩
  · exact absurd (hb.symm.trans h) Bool.false_ne_true
  · exact h
  · exact absurd hc h

/-- A block count is at most i exactly when i blocks hold N bytes. -/
theorem blockCount_le_iff {L N : Nat} (hL : 1 ≤ L) (i : Nat) : blockCount L N ≤ i ↔ N ≤ i * L := by
  have h : (N + L - 1) / L ≤ i ↔ N + L - 1 < (i + 1) * L := by
    rw [← Nat.lt_succ_iff, Nat.div_lt_iff_lt_mul (by omega)]
  unfold blockCount
  rw [h, Nat.succ_mul]
  omega

/-- No micro-program is empty. -/
theorem microprogram_ne_nil (cfg : Config) (r : Args) (c : Instr) : microprogram cfg r c ≠ [] := by
  cases c <;> simp [microprogram, progInstantiate, progReseed, progReseedA, progGenerate, progGenerateA, progZeroize,
    updPresent]

/-- OPC and A tell the commands apart. -/
theorem Instr.eq_of_fields {c d : Instr} (h1 : c.opc = d.opc) (h2 : c.aBit = d.aBit) : c = d := by
  revert h1 h2
  cases c <;> cases d <;> decide

/-- What holds of a micro-operation `op` and of what follows it, wherever it stands in the program of `c`. -/
structure ProgramTail (cfg : Config) (r : Args) (c : Instr) (op : MicroOp) (rest : List MicroOp) : Prop where
  setKV_lengths : ∀ k v, op = .setKV k v → k.length = cfg.hashLen ∧ v.length = cfg.hashLen
  setCnt_next : ∀ x, op = .setCnt x →
    (c = .instantiate ∧ x = 1 ∧ rest = [.setInst true]) ∨ (c = .zeroize ∧ x = 0 ∧ rest = [.setInst false])
  setInst_last : ∀ b, op = .setInst b → rest = [] ∧ ((c = .instantiate ∧ b = true) ∨ (c = .zeroize ∧ b = false))
  incCnt_last : op = .incCnt → rest = [] ∧ (c = .generate ∨ c = .generateA)
  last_setInst : rest = [] → c = .instantiate ∨ c = .zeroize → ∃ b, op = .setInst b
  last_incCnt : rest = [] → c = .generate ∨ c = .generateA → op = .incCnt
  before_setInst : ∀ b, rest = [.setInst b] → op = .setCnt (if b then 1 else 0)
  hk_segments : ∀ sep sel, op = .hk sep sel → ∀ i ∈ selSegs c.aBit sel, i ∈ usedSegs c
  ho_bounds : ∀ off n, op = .ho off n → 1 ≤ n ∧ n ≤ cfg.hashLen ∧ off + n ≤ r.outLen.toNat ∧ usesOutput c = true

/-- The blocks of the output loop lie inside the output. -/
theorem ho_of_mem_outputLoop {L N : Nat} (hL : 1 ≤ L) {op : MicroOp} (h : op ∈ outputLoop L N) :
    ∃ off n, op = .ho off n ∧ 1 ≤ n ∧ n ≤ L ∧ off + n ≤ N := by
  obtain ⟨i, hi, rfl⟩ := List.mem_map.mp h
  have h1 : ¬ N ≤ i * L := fun hn => absurd (List.mem_range.mp hi) (Nat.not_lt.mpr ((blockCount_le_iff hL i).mpr hn))
  exact ⟨_, _, rfl, by rw [blockLen]; omega, by rw [blockLen]; omega, by rw [blockLen]; omega⟩

/-- INCCNT ends the programs of the two forms of GENERATE and stands nowhere else. -/
theorem incCnt_of_tail {p : List MicroOp} {op : MicroOp} {rest : List MicroOp} (hp : .incCnt ∉ p)
    (h : op :: rest <:+ p ++ [.incCnt]) :
    (op = .incCnt ∧ rest = []) ∨ (op ∈ p ∧ ∃ q, rest = q ++ [.incCnt] ∧ .incCnt ∉ q) := by
  obtain ⟨t, ht⟩ := h
  rcases List.eq_nil_or_concat' rest with rfl | ⟨q, x, rfl⟩
  · obtain ⟨-, h2⟩ := List.append_inj' ht rfl
    exact .inl ⟨(List.cons.inj h2).1, rfl⟩
  · rw [show t ++ op :: (q ++ [x]) = (t ++ op :: q) ++ [x] by simp] at ht
    obtain ⟨h1, h2⟩ := List.append_inj' ht rfl
    obtain rfl := (List.cons.inj h2).1
    refine .inr ⟨h1 ▸ List.mem_append_right _ List.mem_cons_self, q, rfl, fun hq => hp ?_⟩
    rw [← h1]
    exact List.mem_append_right _ (List.mem_cons_of_mem _ hq)

/-- The tail facts of a program that ends with INCCNT and holds only HK, HV and HO before it. -/
theorem programTail_generate {cfg : Config} {r : Args} {c : Instr} (hc : c = .generate ∨ c = .generateA)
    {p : List MicroOp} (hp : ∀ op ∈ p, op = .hv ∨
      (∃ sep sel, op = .hk sep sel ∧ ∀ i ∈ selSegs c.aBit sel, i ∈ usedSegs c) ∨
      ∃ off n, op = .ho off n ∧ 1 ≤ n ∧ n ≤ cfg.hashLen ∧ off + n ≤ r.outLen.toNat)
    {op : MicroOp} {rest : List MicroOp} (h : op :: rest <:+ p ++ [.incCnt]) : ProgramTail cfg r c op rest := by
  have hni : .incCnt ∉ p := fun hm => by
    rcases hp _ hm with h | ⟨_, _, h, -⟩ | ⟨_, _, h, -⟩ <;> exact nomatch h
  have hu : usesOutput c = true := by rcases hc with rfl | rfl <;> rfl
  have hne : ¬(c = .instantiate ∨ c = .zeroize) := by rcases hc with rfl | rfl <;> decide
  rcases incCnt_of_tail hni h with ⟨rfl, rfl⟩ | ⟨hm, q, rfl, hq⟩
  · exact ⟨nofun, nofun, nofun, fun _ => ⟨rfl, hc⟩, fun _ h => absurd h hne, fun _ _ => rfl, nofun, nofun, nofun⟩
  · have hq1 : q ++ [MicroOp.incCnt] ≠ [] := by simp
    have hq2 : ∀ b, q ++ [MicroOp.incCnt] ≠ [.setInst b] := fun b hb => by
      have := congrArg List.getLast? hb
      rw [List.getLast?_append, List.getLast?_singleton, List.getLast?_singleton] at this
      exact nomatch Option.some.inj this
    rcases hp op hm with rfl | ⟨sep, sel, rfl, hs⟩ | ⟨off, n, rfl, h1, h2, h3⟩
    · exact ⟨nofun, nofun, nofun, nofun, fun h => absurd h hq1, fun h => absurd h hq1, fun b h => absurd h (hq2 b),
        nofun, nofun⟩
    · refine ⟨nofun, nofun, nofun, nofun, fun h => absurd h hq1, fun h => absurd h hq1, fun b h => absurd h (hq2 b),
        fun sep' sel' he => ?_, nofun⟩
      cases he
      exact hs
    · refine ⟨nofun, nofun, nofun, nofun, fun h => absurd h hq1, fun h => absurd h hq1, fun b h => absurd h (hq2 b),
        nofun, fun off' n' he => ?_⟩
      cases he
      exact ⟨h1, h2, h3, hu⟩

/-- What holds at every place of every micro-program. -/
theorem programTail {cfg : Config} {r : Args} {c : Instr} {op : MicroOp} {rest : List MicroOp} (hL : 1 ≤ cfg.hashLen)
    (h : op :: rest <:+ microprogram cfg r c) : ProgramTail cfg r c op rest := by
  cases c with
  | instantiate =>
    simp only [microprogram, progInstantiate, updPresent, List.cons_append, List.nil_append, List.suffix_cons_iff,
      List.cons.injEq, List.suffix_nil, reduceCtorEq, or_false] at h
    obtain ⟨rfl, rfl⟩ | ⟨rfl, rfl⟩ | ⟨rfl, rfl⟩ | ⟨rfl, rfl⟩ | ⟨rfl, rfl⟩ | ⟨rfl, rfl⟩ | ⟨rfl, rfl⟩ := h <;>
      constructor <;> simp [selSegs, usedSegs]
  | reseed =>
    simp only [microprogram, progReseed, updPresent, List.suffix_cons_iff, List.cons.injEq, List.suffix_nil, reduceCtorEq,
      or_false] at h
    obtain ⟨rfl, rfl⟩ | ⟨rfl, rfl⟩ | ⟨rfl, rfl⟩ | ⟨rfl, rfl⟩ := h <;>
      constructor <;> simp [selSegs, usedSegs, Instr.aBit]
  | reseedA =>
    simp only [microprogram, progReseedA, updPresent, List.suffix_cons_iff, List.cons.injEq, List.suffix_nil, reduceCtorEq,
      or_false] at h
    obtain ⟨rfl, rfl⟩ | ⟨rfl, rfl⟩ | ⟨rfl, rfl⟩ | ⟨rfl, rfl⟩ := h <;>
      constructor <;> simp [selSegs, usedSegs, Instr.aBit]
  | zeroize =>
    simp only [microprogram, progZeroize, List.suffix_cons_iff, List.cons.injEq, List.suffix_nil, reduceCtorEq,
      or_false] at h
    obtain ⟨rfl, rfl⟩ | ⟨rfl, rfl⟩ | ⟨rfl, rfl⟩ := h <;> constructor <;> simp
  | generate =>
    refine programTail_generate (p := outputLoop cfg.hashLen r.outLen.toNat ++ updAbsent) (.inl rfl) (fun x hx => ?_) h
    rcases List.mem_append.mp hx with hx | hx
    · exact .inr (.inr (ho_of_mem_outputLoop hL hx))
    · simp only [updAbsent, List.mem_cons, List.not_mem_nil, or_false] at hx
      rcases hx with rfl | rfl
      · exact .inr (.inl ⟨_, _, rfl, nofun⟩)
      · exact .inl rfl
  | generateA =>
    have hupd : ∀ x ∈ updPresent .ga, x = .hv ∨
        ∃ sep sel, x = .hk sep sel ∧ ∀ i ∈ selSegs (Instr.aBit .generateA) sel, i ∈ usedSegs .generateA := fun x hx => by
      simp only [updPresent, List.mem_cons, List.not_mem_nil, or_false] at hx
      rcases hx with rfl | rfl | rfl | rfl
      · exact .inr ⟨_, _, rfl, by decide⟩
      · exact .inl rfl
      · exact .inr ⟨_, _, rfl, by decide⟩
      · exact .inl rfl
    refine programTail_generate (p := updPresent .ga ++ outputLoop cfg.hashLen r.outLen.toNat ++ updPresent .ga)
      (.inr rfl) (fun x hx => ?_) h
    rcases List.mem_append.mp hx with hx | hx
    · rcases List.mem_append.mp hx with hx | hx
      · exact (hupd x hx).imp id .inl
      · exact .inr (.inr (ho_of_mem_outputLoop hL hx))
    · exact (hupd x hx).imp id .inl

end Sys2Proof.Machine
end

