-- ==== Sys2Proof/Tests/Slice0.lean ====
section
/-! SUPPORT. Tests of the model, and one witness for the hypotheses of every statement. The expected results of the
tests are those of spec/95_test_vectors.md and spec/30_encoding.md, named in each comment. -/

open Sys2Proof Sys2Proof.Machine Sys2Proof.Stated

namespace Sys2Proof.Tests

/-! States that the tests and witnesses start from -/

/-- "S1 done" of spec/95_test_vectors.md, in what the rejection vectors need of it: COUNT = 1, INST = 1,
STATUS = 0x0000000A, with these argument registers. -/
def seeded (args : Args) : State :=
  { State.reset with
    inst := true, count := 1, args := args
    status := { busy := false, done := true, err := false, errcode := .noError, ovr := false }
    dmem := [(0x000, 0xAA), (0x001, 0xBB), (0xF00, 0xC0), (0xF01, 0xC1)] }

/-- Argument registers: seg(0), seg(1), seg(2) empty, the output region given. -/
def outArgs (addr len : Word) : Args := { Args.zero with outAddr := addr, outLen := len }

/-- seg(0) and the output region given. -/
def genArgs (sa sl oa ol : Word) : Args := { Args.zero with seg0Addr := sa, seg0Len := sl, outAddr := oa, outLen := ol }

/-- seg(0) = (0x000, 1), seg(1) = (0x001, 1), seg(2) empty, the output region the last 33 bytes of DMEM. -/
def fullArgs : Args :=
  { seg0Addr := 0x000, seg0Len := 1, seg1Addr := 0x001, seg1Len := 1, seg2Addr := 0xFFFFFFFF, seg2Len := 0,
    outAddr := 0xFDF, outLen := 33 }

/-- A state that runs `c`, with `uq` left of its micro-program. -/
def running (c : Instr) (uq : List MicroOp) : State :=
  { seeded fullArgs with
    latch := { opc := c.opc, a := c.aBit, args := fullArgs }
    uq := uq
    heldCount := 1
    status := { busy := true, done := false, err := false, errcode := .noError, ovr := false } }

/-- The same with events to come. -/
def withEvents (es : List Event) (s : State) : State := { s with events := es }

/-- STATUS in the state that an outcome goes on to. -/
def statusOf : Result → Option Word
  | .next t => some (statusWord t)
  | .fault _ => none
  | .refused _ => none

/-- STATUS after a step with the host's write of this command word. -/
def statusAfterCmd (w : Word) (s : State) : Option Word := statusOf (step (withEvents [cmdWrite s.cfg w] s))

/-! WellFormed refuses an ill-formed term of each kind (R76, R77, R6) -/

theorem test_rsv_bit_refused : CmdFields.rsvClear { opc := 3, a := false, rsv := 1 } = false := by decide
theorem test_opc_zero_refused : CmdFields.opcDefined { opc := 0, a := false, rsv := 0 } = false := by decide
theorem test_opc_five_refused : CmdFields.opcDefined { opc := 5, a := false, rsv := 0 } = false := by decide
theorem test_a_on_zeroize_refused : CmdFields.aAllowed { opc := 4, a := true, rsv := 0 } = false := by decide
theorem test_ill_formed_fields_refused :
    CmdFields.wellFormed { opc := 1, a := true, rsv := 0 } = false ∧
    CmdFields.wellFormed { opc := 1, a := false, rsv := 0 } = true := by decide
theorem test_hash_len_refused :
    Config.hashLenLegal { Config.standard with hashLen := 0 } = false ∧
    Config.hashLenLegal { Config.standard with hashLen := 65 } = false := by decide
theorem test_dmem_size_refused :
    Config.dmemSizeLegal { Config.standard with dmemSize := 66 } = false ∧
    Config.dmemSizeLegal { Config.standard with dmemSize := 60 } = false ∧
    Config.dmemSizeLegal { Config.standard with dmemSize := 2 ^ 31 + 4 } = false := by decide
theorem test_overlapping_windows_refused :
    Config.windowsApart { Config.standard with dmemBase := 0x1FF } = false := by decide
theorem test_legal_config : Config.standard.wellFormed = true := by decide

/-! Every command's word, bit by bit from R81, and the illegal words of R82 -/

theorem test_decode_instantiate : decode 0b00000000000000000000000000000001 = .command .instantiate := by decide
theorem test_decode_reseed : decode 0b00000000000000000000000000000010 = .command .reseed := by decide
theorem test_decode_reseedA : decode 0b00000000000000000000000000010010 = .command .reseedA := by decide
theorem test_decode_generate : decode 0b00000000000000000000000000000011 = .command .generate := by decide
theorem test_decode_generateA : decode 0b00000000000000000000000000010011 = .command .generateA := by decide
theorem test_decode_zeroize : decode 0b00000000000000000000000000000100 = .command .zeroize := by decide
theorem test_decode_illegal :
    decode 0x00000000 = .illegal .reservedOpcode ∧ decode 0x00000005 = .illegal .reservedOpcode ∧
    decode 0x0000000F = .illegal .reservedOpcode ∧ decode 0x00000010 = .illegal .reservedOpcode ∧
    decode 0x00000011 = .illegal .aNotAllowed ∧ decode 0x00000014 = .illegal .aNotAllowed ∧
    decode 0x00000023 = .illegal .reservedBits ∧ decode 0x80000001 = .illegal .reservedBits := by decide
theorem test_decodeTableWord :
    decodeTableWord 32 0x13 = some .generateA ∧ decodeTableWord 32 0x11 = none ∧
    decodeTableWord 32 0x100000001 = some .instantiate := by decide

/-! One step after reset, through the host's write (V-X1, V-X2, V-X20) -/

theorem test_fetch_generate_after_reset :
    statusOf (step (State.reset.withFetchWord 32 0x3)) = some 0x00000026 := by decide
theorem test_fetch_illegal_after_reset :
    statusOf (step (State.reset.withFetchWord 32 0x11)) = some 0x00000016 := by decide
theorem test_fetch_instantiate_after_reset :
    statusOf (step (State.reset.withFetchWord 32 0x1)) = some 0x00000001 := by decide

/-! Commands: acceptance and rejection (V-X3 to V-X19, V-X27) -/

theorem test_illegal_words_when_seeded :
    statusAfterCmd 0x00 (seeded Args.zero) = some 0x0000001E ∧
    statusAfterCmd 0x23 (seeded Args.zero) = some 0x0000001E := by decide
theorem test_generate_last_byte_of_dmem :
    statusAfterCmd 0x3 (seeded (outArgs 0xFE0 0x20)) = some 0x00000009 ∧
    statusAfterCmd 0x3 (seeded (outArgs 0xFE1 0x20)) = some 0x0000003E := by decide
theorem test_generate_range_does_not_wrap :
    statusAfterCmd 0x3 (seeded (outArgs 0xFFFFFFFF 0)) = some 0x00000009 ∧
    statusAfterCmd 0x3 (seeded (outArgs 0xFFFFFFF0 0x20)) = some 0x0000003E := by decide
theorem test_generateA_overlap :
    statusAfterCmd 0x13 (seeded (genArgs 0xF00 16 0xF08 8)) = some 0x0000004E ∧
    statusAfterCmd 0x13 (seeded (genArgs 0xF00 16 0xF10 8)) = some 0x00000009 ∧
    statusAfterCmd 0x13 (seeded (genArgs 0xF00 0 0xF00 8)) = some 0x00000009 := by decide
theorem test_generateA_range_before_overlap :
    statusAfterCmd 0x13 (seeded (genArgs 0xF00 16 0xF08 0x200)) = some 0x0000003E := by decide
theorem test_not_instantiated_before_range :
    statusAfterCmd 0x3 { State.reset with args := outArgs 4000 200 } = some 0x00000026 := by decide
theorem test_count_exhausted :
    statusAfterCmd 0x3 { seeded Args.zero with count := 0xFFFFFFFFFFFFFFFF } = some 0x0000005E := by decide
theorem test_reseed_required :
    statusAfterCmd 0x3 { seeded Args.zero with
      cfg := { Config.standard with reseedLimit := 2 }, count := 2 } = some 0x00000009 ∧
    statusAfterCmd 0x3 { seeded Args.zero with
      cfg := { Config.standard with reseedLimit := 2 }, count := 3 } = some 0x0000006E ∧
    statusAfterCmd 0x2 { seeded Args.zero with
      cfg := { Config.standard with reseedLimit := 2 }, count := 3 } = some 0x00000009 := by decide
theorem test_request_too_large :
    statusAfterCmd 0x3 { seeded (outArgs 0x800 17) with
      cfg := { Config.standard with maxGenBytes := 16 } } = some 0x0000007E ∧
    statusAfterCmd 0x3 { seeded (outArgs 0x800 16) with
      cfg := { Config.standard with maxGenBytes := 16 } } = some 0x00000009 := by decide
/-- The last step of ZEROIZE leaves STATUS = 0x00000002 and INST = 0 (V-X27). -/
theorem test_zeroize_last_step :
    statusOf (step { running .zeroize [.setInst false] with count := 0 }) = some 0x00000002 := by decide
/-- The last step of INSTANTIATE leaves STATUS = 0x0000000A (V-I1). -/
theorem test_instantiate_last_step :
    statusOf (step { running .instantiate [.setInst true] with inst := false }) = some 0x0000000A := by decide
/-- The last step of GENERATE counts (E4: COUNT 1 becomes 2). -/
theorem test_generate_last_step_counts :
    (match step (running .generate [.incCnt]) with | .next t => some t.count | _ => none) = some 2 := by decide
/-- With L = 20 and N = 32 there are two blocks, of 20 and of 12 bytes (V-G9). -/
theorem test_output_loop_truncates : outputLoop 20 32 = [.ho 0 20, .ho 20 12] := by decide
/-- RESEED without seg(1) and RESEED.A with it read different messages (R98, V-R2, V-R3). -/
theorem test_reseed_message :
    message (running .reseed []) .rs = .ok [0xAA] ∧ message (running .reseedA []) .rs = .ok [0xAA, 0xBB] := by decide

/-! Host accesses (V-X20 to V-X26, E5, R54) -/

/-- A write while BUSY = 1 is dropped and sets OVR: STATUS = 0x00000101 before INST is set (V-X20). -/
theorem test_busy_write_sets_ovr :
    statusAfterCmd 0x3 { running .instantiate [.setCnt 1, .setInst true] with inst := false } = some 0x00000101 := by
  decide
theorem test_status_write_clears_ovr :
    let s := { seeded Args.zero with status := { (seeded Args.zero).status with ovr := true } }
    statusOf (hostAccess (.write .w32 0x024 0xFF) s) = some 0x0000010A ∧
    statusOf (hostAccess (.write .w32 0x024 0x100) s) = some 0x0000000A := by decide
theorem test_register_reads :
    regValue .id State.reset = 0x48440100 ∧ regValue .cmd State.reset = 0 ∧ paramWord Config.standard = 0x00004020 ∧
    paramWord { Config.standard with hashLen := 20, kvReadable := true } = 0x00014014 := by decide
theorem test_bus_errors :
    hostAccess (.read .w16 0x024) State.reset = .next (busError State.reset) ∧
    hostAccess (.write .w32 0x1002 5) State.reset = .next (busError State.reset) := ⟨rfl, rfl⟩
/-- The K window after V-I1 and V-I5: words 0 and 7 of K, word 5 past L = 20. -/
theorem test_window_words :
    windowWord [0x43, 0xe3, 0xa2, 0x7d, 0x24, 0x00, 0xc1, 0x37] 0 = 0x7da2e343 ∧
    windowWord [0x43, 0xe3, 0xa2, 0x7d, 0x24, 0x00, 0xc1, 0x37] 1 = 0x37c10024 ∧
    windowWord (rep 20 0xFF) 5 = 0 := by decide
theorem test_little_endian_store :
    memWrite 0x10 (leBytes 4 0x04030201) [] = [(0x10, 0x01), (0x11, 0x02), (0x12, 0x03), (0x13, 0x04)] ∧
    leWord [0x01, 0x02, 0x03, 0x04] = 0x04030201 := by decide
theorem test_unwritten_read_faults :
    hostAccess (.read .w8 0x1000) State.reset = .fault (.unwrittenByte 0) ∧
    hostAccess (.read .w8 0x0FFF) State.reset = .fault (.unmappedAddress 0x0FFF) := ⟨rfl, rfl⟩
/-- Writing keeps the list of cells sorted, and rewriting a byte keeps one entry. -/
theorem test_memory_canonical :
    memWrite 5 [0x11] (memWrite 3 [0x22, 0x33, 0x44] []) = [(3, 0x22), (4, 0x33), (5, 0x11)] := by decide

/-! Host programs (R85) -/

/-- WAIT on an idle block with DONE = 1 leaves the loop; after reset it does not (R200). -/
theorem test_wait :
    (match System.run [.host 0, .host 0, .host 0]
        { block := seeded Args.zero, hosts := [{ prog := waitLines 0, pc := 0, regs := [] }] } with
      | .next y => y.hosts.map (fun p => p.pc)
      | _ => []) = [3] ∧
    (match System.run [.host 0, .host 0, .host 0]
        { block := State.reset, hosts := [{ prog := waitLines 0, pc := 0, regs := [] }] } with
      | .next y => y.hosts.map (fun p => p.pc)
      | _ => []) = [0] := by decide
theorem test_generate_program_lines :
    generateP 0 0x800 32 = [.w32 0x058 0x800, .w32 0x05C 32, .cmd .generate, .r32 0x024 0, .andi 1 0 0x3,
      .bnei 1 0x2 3] := by decide

/-! Witnesses: for each statement with hypotheses, a state and operands that meet all of them -/

/-- The idle state of the witnesses. -/
def idle : State := seeded fullArgs

/-- A good state with a command part of the way through: GENERATE.A at its first micro-operation. -/
theorem good_running (c : Instr) (uq : List MicroOp) (hu : uq ≠ []) (hs : uq <:+ microprogram Config.standard fullArgs c)
    (h1 : ∀ b, uq ≠ [.setInst b]) : GoodState (running c uq) where
  cfg_legal := test_legal_config
  k_length := rfl
  v_length := rfl
  dmem_canonical := show Memory.wf (seeded fullArgs).dmem by decide
  dmem_bounded := show ∀ x ∈ (seeded fullArgs).dmem, x.1 < 4096 by decide
  busy_iff := ⟨fun _ => hu, fun _ => rfl⟩
  busy_flags := fun _ => ⟨rfl, rfl⟩
  err_iff := show (false = true ↔ ErrCode.noError ≠ .noError) by decide
  err_done := nofun
  running := fun _ => ⟨c, {
    opc_eq := rfl
    a_eq := rfl
    left_of_program := hs
    in_range := show ∀ r ∈ usedRegions c fullArgs, r.inRange 4096 = true by cases c <;> decide
    apart := fun _ => rfl
    has_generator := fun _ => rfl
    not_exhausted := fun _ => show (1 : Count).toNat < 2 ^ 64 - 1 by decide
    count_held := .inr rfl
    count_set := fun b hb => absurd hb (h1 b) }⟩
  inst_iff := show (true = true ↔ (1 : Count) ≠ 0) by decide

theorem good_running_generateA :
    GoodState (running .generateA (microprogram Config.standard fullArgs .generateA)) :=
  good_running _ _ (by decide) (List.suffix_refl _) nofun

/-- The last step of GENERATE is to come. -/
theorem good_running_incCnt : GoodState (running .generate [.incCnt]) :=
  good_running _ _ nofun ⟨outputLoop 32 33 ++ updAbsent, rfl⟩ nofun

theorem good_idle : GoodState idle where
  cfg_legal := by decide
  k_length := rfl
  v_length := rfl
  dmem_canonical := by decide
  dmem_bounded := by decide
  busy_iff := by decide
  busy_flags := nofun
  err_iff := by decide
  err_done := nofun
  running := nofun
  inst_iff := by decide

/-- INSTANTIATE before its last step: COUNT is set, INST is not, the count that the host reads is the old one. -/
theorem good_running_setInst :
    GoodState { running .instantiate [.setInst true] with inst := false, heldCount := 0 } where
  cfg_legal := by decide
  k_length := rfl
  v_length := rfl
  dmem_canonical := by decide
  dmem_bounded := by decide
  busy_iff := by decide
  busy_flags := fun _ => ⟨rfl, rfl⟩
  err_iff := by decide
  err_done := nofun
  running := fun _ => ⟨.instantiate, {
    opc_eq := rfl
    a_eq := rfl
    left_of_program := ⟨[.setKV (rep 32 0x00) (rep 32 0x01)] ++ updPresent .i3 ++ [.setCnt 1], rfl⟩
    in_range := by decide
    apart := fun _ => rfl
    has_generator := nofun
    not_exhausted := fun _ => by decide
    count_held := .inl ⟨true, rfl⟩
    count_set := fun b hb => by cases hb; rfl }⟩
  inst_iff := by decide

theorem inputs_written (uq : List MicroOp) : InputsWritten (running .generateA uq) := by
  intro c h
  have : c = .generateA := by
    have h1 : Instr.opc .generateA = c.opc := h.opc_eq
    have h2 : Instr.aBit .generateA = c.aBit := h.a_eq
    revert h1 h2
    cases c <;> decide
  subst this
  intro i hi
  have : i = .seg0 := List.mem_singleton.mp hi
  subst this
  intro j hj
  have : j = 0 := Nat.lt_one_iff.mp hj
  subst this
  exact show Memory.byte? (seeded fullArgs).dmem 0 ≠ none by decide

theorem ready_instantiate : ReadyInstantiate idle := ⟨by decide, rfl, by decide, by decide, by decide⟩
theorem ready_reseed : ReadyReseed idle := ⟨by decide, rfl, rfl, by decide⟩
theorem ready_reseedA : ReadyReseedA idle := { ready_reseed with seg1_in := by decide }
theorem ready_generate : ReadyGenerate idle :=
  ⟨by decide, rfl, rfl, by decide, by decide, .inl rfl, .inl rfl⟩
theorem ready_generateA : ReadyGenerateA idle := { ready_generate with seg0_in := by decide, apart := by decide }
/-- GENERATE is ready at the boundary of both limits. -/
theorem ready_generate_at_limits :
    ReadyGenerate { idle with cfg := { Config.standard with reseedLimit := 1, maxGenBytes := 33 } } :=
  ⟨by decide, rfl, rfl, by decide, by decide, .inr (by decide), .inr (by decide)⟩
theorem inputs_of_idle :
    commandInput .instantiate idle = .ok [0xAA, 0xBB] ∧ commandInput .reseed idle = .ok [0xAA] ∧
    commandInput .reseedA idle = .ok [0xAA, 0xBB] ∧ commandInput .generateA idle = .ok [0xAA] := by decide

theorem witness_CommandWordsAreTheOpcodeMap :
    ∀ c : Instr, 0x00000005#32 ≠ commandWord c ∧ 0x00000011#32 ≠ commandWord c ∧ 0x00000021#32 ≠ commandWord c := by
  intro c; cases c <;> decide
theorem witness_DecodeAndEncodeAgree : Instr.wellFormed .generateA = true ∧ encode .generateA = 0x13 := by decide
theorem witness_FieldsDecodeExactlyWhenWellFormed :
    (0x20#32).toNat / 32 ≠ 0 ∧ ¬ (0x1F#32).toNat / 32 ≠ 0 ∧
    CmdFields.wellFormed { opc := 3, a := true, rsv := 0 } = true := by decide
theorem witness_StepRunsTheWrittenCommand :
    decode 0x13 = .command .generateA ∧
    (withEvents [.host (.write .w32 (idle.cfg.regBase + 0x020) 0x13)] idle).events =
      [.host (.write .w32 (idle.cfg.regBase + 0x020) 0x13)] := by decide
/-- The four clauses: dropped, illegal, rejected, accepted. -/
theorem witness_CmdWriteIsDroppedRejectedOrAccepted :
    (running .generate [.incCnt]).status.busy = true ∧
    (idle.status.busy = false ∧ decode 0x11 = .illegal .aNotAllowed) ∧
    (idle.status.busy = false ∧ decode 0x3 = .command .generate ∧
      check .generate (seeded (outArgs 0xFE1 0x20)) ≠ .noError) ∧
    (decode 0x3 = .command .generate ∧ check .generate idle = .noError) := by decide
/-- Each code is some state's first failure, and some state fails no check. -/
theorem witness_CheckReportsTheFirstFailure :
    check .reseed State.reset = .notInstantiated ∧
    check .generate (seeded (outArgs 0xFE1 0x20)) = .range ∧
    check .generateA (seeded (genArgs 0xF00 16 0xF0F 1)) = .overlap ∧
    check .generate { idle with count := 0xFFFFFFFFFFFFFFFF } = .countExhausted ∧
    check .generate { idle with cfg := { Config.standard with reseedLimit := 1 }, count := 2 } = .reseedRequired ∧
    check .generate { idle with cfg := { Config.standard with maxGenBytes := 32 } } = .requestTooLarge ∧
    check .generate idle = .noError := by decide
theorem witness_IllegalCommandIsRejected :
    idle.status.busy = false ∧ decode 0x14 = .illegal .aNotAllowed ∧ idle.inst = true ∧ idle.status.ovr = false := by
  decide
theorem witness_InstantiateRunsToItsFunctionForm :
    ReadyInstantiate idle ∧ idle.events = [] ∧ commandInput .instantiate idle = .ok [0xAA, 0xBB] :=
  ⟨ready_instantiate, rfl, inputs_of_idle.1⟩
theorem witness_ReseedRunsToItsFunctionForm :
    (ReadyReseed idle ∧ idle.events = [] ∧ commandInput .reseed idle = .ok [0xAA]) ∧
    (ReadyReseedA idle ∧ commandInput .reseedA idle = .ok [0xAA, 0xBB]) :=
  ⟨⟨ready_reseed, rfl, inputs_of_idle.2.1⟩, ready_reseedA, inputs_of_idle.2.2.1⟩
theorem witness_GenerateRunsToItsFunctionForm : ReadyGenerate idle ∧ idle.events = [] := ⟨ready_generate, rfl⟩
theorem witness_GenerateARunsToItsFunctionForm :
    ReadyGenerateA idle ∧ idle.events = [] ∧ commandInput .generateA idle = .ok [0xAA] :=
  ⟨ready_generateA, rfl, inputs_of_idle.2.2.2⟩
theorem witness_ZeroizeRunsToItsFunctionForm : idle.status.busy = false ∧ idle.events = [] := ⟨rfl, rfl⟩
/-- 33 bytes make two blocks, so both clauses speak of a truncated block. -/
theorem witness_OutputBytesAreTheTagChain :
    ReadyGenerate idle ∧ ReadyGenerateA idle ∧ commandInput .generateA idle = .ok [0xAA] ∧
    blockCount idle.cfg.hashLen idle.args.outLen.toNat = 2 :=
  ⟨ready_generate, ready_generateA, inputs_of_idle.2.2.2, by decide⟩
/-- L = 1; N = 0; a last block that is short and one that is whole. -/
theorem witness_OutputLoopHasTheRightBlocks :
    1 ≤ 20 ∧ 0 + 1 < blockCount 20 32 ∧ 0 < 32 ∧ blockCount 20 0 = 0 ∧ blockCount 1 64 = 64 ∧ blockCount 32 64 = 2 := by
  decide
theorem witness_RegisterMicroOperationsDoOnlyTheirWrite :
    (running .instantiate [.hv, .incCnt]).events = [] ∧
    (running .instantiate [.hv, .incCnt]).uq = .hv :: .incCnt :: [] ∧
    (running .instantiate [.setKV [] [], .hv]).uq = .setKV [] [] :: .hv :: [] ∧
    (running .instantiate [.setCnt 1, .hv]).uq = .setCnt 1 :: .hv :: [] ∧
    (running .instantiate [.incCnt, .hv]).uq = .incCnt :: .hv :: [] ∧
    (running .instantiate [.setInst true, .hv]).uq = .setInst true :: .hv :: [] := by decide
/-- Every selector has its message in some state; seg(2) is empty there, and seg(1) is read only where A = 1. -/
theorem witness_HkMixesTheSelectedMessage :
    SelMessage (running .instantiate [.hk .zero .i3, .hv]) .i3 [0xAA, 0xBB] ∧
    SelMessage (running .reseed [.hk .zero .rs, .hv]) .rs [0xAA] ∧
    SelMessage (running .reseedA [.hk .zero .rs, .hv]) .rs [0xAA, 0xBB] ∧
    SelMessage (running .generateA [.hk .one .ga, .hv]) .ga [0xAA] ∧
    SelMessage (running .generate [.hk .zero .nothing, .hv]) .nothing [] ∧
    (running .generate [.hk .zero .nothing, .hv]).events = [] := by
  have h0 : SegBytes (running .instantiate [.hk .zero .i3, .hv]) .seg0 [0xAA] := ⟨by decide, by decide, by decide⟩
  have h1 : SegBytes (running .instantiate [.hk .zero .i3, .hv]) .seg1 [0xBB] := ⟨by decide, by decide, by decide⟩
  have h2 : SegBytes (running .instantiate [.hk .zero .i3, .hv]) .seg2 [] := ⟨by decide, by decide, by decide⟩
  exact ⟨⟨_, _, _, h0, h1, h2, rfl⟩, ⟨_, h0, fun _ => rfl, nofun⟩, ⟨_, h0, nofun, fun _ => ⟨_, h1, rfl⟩⟩, h0, rfl, rfl⟩
/-- One byte, and a whole block that ends with the last byte of DMEM. -/
theorem witness_HoWritesTheFirstBytesOfTheTag :
    (running .generate [.ho 0 1, .hv]).events = [] ∧ 1 ≤ 1 ∧ 32 ≤ (running .generate [.ho 0 32, .hv]).cfg.hashLen ∧
    (running .generate [.ho 1 32, .hv]).latch.args.outAddr.toNat + 1 + 32 ≤
      (running .generate [.ho 1 32, .hv]).cfg.dmemSize ∧
    (running .generate [.ho 1 32, .hv]).uq = .ho 1 32 :: .hv :: [] := by decide
theorem witness_UpdateMicroOperationsGiveTheUpdateFunction :
    (running .generateA (updPresent .ga ++ [.incCnt])).events = [] ∧
    message (running .generateA (updPresent .ga ++ [.incCnt])) .ga = .ok [0xAA] ∧
    (running .generateA (updPresent .ga ++ [.incCnt])).uq =
      [.hk .zero .ga, .hv, .hk .one .ga, .hv] ++ .incCnt :: [] ∧
    (running .generate (updAbsent ++ [.incCnt])).uq = [.hk .zero .nothing, .hv] ++ .incCnt :: [] := by decide
/-- The least and the greatest L. -/
theorem witness_ResetMeetsTheInvariant :
    Config.wellFormed { Config.standard with hashLen := 1, dmemSize := 64 } = true ∧
    Config.wellFormed { Config.standard with hashLen := 64, dmemSize := 2 ^ 31 } = true := by decide
/-- From a running state, from an idle one, and through reset. -/
theorem witness_EveryStepKeepsTheInvariant :
    (∃ s t, GoodState s ∧ s.status.busy = true ∧ step s = .next t) ∧ (∃ s t, GoodState s ∧ step s = .next t ∧ s.uq = []) :=
  ⟨⟨_, _, good_running_incCnt, rfl, rfl⟩, ⟨_, _, good_idle, rfl, rfl⟩⟩
/-- A completion, a step that completes nothing, and the exhausted count. -/
theorem witness_CountChangesOnlyAtCompletionOrReset :
    (∃ s t, GoodState s ∧ step s = .next t ∧ s.events.head? ≠ some .reset ∧ s.status.busy = true ∧
      t.status.busy = false ∧ latched .generate s) ∧
    (∃ s t, GoodState s ∧ step s = .next t ∧ s.events.head? ≠ some .reset ∧
      ¬(s.status.busy = true ∧ t.status.busy = false)) ∧
    ({ idle with count := 0xFFFFFFFFFFFFFFFF }.inst = true ∧
      (∀ r ∈ usedRegions .generateA { idle with count := 0xFFFFFFFFFFFFFFFF }.args, r.inRange 4096 = true) ∧
      (fullArgs.segRegion .seg0).overlaps fullArgs.outRegion = false ∧
      ({ idle with count := 0xFFFFFFFFFFFFFFFF } : State).count.toNat = 2 ^ 64 - 1) :=
  ⟨⟨_, _, good_running_incCnt, rfl, by decide, rfl, rfl, rfl, rfl⟩, ⟨_, _, good_idle, rfl, by decide, by decide⟩,
    rfl, by decide, by decide, by decide⟩
theorem witness_InstChangesOnlyAtCompletionOrReset :
    ∃ s t, GoodState s ∧ step s = .next t ∧ s.events.head? ≠ some .reset ∧ s.status.busy = true ∧
      t.status.busy = false ∧ latched .instantiate s :=
  ⟨_, _, good_running_setInst, rfl, by decide, rfl, rfl, rfl, rfl⟩
/-- A good state does stop: GENERATE.A on additional input that nothing has written. -/
theorem witness_OnlyUnwrittenBytesAndStrayAccessesStop :
    GoodState (running .generateA (microprogram Config.standard fullArgs .generateA)) ∧
    step { running .generateA (microprogram Config.standard fullArgs .generateA) with dmem := [] } =
      .fault (.unwrittenByte 0) ∧
    step (withEvents [.host (.read .w8 0x0FFF)] idle) = .fault (.unmappedAddress 0x0FFF) :=
  ⟨good_running_generateA, rfl, rfl⟩
theorem witness_EveryAcceptedCommandCompletes :
    GoodState (running .generateA (microprogram Config.standard fullArgs .generateA)) ∧
    InputsWritten (running .generateA (microprogram Config.standard fullArgs .generateA)) ∧
    (running .generateA (microprogram Config.standard fullArgs .generateA)).events = [] ∧
    (running .generateA (microprogram Config.standard fullArgs .generateA)).uq.length = 11 :=
  ⟨good_running_generateA, inputs_written _, rfl, by decide⟩
/-- A dropped write, a read, and one turn before the last. -/
theorem witness_HostAccessesDoNotDisturbARunningCommand :
    ∃ s t u, ∃ es : List Event, GoodState s ∧ s.status.busy = true ∧ .reset ∉ es ∧ sequencerTurns es < s.uq.length ∧
      runSteps es.length { s with events := es } = .next t ∧
      runSteps (sequencerTurns es) { s with events := [] } = .next u :=
  ⟨running .generateA (microprogram Config.standard fullArgs .generateA), _, _,
    [.host (.write .w32 0x05C 5), .sequencer, .host (.read .w32 0x024)], good_running_generateA, rfl, by decide,
    by decide, rfl, rfl⟩
theorem witness_NoStepChangesTheConfiguration : ∃ t, step idle = .next t := ⟨_, rfl⟩
/-- A host write at the last byte of DMEM and an output block change bytes. -/
theorem witness_DmemChangesOnlyByWritesThatCoverIt :
    (∃ t, step (withEvents [.host (.write .w8 0x1FFF 0x7)] idle) = .next t ∧
      Memory.byte? t.dmem 0xFFF ≠ Memory.byte? idle.dmem 0xFFF) ∧
    ∃ t, step (running .generate [.ho 32 1, .incCnt]) = .next t ∧ Memory.byte? t.dmem 0xFFF ≠ none := by
  have hlen : (List.take 1 (hmac Config.standard (rep 32 0) (rep 32 0))).length = 1 := by
    rw [List.length_take, hmac_length]
    rfl
  have hm := dmemWrite_of_le (size := 4096) (a := 0xFDF + 32) idle.dmem (.inr (by rw [hlen]))
  refine ⟨⟨_, rfl, by decide⟩, ⟨_, (step_of_no_event rfl).trans (sequencerStep_of_ok rfl (microStep_ho_of hm)), ?_⟩⟩
  show Memory.byte? (memWrite (0xFDF + 32) (List.take 1 (hmac Config.standard (rep 32 0) (rep 32 0))) idle.dmem) 0xFFF ≠ none
  rw [byte?_memWrite, hlen, if_pos (by decide), List.getElem?_eq_getElem (by rw [hlen]; decide)]
  exact nofun
theorem witness_HostAccessesCannotWriteTheGenerator :
    ∃ t, step (withEvents [cmdWrite idle.cfg 0x4] idle) = .next t := ⟨_, rfl⟩
theorem witness_HostAccessesLearnNothingOfKAndV :
    idle.cfg.kvReadable = false ∧ SameButKV idle { idle with k := rep 32 0x55, v := rep 32 0x66 } ∧
    idle ≠ { idle with k := rep 32 0x55, v := rep 32 0x66 } := by
  refine ⟨rfl, rfl, by decide⟩
theorem witness_ArgumentRegistersChangeOnlyByIdleHostWrites :
    ∃ t, step (withEvents [.host (.write .w32 0x05C 7)] idle) = .next t ∧
      t.args.get .outLen ≠ idle.args.get .outLen := ⟨_, rfl, by decide⟩
/-- The boundaries of the ranges: the last byte and the last word of DMEM, the first and the last window word, and the
register offsets beside the windows. -/
theorem witness_BusyLockDropsAndRecords :
    (running .generate [.incCnt]).cfg.wellFormed = true ∧ (running .generate [.incCnt]).status.busy = true ∧
    (0x05C, ArgReg.outLen) ∈ argOffsets ∧ 4095 % Width.w8.bytes = 0 ∧ 4095 + Width.w8.bytes ≤ 4096 ∧
    4092 % Width.w32.bytes = 0 ∧ 4092 + Width.w32.bytes ≤ 4096 ∧ 0x17C < 0x180 ∧ 0x17C % 4 = 0 ∧
    ¬(0x100 ≤ 0x0FC ∧ 0x0FC < 0x180) ∧ ¬(0x100 ≤ 0x180 ∧ 0x180 < 0x180) ∧ (∀ x, (0x024, x) ∉ argOffsets) := by
  refine ⟨by decide, by decide, by decide, by decide, by decide, by decide, by decide, by decide, by decide, by decide,
    by decide, fun x => ?_⟩
  cases x <;> decide
/-- OVR cleared by a write of STATUS, and set by a locked read. -/
theorem witness_BusyLockDropsAndRecords_sticky :
    (∃ t, step (withEvents [.host (.write .w32 0x024 0x100)]
        { idle with status := { idle.status with ovr := true } }) = .next t ∧ t.status.ovr = false) ∧
    ∃ t, step (withEvents [.host (.read .w32 0x17C)] (running .generate [.incCnt])) = .next t ∧ t.status.ovr = true :=
  ⟨⟨_, rfl, rfl⟩, _, rfl, rfl⟩
/-- The clauses of 1, 2 and 4 bytes at the edges of the windows. -/
theorem witness_BusErrorsHaveNoEffect :
    idle.cfg.wellFormed = true ∧ Width.w8 ≠ .w32 ∧ 0x1FF < 0x200 ∧ 0x1FE % 4 ≠ 0 ∧ 4095 < idle.cfg.dmemSize ∧
    4095 % Width.w16.bytes ≠ 0 ∧ 4094 % Width.w32.bytes ≠ 0 ∧ 4095 % Width.w8.bytes = 0 ∧
    4092 % Width.w32.bytes = 0 := by decide
theorem witness_ArgumentRegistersStoreAndRead :
    (0x040, ArgReg.seg0Addr) ∈ argOffsets ∧ idle.status.busy = false ∧
    (running .generate [.incCnt]).status.busy = true ∧ ArgReg.seg0Len ≠ .seg0Addr := by decide
theorem witness_CountReadsAsBeforeTheRunningCommand :
    ∃ a t, GoodState idle ∧ idle.status.busy = false ∧ exec .instantiate idle = .next a ∧
      sequencerTurns [.sequencer, .host (.read .w32 0x028)] < a.uq.length ∧
      runSteps 2 { a with events := [.sequencer, .host (.read .w32 0x028)] } = .next t :=
  ⟨_, _, good_idle, rfl, rfl, by decide, rfl⟩
theorem witness_ConfigurationRegistersReadTheirConstants :
    idle.cfg.hashLen < 256 ∧ 0x02C ∈ [0x000, 0x004, 0x008, 0x00C, 0x010, 0x028, 0x02C] ∧ 0x1FC < 0x200 ∧ 0x1FC % 4 = 0 ∧
    0x1FC ∉ namedOffsets ∧ ¬(0x100 ≤ 0x1FC ∧ 0x1FC < 0x180) := by decide
/-- Reserved offsets beside named ones: 0x014, 0x01C, 0x030, 0x060, 0x0FC, 0x180, 0x1FC. -/
theorem witness_ReservedOffsetsReadZero :
    ∀ off ∈ [0x014, 0x01C, 0x030, 0x060, 0x0FC, 0x180, 0x1FC], off < 0x200 ∧ off % 4 = 0 ∧ off ∉ namedOffsets ∧
      ¬(0x100 ≤ off ∧ off < 0x180) := by decide
theorem witness_WindowsShowKAndVOnlyWhenReadable :
    0 < 16 ∧ 15 < 16 ∧ idle.status.busy = false ∧ idle.cfg.kvReadable = false ∧
    { idle with cfg := { Config.standard with kvReadable := true } }.cfg.kvReadable = true ∧
    (running .generate [.incCnt]).status.busy = true := by decide
theorem witness_DmemAccessesAreLittleEndian :
    idle.cfg.wellFormed = true ∧ idle.status.busy = false ∧ 4092 % Width.w32.bytes = 0 ∧
    4092 + Width.w32.bytes ≤ idle.cfg.dmemSize ∧ 0 % Width.w16.bytes = 0 ∧
    (∀ i < Width.w16.bytes, Memory.byte? idle.dmem (0 + i) ≠ none) := by decide
theorem witness_UnwrittenDmemReadsFault :
    idle.cfg.wellFormed = true ∧ idle.status.busy = false ∧ 0 % Width.w32.bytes = 0 ∧
      0 + Width.w32.bytes ≤ idle.cfg.dmemSize ∧ 2 < Width.w32.bytes ∧ Memory.byte? idle.dmem (0 + 2) = none := by
  decide
/-- HK with each selector: an unwritten byte in seg(2) for I3, in seg(1) for RS with LATCH.a = 1, in seg(0) for RS
with LATCH.a = 0 and for GA; the last byte of DMEM among them. -/
theorem witness_UnwrittenDmemReadsFault_selectors :
    (let s := { running .instantiate [.hk .zero .i3, .hv] with
        latch := { opc := 1, a := false, args := { fullArgs with seg2Addr := 0xFFF, seg2Len := 1 } } }
     s.events = [] ∧ (∀ k, (s.latch.args.segRegion k).inRange s.cfg.dmemSize = true) ∧
      Selects s.latch.a .i3 .seg2 ∧ 0 < (s.latch.args.segRegion .seg2).len ∧
      Memory.byte? s.dmem ((s.latch.args.segRegion .seg2).addr + 0) = none) ∧
    (let s := { running .reseedA [.hk .zero .rs, .hv] with dmem := [(0, 0xAA)] }
     s.events = [] ∧ (∀ k, (s.latch.args.segRegion k).inRange s.cfg.dmemSize = true) ∧
      Selects s.latch.a .rs .seg1 ∧ 0 < (s.latch.args.segRegion .seg1).len ∧
      Memory.byte? s.dmem ((s.latch.args.segRegion .seg1).addr + 0) = none) ∧
    (let s := { running .reseed [.hk .zero .rs, .hv] with dmem := [] }
     s.events = [] ∧ (∀ k, (s.latch.args.segRegion k).inRange s.cfg.dmemSize = true) ∧
      Selects s.latch.a .rs .seg0 ∧ ¬ Selects s.latch.a .rs .seg1 ∧ 0 < (s.latch.args.segRegion .seg0).len ∧
      Memory.byte? s.dmem ((s.latch.args.segRegion .seg0).addr + 0) = none) ∧
    (let s := { running .generateA [.hk .zero .ga, .hv] with dmem := [] }
     s.events = [] ∧ (∀ k, (s.latch.args.segRegion k).inRange s.cfg.dmemSize = true) ∧
      Selects s.latch.a .ga .seg0 ∧ 0 < (s.latch.args.segRegion .seg0).len ∧
      Memory.byte? s.dmem ((s.latch.args.segRegion .seg0).addr + 0) = none) :=
  ⟨⟨rfl, fun k => by cases k <;> decide, trivial, by decide, by decide⟩,
    ⟨rfl, fun k => by cases k <;> decide, .inr ⟨rfl, rfl⟩, by decide, by decide⟩,
    ⟨rfl, fun k => by cases k <;> decide, .inl rfl, fun h => h.elim (fun h => nomatch h) (fun h => absurd h.2 (by decide)),
      by decide, by decide⟩,
    ⟨rfl, fun k => by cases k <;> decide, rfl, by decide, by decide⟩⟩
/-- The commands that use a segment are accepted with nothing written. -/
theorem witness_UnwrittenDmemReadsFault_commands :
    let s := { idle with dmem := [] }
    s.events = [] ∧ s.status.busy = false ∧ (∀ j < 1, Memory.byte? s.dmem ((s.args.segRegion .seg1).addr + j) = none) ∧
      (∀ i ∈ [SegIdx.seg0, .seg1], (s.args.segRegion i).len = 1) ∧
      ∀ p ∈ [(Instr.instantiate, SegIdx.seg1), (.reseed, .seg0), (.reseedA, .seg1), (.generateA, .seg0)],
        p ∈ rangeChecked ∧ check p.1 s = .noError := by decide
theorem witness_MemReadAndMemWriteMoveByteStrings :
    Memory.wf idle.dmem ∧ memRead 0 2 idle.dmem = .ok [0xAA, 0xBB] := by decide
/-- Two ready states with other segment boundaries, another generator and the same input bytes. -/
theorem witness_InstantiateDependsOnlyOnItsInput :
    ∃ s, s ≠ idle ∧ ReadyInstantiate idle ∧ ReadyInstantiate s ∧ idle.events = [] ∧ s.events = [] ∧
      idle.cfg.hashLen = s.cfg.hashLen ∧ commandInput .instantiate idle = .ok [0xAA, 0xBB] ∧
      commandInput .instantiate s = .ok [0xAA, 0xBB] :=
  ⟨{ idle with args := { Args.zero with seg0Len := 2 }, inst := false }, by decide, ready_instantiate,
    ⟨by decide, rfl, by decide, by decide, by decide⟩, rfl, rfl, rfl, inputs_of_idle.1, by decide⟩
theorem witness_ReseedAbsentAndEmptyAdditionalAgree :
    let s2 := { idle with args := { fullArgs with seg1Len := 0 } }
    let s3 := { idle with args := { fullArgs with seg0Len := 0, seg1Addr := 0, seg1Len := 1 } }
    ReadyReseed idle ∧ ReadyReseedA s2 ∧ ReadyReseedA s3 ∧ idle.events = [] ∧ s2.events = [] ∧ s3.events = [] ∧
      readSeg idle.cfg.dmemSize idle.args idle.dmem .seg0 = .ok [0xAA] ∧
      readSeg s2.cfg.dmemSize s2.args s2.dmem .seg0 = .ok [0xAA] ∧ s2.args.seg1Len = 0 ∧ s3.args.seg0Len = 0 ∧
      readSeg s3.cfg.dmemSize s3.args s3.dmem .seg1 = .ok [0xAA] :=
  ⟨ready_reseed, { cfg_legal := by decide, idle := rfl, inst_set := rfl, seg0_in := by decide, seg1_in := by decide },
    { cfg_legal := by decide, idle := rfl, inst_set := rfl, seg0_in := by decide, seg1_in := by decide },
    rfl, rfl, rfl, by decide, by decide, rfl, rfl, by decide⟩
/-- A shorter request (of one byte) at another place and with another count. -/
theorem witness_ShorterOutputIsAPrefix :
    let s := { idle with args := outArgs 0x800 1, count := 7 }
    ReadyGenerate s ∧ ReadyGenerate idle ∧ s.events = [] ∧ idle.events = [] ∧ s.cfg.hashLen = idle.cfg.hashLen ∧
      s.k = idle.k ∧ s.v = idle.v ∧ s.args.outLen.toNat ≤ idle.args.outLen.toNat :=
  ⟨⟨by decide, rfl, rfl, by decide, by decide, .inl rfl, .inl rfl⟩, ready_generate, rfl, rfl, rfl, rfl, rfl, by decide⟩
theorem witness_OutputDoesNotDependOnCountOrPlace :
    let s := { idle with args := { fullArgs with outAddr := 0x800 }, count := 7 }
    ReadyGenerateA s ∧ ReadyGenerateA idle ∧ s.args.outLen = idle.args.outLen ∧
      commandInput .generateA s = .ok [0xAA] ∧ commandInput .generateA idle = .ok [0xAA] :=
  ⟨{ cfg_legal := by decide, idle := rfl, inst_set := rfl, out_in := by decide, not_exhausted := by decide,
     under_limit := .inl rfl, under_cap := .inl rfl, seg0_in := by decide, apart := by decide },
    ready_generateA, rfl, by decide, inputs_of_idle.2.2.2⟩
theorem witness_ZeroizeIsIdempotentAndEndsTheGenerator : idle.status.busy = false ∧ idle.events = [] := ⟨rfl, rfl⟩
theorem witness_ReseedDoesNotClearReseedRequired :
    let s := { idle with cfg := { Config.standard with reseedLimit := 2 }, count := 3 }
    s.status.busy = false ∧ s.cfg.reseedLimit ≠ 0 ∧ s.count.toNat > s.cfg.reseedLimit.toNat ∧ s.inst = true ∧
      s.args.outRegion.inRange s.cfg.dmemSize = true ∧ s.count.toNat < 2 ^ 64 - 1 := by decide
theorem witness_ResetSetsEveryPieceOfState :
    (withEvents [.reset] (running .generate [.incCnt])).events = .reset :: [] := rfl
theorem witness_WaitAfterResetNeverEnds : Turn.reset ∉ [.host 0, .sequencer, .host 0, .host 1] := by decide
theorem witness_DroppedCommandIsLostAndDoneMisleads :
    let s := running .generateA (microprogram Config.standard fullArgs .generateA)
    GoodState s ∧ s.status.busy = true ∧ InputsWritten s ∧ s.events = [] :=
  ⟨good_running_generateA, rfl, inputs_written _, rfl⟩
/-- A drop, a rejection and an acceptance. -/
theorem witness_CmdOffersItsWordAndReadsZero :
    (running .generate [.incCnt]).status.busy = true ∧ idle.status.busy = false ∧
    decode 0x20 = .illegal .reservedBits ∧ decode 0x13 = .command .generateA ∧
    ∃ t, hostAccess (.write .w32 (idle.cfg.regBase + 0x020) 0x13) idle = .next t ∧ t.status.busy = true :=
  ⟨rfl, rfl, by decide, by decide, _, rfl, rfl⟩

end Sys2Proof.Tests
end

section
/-! The host's accesses, the events of a step and the invariant of the block (spec/10_state.md). -/

namespace Sys2Proof.Machine

open Sys2Proof.Stated

/-! ### What one step can be -/

/-- A step is a reset, a host access or a turn of the sequencer, on the state with that event taken off. -/
theorem step_cases {s t : State} (h : step s = .next t) :
    (∃ es, s.events = .reset :: es ∧ t = assertReset { s with events := es }) ∨
    (∃ acc es, s.events = .host acc :: es ∧ hostAccess acc { s with events := es } = .next t) ∨
    (s.events = [] ∨ s.events.head? = some .sequencer) ∧
      sequencerStep { s with events := s.events.tail } = .next t := by
  unfold step at h
  split at h
  · rename_i he
    refine .inr (.inr ⟨.inl he, ?_⟩)
    rw [he, List.tail_nil, ← he]
    exact h
  · rename_i e es he
    cases e with
    | host acc => exact .inr (.inl ⟨acc, es, he, h⟩)
    | sequencer => exact .inr (.inr ⟨.inr (by rw [he]; rfl), by rw [he]; exact h⟩)
    | reset => exact .inl ⟨es, he, (Host.Outcome.next.inj h).symm⟩

/-- What every host access leaves alone: the configuration, K, V, COUNT, INST and the events to come (R179). -/
theorem hostAccess_frame {acc : Access} {s t : State} (h : hostAccess acc s = .next t) :
    t = { s with args := t.args, status := t.status, latch := t.latch, uq := t.uq, dmem := t.dmem,
                 heldCount := t.heldCount, resp := t.resp } := by
  obtain ⟨r, rfl | ⟨-, rfl⟩ | ⟨w, rfl⟩ | ⟨x, w, -, rfl⟩ | ⟨width, a, w, -, -, rfl⟩ | ⟨w, hw⟩⟩ := hostAccess_next h
  · rfl
  · rfl
  · unfold writeStatus; split <;> rfl
  · rfl
  · rfl
  · rw [writeCmd_next hw]

/-- What a command word does: it is dropped, accepted or rejected (R165). -/
theorem writeCmd_cases {w : Word} {s t : State} (h : writeCmd w s = .next t) :
    (s.status.busy = true ∧ t = markOverrun s) ∨
    (s.status.busy = false ∧ ∃ c, decode w = .command c ∧ check c s = .noError ∧
      t = accept c (microprogram s.cfg s.args c) s) ∨
    (s.status.busy = false ∧ ∃ e, e ≠ .noError ∧ t = reject e s) := by
  unfold writeCmd at h
  split at h
  · rename_i c hc
    rcases exec_cases c s with ⟨hb, he⟩ | ⟨hb, hn, he⟩ | ⟨hb, hn, he⟩ <;>
      obtain rfl := Host.Outcome.next.inj (he.symm.trans h)
    · exact .inl ⟨hb, rfl⟩
    · exact .inr (.inl ⟨hb, c, hc, hn, rfl⟩)
    · exact .inr (.inr ⟨hb, _, hn, rfl⟩)
  · rcases offerIllegal_cases s with ⟨hb, he⟩ | ⟨hb, he⟩ <;> obtain rfl := Host.Outcome.next.inj (he.symm.trans h)
    · exact .inl ⟨hb, rfl⟩
    · exact .inr (.inr ⟨hb, .illegalCmd, nofun, rfl⟩)

/-! ### The invariant: what it does not look at -/

/-- The parameters of R6 give a tag at least one byte. -/
theorem hashLen_pos {cfg : Config} (h : cfg.wellFormed = true) : 1 ≤ cfg.hashLen := by
  simp only [Config.wellFormed, Config.hashLenLegal, Bool.and_eq_true, decide_eq_true_eq] at h
  exact h.1.1.1

/-- A command goes on running in every state with the same parameters, LATCH, UQ, INST and counts. -/
theorem Runs.congr {c : Instr} {s t : State} (h : Runs c s) (hcfg : t.cfg = s.cfg) (hlatch : t.latch = s.latch)
    (huq : t.uq = s.uq) (hinst : t.inst = s.inst) (hcount : t.count = s.count) (hheld : t.heldCount = s.heldCount) :
    Runs c t := by
  obtain ⟨h1, h2, h3, h4, h5, h6, h7, h8, h9⟩ := h
  constructor <;> simpa only [hcfg, hlatch, huq, hinst, hcount, hheld]

/-- The invariant looks neither at the argument registers, OVR, the answer on the bus nor the events to come, and of
DMEM it asks the canonical form and the bound only. -/
theorem GoodState.congr {s : State} (h : GoodState s) {m : Memory} (hwf : Memory.wf m)
    (hm : ∀ x ∈ m, x.1 < s.cfg.dmemSize) (r : Args) (o : Bool) (b : Option BusResponse) (es : List Event) :
    GoodState { s with dmem := m, args := r, status := { s.status with ovr := o }, resp := b, events := es } where
  cfg_legal := h.cfg_legal
  k_length := h.k_length
  v_length := h.v_length
  dmem_canonical := hwf
  dmem_bounded := hm
  busy_iff := h.busy_iff
  busy_flags := h.busy_flags
  err_iff := h.err_iff
  err_done := h.err_done
  running := fun hb => (h.running hb).imp fun _ hr => hr.congr rfl rfl rfl rfl rfl rfl
  inst_iff := h.inst_iff

/-- The invariant does not depend on the answer on the bus. -/
theorem GoodState.withResp {s : State} (h : GoodState s) (b : Option BusResponse) : GoodState { s with resp := b } :=
  h.congr h.dmem_canonical h.dmem_bounded s.args s.status.ovr b s.events

/-- The invariant does not depend on the events to come. -/
theorem GoodState.withEvents {s : State} (h : GoodState s) (es : List Event) : GoodState { s with events := es } :=
  h.congr h.dmem_canonical h.dmem_bounded s.args s.status.ovr s.resp es

theorem goodState_markOverrun {s : State} (h : GoodState s) : GoodState (markOverrun s) :=
  h.congr h.dmem_canonical h.dmem_bounded s.args true s.resp s.events

theorem goodState_writeStatus {s : State} (h : GoodState s) (w : Word) : GoodState (writeStatus w s) := by
  unfold writeStatus
  split
  · exact h.congr h.dmem_canonical h.dmem_bounded s.args false s.resp s.events
  · exact h

theorem goodState_writeArg {s : State} (h : GoodState s) (x : ArgReg) (w : Word) : GoodState (writeArg x w s) :=
  h.congr h.dmem_canonical h.dmem_bounded (s.args.set x w) s.status.ovr s.resp s.events

/-- A legal host write keeps DMEM canonical and inside its size (R53). -/
theorem goodState_hostWrite {s : State} (h : GoodState s) {width : Width} {a : Nat} (w : Word)
    (hl : dmemAccessLegal s.cfg width a = true) :
    GoodState { s with dmem := memWrite a (leBytes width.bytes w) s.dmem } :=
  h.congr (memWrite_wf h.dmem_canonical _ _)
    (memWrite_bounded h.dmem_bounded (.inr (by rw [leBytes_length]; exact (of_decide_eq_true hl).2)))
    s.args s.status.ovr s.resp s.events

/-! ### The invariant through reset and host accesses -/

/-- The state of R46 is good for every legal configuration, whatever is still to happen. -/
theorem goodState_resetWith {cfg : Config} (h : cfg.wellFormed = true) : GoodState (State.resetWith cfg) where
  cfg_legal := h
  k_length := List.length_replicate
  v_length := List.length_replicate
  dmem_canonical := List.Pairwise.nil
  dmem_bounded := nofun
  busy_iff := by simp [State.resetWith, Status.zero]
  busy_flags := nofun
  err_iff := by simp [State.resetWith, Status.zero]
  err_done := nofun
  running := nofun
  inst_iff := by simp [State.resetWith, Status.zero, countReadout]

/-- A rejection sets DONE, ERR and ERRCODE together (R170). -/
theorem goodState_reject {s : State} (h : GoodState s) (hb : s.status.busy = false) {e : ErrCode} (he : e ≠ .noError) :
    GoodState (reject e s) where
  cfg_legal := h.cfg_legal
  k_length := h.k_length
  v_length := h.v_length
  dmem_canonical := h.dmem_canonical
  dmem_bounded := h.dmem_bounded
  busy_iff := h.busy_iff
  busy_flags := fun hb' => absurd (hb.symm.trans hb') Bool.false_ne_true
  err_iff := ⟨fun _ => he, fun _ => rfl⟩
  err_done := fun _ => rfl
  running := fun hb' => absurd (hb.symm.trans hb') Bool.false_ne_true
  inst_iff := h.inst_iff

/-- No micro-program is one step long, so none begins with its last step. -/
theorem one_lt_microprogram_length (cfg : Config) (r : Args) (c : Instr) : 1 < (microprogram cfg r c).length := by
  cases c <;> simp [microprogram, progInstantiate, progReseed, progReseedA, progGenerate, progGenerateA, progZeroize,
    updPresent, updAbsent]

/-- An accepted command is at the beginning of its micro-program, with everything that its checks ask for (R168). -/
theorem runs_accept {c : Instr} {s : State} (hc : check c s = .noError) :
    Runs c (accept c (microprogram s.cfg s.args c) s) := by
  obtain ⟨hinst, hrange, hapart, hlimits⟩ := (check_noError_iff c s).mp hc
  exact {
    opc_eq := rfl
    a_eq := rfl
    left_of_program := List.suffix_refl _
    in_range := hrange
    apart := hapart
    has_generator := hinst
    not_exhausted := fun ho => (hlimits ho).1
    count_held := .inr rfl
    count_set := fun b hb => by
      have hlen := one_lt_microprogram_length s.cfg s.args c
      rw [show microprogram s.cfg s.args c = [.setInst b] from hb] at hlen
      exact absurd hlen (Nat.lt_irrefl 1) }

/-- Acceptance keeps the invariant (R169): the readout stays COUNT, now as the held count. -/
theorem goodState_accept {c : Instr} {s : State} (h : GoodState s) (hb : s.status.busy = false)
    (hc : check c s = .noError) : GoodState (accept c (microprogram s.cfg s.args c) s) where
  cfg_legal := h.cfg_legal
  k_length := h.k_length
  v_length := h.v_length
  dmem_canonical := h.dmem_canonical
  dmem_bounded := h.dmem_bounded
  busy_iff := ⟨fun _ => microprogram_ne_nil _ _ _, fun _ => rfl⟩
  busy_flags := fun _ => ⟨rfl, rfl⟩
  err_iff := ⟨nofun, fun he => absurd rfl he⟩
  err_done := nofun
  running := fun _ => ⟨c, runs_accept hc⟩
  inst_iff := by
    have hi := h.inst_iff
    simp only [countReadout, hb, Bool.false_eq_true, if_false] at hi
    exact hi

/-- A command word keeps the invariant, dropped, accepted or rejected (R165). -/
theorem goodState_writeCmd {w : Word} {s t : State} (h : GoodState s) (hw : writeCmd w s = .next t) : GoodState t := by
  rcases writeCmd_cases hw with ⟨-, rfl⟩ | ⟨hb, c, -, hc, rfl⟩ | ⟨hb, e, he, rfl⟩
  · exact goodState_markOverrun h
  · exact goodState_accept h hb hc
  · exact goodState_reject h hb he

/-- Every host access keeps the invariant. -/
theorem goodState_hostAccess {acc : Access} {s t : State} (h : GoodState s) (ha : hostAccess acc s = .next t) :
    GoodState t := by
  obtain ⟨r, hcase⟩ := hostAccess_next ha
  have hr : GoodState { s with resp := some r } := h.withResp _
  rcases hcase with rfl | ⟨-, rfl⟩ | ⟨w, rfl⟩ | ⟨x, w, -, rfl⟩ | ⟨width, a, w, -, hl, rfl⟩ | ⟨w, hw⟩
  · exact hr
  · exact goodState_markOverrun hr
  · exact goodState_writeStatus hr w
  · exact goodState_writeArg hr x w
  · exact goodState_hostWrite hr w hl
  · exact goodState_writeCmd hr hw

/-! ### A turn of the sequencer in a running block -/

section
variable {op : MicroOp} {s t : State} (h : microStep op s = .ok t)
include h

theorem microStep_cfg : t.cfg = s.cfg := by rw [microStep_frame h]
theorem microStep_latch : t.latch = s.latch := by rw [microStep_frame h]
theorem microStep_status : t.status = s.status := by rw [microStep_frame h]
theorem microStep_heldCount : t.heldCount = s.heldCount := by rw [microStep_frame h]

end

/-- Only SETCNT and INCCNT write COUNT (R108). -/
theorem microStep_count {op : MicroOp} {s t : State} (h : microStep op s = .ok t) (hset : ∀ x, op ≠ .setCnt x)
    (hinc : op ≠ .incCnt) : t.count = s.count := by
  cases op with
  | hk sep sel => obtain ⟨m, -, rfl⟩ := microStep_hk h; rfl
  | ho off n => obtain ⟨rfl, -⟩ := microStep_ho h; rfl
  | setCnt x => exact absurd rfl (hset x)
  | incCnt => exact absurd rfl hinc
  | _ => exact Except.ok.inj h ▸ rfl

/-- Only SETINST writes INST (R109). -/
theorem microStep_inst {op : MicroOp} {s t : State} (h : microStep op s = .ok t) (hset : ∀ b, op ≠ .setInst b) :
    t.inst = s.inst := by
  cases op with
  | hk sep sel => obtain ⟨m, -, rfl⟩ := microStep_hk h; rfl
  | ho off n => obtain ⟨rfl, -⟩ := microStep_ho h; rfl
  | setInst b => exact absurd rfl (hset b)
  | _ => exact Except.ok.inj h ▸ rfl

/-- A micro-operation keeps K and V at L bytes (R23). -/
theorem microStep_lengths {op : MicroOp} {s t : State} (h : microStep op s = .ok t)
    (hset : ∀ k v, op = .setKV k v → k.length = s.cfg.hashLen ∧ v.length = s.cfg.hashLen)
    (hs : s.k.length = s.cfg.hashLen ∧ s.v.length = s.cfg.hashLen) :
    t.k.length = s.cfg.hashLen ∧ t.v.length = s.cfg.hashLen := by
  cases op with
  | setKV k v => exact Except.ok.inj h ▸ hset k v rfl
  | hk sep sel => obtain ⟨m, -, rfl⟩ := microStep_hk h; exact ⟨hmac_length .., hs.2⟩
  | hv => exact Except.ok.inj h ▸ ⟨hs.1, hmac_length ..⟩
  | ho off n => obtain ⟨rfl, -⟩ := microStep_ho h; exact ⟨hs.1, hmac_length ..⟩
  | _ => exact Except.ok.inj h ▸ hs

/-- A micro-operation keeps DMEM canonical and inside its size (R50). -/
theorem microStep_dmem {op : MicroOp} {s t : State} (h : microStep op s = .ok t) (hwf : Memory.wf s.dmem)
    (hb : ∀ x ∈ s.dmem, x.1 < s.cfg.dmemSize) : Memory.wf t.dmem ∧ ∀ x ∈ t.dmem, x.1 < s.cfg.dmemSize := by
  cases op with
  | hk sep sel => obtain ⟨m, -, rfl⟩ := microStep_hk h; exact ⟨hwf, hb⟩
  | ho off n =>
    obtain ⟨rfl, hsize⟩ := microStep_ho h
    refine ⟨memWrite_wf hwf _ _, memWrite_bounded hb ?_⟩
    rwa [List.length_take, hmac_length]
  | _ => exact Except.ok.inj h ▸ ⟨hwf, hb⟩

/-- COUNT while a command runs is the held count, but for the one step between SETCNT and the last (log entry 4). -/
theorem Runs.count_eq_held {c : Instr} {s : State} (hr : Runs c s) (h : ∀ b, s.uq ≠ [.setInst b]) :
    s.count = s.heldCount :=
  hr.count_held.resolve_left fun ⟨b, hb⟩ => h b hb

/-- A turn that leaves UQ non-empty goes on with the same command and leaves INST. -/
theorem Runs.turn_of_more {c : Instr} {s u : State} {op : MicroOp} {rest : List MicroOp} (hr : Runs c s)
    (hL : 1 ≤ s.cfg.hashLen) (hu : s.uq = op :: rest) (hm : microStep op s = .ok u) (hrest : rest ≠ []) :
    Runs c (advance rest u) ∧ u.inst = s.inst := by
  have tail : ProgramTail s.cfg s.latch.args c op rest := programTail hL (hu ▸ hr.left_of_program)
  have hinst : u.inst = s.inst := microStep_inst hm fun b hb => hrest (tail.setInst_last b hb).1
  have hheld : s.count = s.heldCount := hr.count_eq_held fun b hb => hrest (List.cons.inj (hu.symm.trans hb)).2
  refine ⟨⟨?_, ?_, ?_, ?_, ?_, ?_, ?_, ?_, ?_⟩, hinst⟩ <;> simp only [advance_cfg, advance_latch, advance_uq, advance_inst,
    advance_count, advance_heldCount, microStep_cfg hm, microStep_latch hm, microStep_heldCount hm, hinst]
  · exact hr.opc_eq
  · exact hr.a_eq
  · exact (List.suffix_cons op rest).trans (hu ▸ hr.left_of_program)
  · exact hr.in_range
  · exact hr.apart
  · exact hr.has_generator
  · exact hr.not_exhausted
  · by_cases hset : ∃ x, op = .setCnt x
    · obtain ⟨x, rfl⟩ := hset
      exact .inl ((tail.setCnt_next x rfl).elim (fun h => ⟨_, h.2.2⟩) fun h => ⟨_, h.2.2⟩)
    · refine .inr ((microStep_count hm (fun x hx => hset ⟨x, hx⟩) fun hi => ?_).trans hheld)
      exact hrest (tail.incCnt_last hi).1
  · intro b hb
    obtain rfl := tail.before_setInst b hb
    exact Except.ok.inj hm ▸ rfl

/-- The turn that empties UQ leaves COUNT and INST as the command's row of R25 and of R27 says; COUNT as a natural
number, so INCCNT does not wrap. -/
theorem Runs.turn_of_last {c : Instr} {s u : State} {op : MicroOp} (hr : Runs c s) (hL : 1 ≤ s.cfg.hashLen)
    (hu : s.uq = [op]) (hm : microStep op s = .ok u) :
    u.count.toNat = countAfter c s.heldCount.toNat ∧ u.inst = instAfter c s.inst := by
  have tail : ProgramTail s.cfg s.latch.args c op [] := programTail hL (hu ▸ hr.left_of_program)
  have setInst : c = .instantiate ∨ c = .zeroize → ∃ b, u = microSetInst b s ∧ s.count = (if b then 1 else 0) ∧
      ((c = .instantiate ∧ b = true) ∨ (c = .zeroize ∧ b = false)) := fun hc => by
    obtain ⟨b, rfl⟩ := tail.last_setInst rfl hc
    exact ⟨b, (Except.ok.inj hm).symm, hr.count_set b hu, (tail.setInst_last b rfl).2⟩
  have incCnt (hc : c = .generate ∨ c = .generateA) : u.count.toNat = s.heldCount.toNat + 1 ∧ u.inst = s.inst := by
    obtain rfl := tail.last_incCnt rfl hc
    obtain rfl := Except.ok.inj hm
    have hlt : s.heldCount.toNat < 2 ^ 64 - 1 := hr.not_exhausted (by rcases hc with rfl | rfl <;> rfl)
    rw [microIncCnt_count, hr.count_eq_held fun b hb => by simp [hu] at hb]
    exact ⟨by rw [BitVec.toNat_add]; exact Nat.mod_eq_of_lt (by simp; omega), rfl⟩
  have same (h1 : ¬(c = .instantiate ∨ c = .zeroize)) (h2 : ¬(c = .generate ∨ c = .generateA)) :
      u.count.toNat = s.heldCount.toNat ∧ u.inst = s.inst := by
    have hop : ∀ b, op ≠ .setInst b := fun b hb => h1 ((tail.setInst_last b hb).2.imp And.left And.left)
    rw [microStep_count hm (fun x hx => h1 ((tail.setCnt_next x hx).imp And.left And.left))
      (fun hi => h2 (tail.incCnt_last hi).2), hr.count_eq_held fun b hb => hop b (List.cons.inj (hu.symm.trans hb)).1]
    exact ⟨rfl, microStep_inst hm hop⟩
  cases c with
  | instantiate =>
    obtain ⟨b, rfl, hcount, ⟨-, rfl⟩ | ⟨h, -⟩⟩ := setInst (.inl rfl)
    · exact ⟨congrArg BitVec.toNat hcount, rfl⟩
    · exact nomatch h
  | zeroize =>
    obtain ⟨b, rfl, hcount, ⟨h, -⟩ | ⟨-, rfl⟩⟩ := setInst (.inr rfl)
    · exact nomatch h
    · exact ⟨congrArg BitVec.toNat hcount, rfl⟩
  | reseed => exact same (by decide) (by decide)
  | reseedA => exact same (by decide) (by decide)
  | generate => exact incCnt (.inl rfl)
  | generateA => exact incCnt (.inr rfl)

/-- The rows of R25 and R27 agree: a command leaves a generator exactly when it leaves a COUNT that is not 0. -/
theorem instAfter_iff {c : Instr} {i : Bool} {n m : Count} (h : i = true ↔ n ≠ 0)
    (hneeds : needsInst c = true → i = true) (hm : m.toNat = countAfter c n.toNat) :
    instAfter c i = true ↔ m ≠ 0 := by
  rw [BitVec.toNat_ne, hm]
  cases c with
  | instantiate => simp [instAfter, countAfter]
  | zeroize => simp [instAfter, countAfter]
  | reseed => exact h.trans BitVec.toNat_ne
  | reseedA => exact h.trans BitVec.toNat_ne
  | generate => simp [instAfter, countAfter, hneeds rfl]
  | generateA => simp [instAfter, countAfter, hneeds rfl]

/-! ### What the count registers read -/

theorem countReadout_of_busy {s : State} (h : s.status.busy = true) : countReadout s = s.heldCount := if_pos h

theorem countReadout_of_idle {s : State} (h : s.status.busy = false) : countReadout s = s.count :=
  if_neg (by rw [h]; exact Bool.false_ne_true)

/-! ### Every step keeps the invariant -/

/-- A turn that leaves UQ non-empty keeps the invariant. -/
theorem goodState_turn_of_more {s u : State} {op op' : MicroOp} {rest : List MicroOp} (h : GoodState s)
    (hu : s.uq = op :: op' :: rest) (hm : microStep op s = .ok u) : GoodState (advance (op' :: rest) u) := by
  have hb : s.status.busy = true := h.busy_iff.mpr (by rw [hu]; exact List.cons_ne_nil _ _)
  obtain ⟨c, hr⟩ := h.running hb
  have hL := hashLen_pos h.cfg_legal
  have tail := programTail hL (hu ▸ hr.left_of_program)
  obtain ⟨hruns, hinst⟩ := hr.turn_of_more hL hu hm (List.cons_ne_nil _ _)
  obtain ⟨hk, hv⟩ := microStep_lengths hm tail.setKV_lengths ⟨h.k_length, h.v_length⟩
  obtain ⟨hwf, hbound⟩ := microStep_dmem hm h.dmem_canonical h.dmem_bounded
  have hi := h.inst_iff
  rw [countReadout_of_busy hb] at hi
  constructor <;> simp only [countReadout, advance_cfg, advance_k, advance_v, advance_dmem, advance_uq,
    advance_cons_status, advance_inst, advance_heldCount, microStep_cfg hm, microStep_status hm, microStep_heldCount hm,
    hinst, hb, if_true]
  · exact h.cfg_legal
  · exact hk
  · exact hv
  · exact hwf
  · exact hbound
  · simp
  · exact fun _ => h.busy_flags hb
  · exact h.err_iff
  · exact h.err_done
  · exact fun _ => ⟨c, hruns⟩
  · exact hi

/-- The turn that completes a command keeps the invariant. -/
theorem goodState_turn_of_last {s u : State} {op : MicroOp} (h : GoodState s) (hu : s.uq = [op])
    (hm : microStep op s = .ok u) : GoodState (advance [] u) := by
  have hb : s.status.busy = true := h.busy_iff.mpr (by rw [hu]; exact List.cons_ne_nil _ _)
  obtain ⟨c, hr⟩ := h.running hb
  have hL := hashLen_pos h.cfg_legal
  have tail := programTail hL (hu ▸ hr.left_of_program)
  obtain ⟨hcount, hinst⟩ := hr.turn_of_last hL hu hm
  obtain ⟨hk, hv⟩ := microStep_lengths hm tail.setKV_lengths ⟨h.k_length, h.v_length⟩
  obtain ⟨hwf, hbound⟩ := microStep_dmem hm h.dmem_canonical h.dmem_bounded
  have hi := h.inst_iff
  rw [countReadout_of_busy hb] at hi
  constructor <;> simp only [countReadout, advance_cfg, advance_k, advance_v, advance_dmem, advance_uq,
    advance_nil_busy, advance_nil_done, advance_err, advance_errcode, advance_inst, advance_count, microStep_cfg hm,
    microStep_status hm]
  · exact h.cfg_legal
  · exact hk
  · exact hv
  · exact hwf
  · exact hbound
  · simp
  · exact nofun
  · exact h.err_iff
  · exact fun _ => trivial
  · exact nofun
  · rw [hinst]
    exact instAfter_iff hi hr.has_generator hcount

/-- Every turn of the sequencer keeps the invariant. -/
theorem goodState_sequencerStep {s t : State} (h : GoodState s) (ht : sequencerStep s = .next t) : GoodState t := by
  rcases sequencerStep_cases s with ⟨-, he⟩ | ⟨_, _, _, -, -, he⟩ | ⟨op, rest, u, hu, hm, he⟩
  · exact Host.Outcome.next.inj (he.symm.trans ht) ▸ h
  · exact nomatch he.symm.trans ht
  · obtain rfl := Host.Outcome.next.inj (he.symm.trans ht)
    cases rest with
    | nil => exact goodState_turn_of_last h hu hm
    | cons op' rest => exact goodState_turn_of_more h hu hm

/-- Settles O22: each of the three things a step can be keeps the invariant. -/
theorem everyStepKeepsTheInvariant : Obligations.EveryStepKeepsTheInvariant := by
  intro s t hs ht
  rcases step_cases ht with ⟨es, -, rfl⟩ | ⟨acc, es, -, ha⟩ | ⟨-, ha⟩
  · exact (goodState_resetWith hs.cfg_legal).withEvents es
  · exact goodState_hostAccess (hs.withEvents es) ha
  · exact goodState_sequencerStep (hs.withEvents _) ha

/-- Settles O21: the state after reset is `State.resetWith` of the standard parameters. -/
theorem resetMeetsTheInvariant : Obligations.ResetMeetsTheInvariant :=
  ⟨goodState_resetWith (by decide), fun _ h => goodState_resetWith h⟩

end Sys2Proof.Machine
end

section
/-! COUNT as the host reads it, and INST: only completion and reset change them (spec/10_state.md R25, R27). -/

namespace Sys2Proof.Machine

open Sys2Proof.Stated

/-- A command word keeps the readout of COUNT and does not end a command: acceptance holds the count that it found. -/
theorem writeCmd_readout {w : Word} {s t : State} (h : writeCmd w s = .next t) :
    countReadout t = countReadout s ∧ (s.status.busy = true → t.status.busy = true) := by
  rcases writeCmd_cases h with ⟨-, rfl⟩ | ⟨hb, c, -, -, rfl⟩ | ⟨-, e, -, rfl⟩
  · exact ⟨rfl, id⟩
  · exact ⟨(countReadout_of_idle hb).symm, fun _ => rfl⟩
  · exact ⟨rfl, id⟩

/-- A host access keeps the readout of COUNT and does not end a command. -/
theorem hostAccess_readout {acc : Access} {s t : State} (h : hostAccess acc s = .next t) :
    countReadout t = countReadout s ∧ (s.status.busy = true → t.status.busy = true) := by
  obtain ⟨r, rfl | ⟨-, rfl⟩ | ⟨w, rfl⟩ | ⟨x, w, -, rfl⟩ | ⟨width, a, w, -, -, rfl⟩ | ⟨w, hw⟩⟩ := hostAccess_next h
  · exact ⟨rfl, id⟩
  · exact ⟨rfl, id⟩
  · simp [countReadout]
  · exact ⟨rfl, id⟩
  · exact ⟨rfl, id⟩
  · have hcmd := writeCmd_readout hw
    exact hcmd

/-- LATCH names one command. -/
theorem Runs.eq_of_latched {c d : Instr} {s : State} (h : Runs c s) (hd : latched d s) : d = c :=
  Instr.eq_of_fields (hd.1.symm.trans h.opc_eq) (hd.2.symm.trans h.a_eq)

/-- A turn of the sequencer does not complete a command, and keeps the readout of COUNT and INST, or it completes
one, and leaves what that command's rows of R25 and R27 say. -/
theorem sequencerStep_count_inst {s t : State} (hs : GoodState s) (h : sequencerStep s = .next t) :
    (t.status.busy = s.status.busy ∧ countReadout t = countReadout s ∧ t.inst = s.inst) ∨
    (s.status.busy = true ∧ t.status.busy = false ∧ ∀ c, latched c s →
      (countReadout t).toNat = countAfter c (countReadout s).toNat ∧ t.inst = instAfter c s.inst) := by
  rcases sequencerStep_cases s with ⟨-, he⟩ | ⟨_, _, _, -, -, he⟩ | ⟨op, rest, u, hu, hm, he⟩
  · obtain rfl := Host.Outcome.next.inj (he.symm.trans h)
    exact .inl ⟨rfl, rfl, rfl⟩
  · exact nomatch he.symm.trans h
  · obtain rfl := Host.Outcome.next.inj (he.symm.trans h)
    have hb : s.status.busy = true := hs.busy_iff.mpr (by rw [hu]; exact List.cons_ne_nil _ _)
    obtain ⟨c, hr⟩ := hs.running hb
    have hL := hashLen_pos hs.cfg_legal
    rw [countReadout_of_busy hb]
    cases rest with
    | nil =>
      refine .inr ⟨hb, rfl, fun d hd => ?_⟩
      obtain rfl := hr.eq_of_latched hd
      have hlast := hr.turn_of_last hL hu hm
      exact hlast
    | cons op' rest =>
      have hst : (advance (op' :: rest) u).status = s.status := by
        rw [advance_cons_status, microStep_status hm]
      refine .inl ⟨congrArg Status.busy hst, ?_, ?_⟩
      · rw [countReadout_of_busy (by rw [hst, hb]), advance_heldCount, microStep_heldCount hm]
      · rw [advance_inst]
        exact (hr.turn_of_more hL hu hm (List.cons_ne_nil _ _)).2

/-- What a step does to the readout of COUNT and to INST: a reset clears both, a completion leaves what its rows of
R25 and R27 say, and every other step keeps both. -/
theorem step_count_inst {s t : State} (hs : GoodState s) (h : step s = .next t) :
    (s.events.head? = some .reset ∧ countReadout t = 0 ∧ t.inst = false) ∨
    (s.events.head? ≠ some .reset ∧ ¬(s.status.busy = true ∧ t.status.busy = false) ∧
      countReadout t = countReadout s ∧ t.inst = s.inst) ∨
    (s.events.head? ≠ some .reset ∧ s.status.busy = true ∧ t.status.busy = false ∧ ∀ c, latched c s →
      (countReadout t).toNat = countAfter c (countReadout s).toNat ∧ t.inst = instAfter c s.inst) := by
  rcases step_cases h with ⟨es, he, rfl⟩ | ⟨acc, es, he, ha⟩ | ⟨he, ha⟩
  · exact .inl ⟨by rw [he]; rfl, rfl, rfl⟩
  · obtain ⟨hcount, hbusy⟩ := hostAccess_readout ha
    have hinst : t.inst = s.inst := by rw [hostAccess_frame ha]
    exact .inr (.inl ⟨by rw [he]; exact nofun, fun hb => absurd ((hbusy hb.1).symm.trans hb.2) nofun, hcount, hinst⟩)
  · have hreset : s.events.head? ≠ some .reset := by
      rcases he with he | he <;> rw [he] <;> exact nofun
    rcases sequencerStep_count_inst (hs.withEvents _) ha with ⟨hbusy, hrest⟩ | hrest
    · exact .inr (.inl ⟨hreset, fun hb => absurd (hb.1.symm.trans (hbusy.symm.trans hb.2)) nofun, hrest⟩)
    · exact .inr (.inr ⟨hreset, hrest⟩)

/-- With the earlier checks passed and COUNT at its greatest value a form of GENERATE is rejected as exhausted (R168). -/
theorem check_countExhausted {c : Instr} {s : State} (hc : usesOutput c = true) (hinst : s.inst = true)
    (hrange : ∀ r ∈ usedRegions c s.args, r.inRange s.cfg.dmemSize = true)
    (hapart : c = .generateA → (s.args.segRegion .seg0).overlaps s.args.outRegion = false)
    (hcount : s.count.toNat = 2 ^ 64 - 1) : check c s = .countExhausted := by
  unfold check
  rw [if_neg (by simp [hinst]), if_neg (by simpa using hrange), if_neg (fun h => by simp [hapart h.1] at h),
    if_pos ⟨hc, hcount⟩]

/-- Settles O23, from what a step does to the readout and from the order of the checks. -/
theorem countChangesOnlyAtCompletionOrReset : Obligations.CountChangesOnlyAtCompletionOrReset := by
  refine ⟨fun s t hs h => ?_, fun c s hc => check_countExhausted (by rcases hc with rfl | rfl <;> rfl)⟩
  rcases step_count_inst hs h with ⟨he, hcount, -⟩ | ⟨he, hb, hcount, -⟩ | ⟨he, hb, hb', hrow⟩
  · exact ⟨fun _ => hcount, fun h => absurd he h, fun h => absurd he h⟩
  · exact ⟨fun h => absurd h he, fun _ h h' => absurd ⟨h, h'⟩ hb, fun _ _ => hcount⟩
  · exact ⟨fun h => absurd h he, fun _ _ _ c hc => (hrow c hc).1, fun _ h => absurd ⟨hb, hb'⟩ h⟩

/-- Settles O24, from what a step does to INST. -/
theorem instChangesOnlyAtCompletionOrReset : Obligations.InstChangesOnlyAtCompletionOrReset := by
  intro s t hs h
  rcases step_count_inst hs h with ⟨he, -, hinst⟩ | ⟨he, hb, -, hinst⟩ | ⟨he, hb, hb', hrow⟩
  · exact ⟨fun _ => hinst, fun h => absurd he h, fun h => absurd he h⟩
  · exact ⟨fun h => absurd h he, fun _ h h' => absurd ⟨h, h'⟩ hb, fun _ _ => hinst⟩
  · exact ⟨fun h => absurd h he, fun _ _ _ c hc => (hrow c hc).2, fun _ h => absurd ⟨hb, hb'⟩ h⟩

end Sys2Proof.Machine
end

section
/-! What a host access cannot do: learn K and V, write the generator, disturb a running command, change the
configuration (spec/10_state.md R20, R35, R41; spec/60_exceptions.md R179). -/

namespace Sys2Proof.Machine

open Sys2Proof.Stated

/-! ### K and V hidden from the host

Two states that agree in all but K and V are `s` and `microSetKV k v s`. Each part of the host port is shown to do the
same on both. -/

section
variable {s : State} (k v : ByteString)

theorem exec_alike (c : Instr) : AlikeButKV (exec c s) (exec c (microSetKV k v s)) := by
  have hcheck : check c (microSetKV k v s) = check c s := rfl
  rw [exec_eq_offer, exec_eq_offer, hcheck]
  unfold offer
  rw [microSetKV_status]
  split
  · exact rfl
  · split <;> exact rfl

theorem writeCmd_alike (w : Word) : AlikeButKV (writeCmd w s) (writeCmd w (microSetKV k v s)) := by
  unfold writeCmd
  split
  · exact exec_alike k v _
  · unfold offerIllegal
    rw [microSetKV_status]
    split <;> exact rfl

theorem writeReg_alike (r : RegName) (w : Word) : AlikeButKV (writeReg r w s) (writeReg r w (microSetKV k v s)) := by
  cases r with
  | cmd => exact writeCmd_alike k v w
  | status =>
    simp only [writeReg, writeStatus]
    split <;> exact rfl
  | arg x =>
    simp only [writeReg]
    rw [microSetKV_status]
    split <;> exact rfl
  | _ => exact rfl

theorem readDmem_alike (a n : Nat) : AlikeButKV (readDmem a n s) (readDmem a n (microSetKV k v s)) := by
  unfold readDmem
  rw [microSetKV_status, microSetKV_dmem]
  split
  · exact rfl
  · split <;> exact rfl

theorem writeDmem_alike (a n : Nat) (w : Word) : SameButKV (writeDmem a n w s) (writeDmem a n w (microSetKV k v s)) := by
  unfold writeDmem
  rw [microSetKV_status]
  split <;> exact rfl

/-- With KV_READABLE = 0 no register shows K or V (R41). -/
theorem regValue_microSetKV (h : s.cfg.kvReadable = false) (r : RegName) :
    regValue r (microSetKV k v s) = regValue r s := by
  cases r with
  | kWin w => simp [regValue, h]
  | vWin w => simp [regValue, h]
  | _ => rfl

theorem readReg_alike (h : s.cfg.kvReadable = false) (r : RegName) :
    SameButKV (readReg r s) (readReg r (microSetKV k v s)) := by
  unfold readReg
  rw [microSetKV_status, regValue_microSetKV k v h]
  split <;> exact rfl

theorem hostAccess_alike (h : s.cfg.kvReadable = false) (acc : Access) :
    AlikeButKV (hostAccess acc s) (hostAccess acc (microSetKV k v s)) := by
  cases acc with
  | read width addr =>
    simp only [hostAccess]
    rw [microSetKV_cfg]
    split
    · split
      · exact readReg_alike k v h _
      · exact rfl
    · split
      · exact readDmem_alike k v _ _
      · exact rfl
    · exact rfl
  | write width addr w =>
    simp only [hostAccess]
    rw [microSetKV_cfg]
    split
    · split
      · exact writeReg_alike (s := respond 0 s) k v _ w
      · exact rfl
    · split
      · exact writeDmem_alike (s := respond 0 s) k v _ _ w
      · exact rfl
    · exact rfl

end

/-- Settles O31: the two states are one state and the same with other K and V. -/
theorem hostAccessesLearnNothingOfKAndV : Obligations.HostAccessesLearnNothingOfKAndV := by
  intro s t acc h hst
  have ht : microSetKV t.k t.v s = t := hst
  rw [← ht]
  exact hostAccess_alike t.k t.v h acc

/-! ### The generator and the configuration -/

/-- Settles O30, from the frame of a host access. -/
theorem hostAccessesCannotWriteTheGenerator : Obligations.HostAccessesCannotWriteTheGenerator := by
  intro s t acc es he h
  rw [hostAccess_frame ((step_of_event he).symm.trans h)]
  exact ⟨rfl, rfl, rfl, rfl⟩

/-- Settles O28: none of the three things a step can be writes the configuration. -/
theorem noStepChangesTheConfiguration : Obligations.NoStepChangesTheConfiguration := by
  intro s t h
  rcases step_cases h with ⟨es, -, rfl⟩ | ⟨acc, es, -, ha⟩ | ⟨-, ha⟩
  · rfl
  · rw [hostAccess_frame ha]
  · exact (sequencerStep_frame ha).1

/-! ### Host accesses between the turns of a running command -/

/-- s with another OVR, another answer on the bus and other events to come. -/
def withBus (o : Bool) (b : Option BusResponse) (es : List Event) (s : State) : State :=
  { s with status := { s.status with ovr := o }, resp := b, events := es }

/-- While a command runs a host access changes OVR and the answer on the bus only (R35). -/
theorem hostAccess_of_busy {acc : Access} {s t : State} (hb : s.status.busy = true) (h : hostAccess acc s = .next t) :
    t = withBus t.status.ovr t.resp s.events s := by
  have idle_absurd {p : Prop} (hi : s.status.busy = false) : p := absurd (hi.symm.trans hb) Bool.false_ne_true
  obtain ⟨r, rfl | ⟨-, rfl⟩ | ⟨w, rfl⟩ | ⟨x, w, hi, -⟩ | ⟨width, a, w, hi, -⟩ | ⟨w, hw⟩⟩ := hostAccess_next h
  · rfl
  · rfl
  · unfold writeStatus
    split <;> rfl
  · exact idle_absurd hi
  · exact idle_absurd hi
  · rw [writeCmd_busy w (show { s with resp := some r }.status.busy = true from hb)] at hw
    obtain rfl := Host.Outcome.next.inj hw
    rfl

/-- A micro-operation neither reads nor writes what `withBus` sets. -/
theorem microStep_withBus {op : MicroOp} {s t : State} (o : Bool) (b : Option BusResponse) (es : List Event)
    (h : microStep op s = .ok t) : microStep op (withBus o b es s) = .ok (withBus o b es t) := by
  cases op with
  | hk sep sel =>
    obtain ⟨m, hm, rfl⟩ := microStep_hk h
    have hm' : message (withBus o b es s) sel = .ok m := hm
    simp only [microStep, microHK, hm']
    rfl
  | ho off n =>
    obtain ⟨rfl, hsize⟩ := microStep_ho h
    refine microStep_ho_of (dmemWrite_of_le _ ?_)
    rw [List.length_take, hmac_length]
    exact hsize
  | _ => exact Except.ok.inj h ▸ rfl

theorem advance_withBus (o : Bool) (b : Option BusResponse) (es : List Event) (rest : List MicroOp) (s : State) :
    advance rest (withBus o b es s) = withBus o b es (advance rest s) := by
  cases rest <;> rfl

/-- A turn of the sequencer neither reads nor writes what `withBus` sets. -/
theorem sequencerStep_withBus {s t : State} (o : Bool) (b : Option BusResponse) (es : List Event)
    (h : sequencerStep s = .next t) : sequencerStep (withBus o b es s) = .next (withBus o b es t) := by
  rcases sequencerStep_cases s with ⟨hu, he⟩ | ⟨_, _, _, -, -, he⟩ | ⟨op, rest, u, hu, hm, he⟩
  · obtain rfl := Host.Outcome.next.inj (he.symm.trans h)
    unfold sequencerStep
    rw [show (withBus o b es s).uq = [] from hu]
  · exact nomatch he.symm.trans h
  · obtain rfl := Host.Outcome.next.inj (he.symm.trans h)
    rw [← advance_withBus]
    exact sequencerStep_of_ok (s := withBus o b es s) hu (microStep_withBus o b es hm)

/-- A turn takes one micro-operation off UQ, and while one is left the command goes on. -/
theorem sequencerStep_uq_length {s t : State} (h : sequencerStep s = .next t) (hu : 1 < s.uq.length) :
    t.uq.length + 1 = s.uq.length ∧ t.status.busy = s.status.busy := by
  rcases sequencerStep_cases s with ⟨hn, -⟩ | ⟨_, _, _, -, -, he⟩ | ⟨op, rest, u, hcons, hm, he⟩
  · exact absurd (hn ▸ hu) (by decide)
  · exact nomatch he.symm.trans h
  · obtain rfl := Host.Outcome.next.inj (he.symm.trans h)
    rw [hcons] at hu ⊢
    cases rest with
    | nil => exact absurd hu (Nat.lt_irrefl 1)
    | cons op' rest => exact ⟨rfl, by rw [advance_cons_status, microStep_status hm]⟩

/-- A run that goes on past its first step. -/
theorem runSteps_succ_next {n : Nat} {s u : State} (h : runSteps (n + 1) s = .next u) :
    ∃ t, step s = .next t ∧ runSteps n t = .next u := by
  simp only [runSteps] at h
  split at h
  · exact ⟨_, ‹_›, h⟩
  · exact nomatch h
  · exact nomatch h

/-- Two runs of one running command, of which the first has host accesses between its turns, stay alike. -/
theorem runSteps_withBus {es : List Event} {s t u : State} {o : Bool} {b : Option BusResponse}
    (hb : s.status.busy = true) (he : s.events = []) (hes : .reset ∉ es) (hlt : sequencerTurns es < s.uq.length)
    (ht : runSteps es.length (withBus o b es s) = .next t) (hu : runSteps (sequencerTurns es) s = .next u) :
    SameButBus t u := by
  induction es generalizing s o b with
  | nil =>
    obtain rfl := Host.Outcome.next.inj ht
    obtain rfl := Host.Outcome.next.inj hu
    unfold SameButBus withBus
    rw [← he]
  | cons e es ih =>
    have hes' : .reset ∉ es := fun h => hes (List.mem_cons_of_mem e h)
    obtain ⟨t', hstep, ht'⟩ := runSteps_succ_next ht
    have hperform := (step_of_event (s := withBus o b (e :: es) s) rfl).symm.trans hstep
    cases e with
    | reset => exact absurd List.mem_cons_self hes
    | host acc =>
      rw [show sequencerTurns (.host acc :: es) = sequencerTurns es from rfl] at hlt hu
      have hacc : t' = withBus t'.status.ovr t'.resp es s :=
        hostAccess_of_busy (s := withBus o b es s) hb hperform
      rw [hacc] at ht'
      exact ih hb he hes' hlt ht' hu
    | sequencer =>
      rw [show sequencerTurns (.sequencer :: es) = sequencerTurns es + 1 from List.count_cons_self] at hlt hu
      obtain ⟨u', hu1, hu2⟩ := runSteps_succ_next hu
      rw [step_of_no_event he] at hu1
      have hturn := sequencerStep_withBus o b es hu1
      obtain rfl := Host.Outcome.next.inj (hperform.symm.trans hturn)
      obtain ⟨hlen, hbusy⟩ := sequencerStep_uq_length hu1 (by omega)
      obtain ⟨-, -, -, -, hev, -⟩ := sequencerStep_frame hu1
      exact ih (hbusy.trans hb) (hev.trans he) hes' (by omega) ht' hu2

/-- Settles O27, by induction on the events to come (`runSteps_withBus`). -/
theorem hostAccessesDoNotDisturbARunningCommand : Obligations.HostAccessesDoNotDisturbARunningCommand :=
  fun s _ _ _ _ hb hes hlt ht hu =>
    runSteps_withBus (s := { s with events := [] }) (o := s.status.ovr) (b := s.resp) hb rfl hes hlt ht hu

end Sys2Proof.Machine
end

section
/-! The register map and the busy lock (spec/10_state.md R28, R35, R39, R41, R42, R46). -/

namespace Sys2Proof.Machine

open Sys2Proof.Stated

/-! ### The register map (R43) -/

/-- The registers of the map that have an offset of their own. -/
def namedRegs : List (Nat × RegName) :=
  [(0x000, .id), (0x004, .param), (0x008, .dmemSizeR), (0x00C, .reseedLimitR), (0x010, .maxGenR), (0x020, .cmd),
   (0x024, .status), (0x028, .countLo), (0x02C, .countHi)] ++ argOffsets.map fun p => (p.1, .arg p.2)

/-- Where a register stands in the map: at its own offset, in a window, or at an offset that the map leaves free. -/
def StandsAt (off : Nat) (r : RegName) : Prop :=
  (off, r) ∈ namedRegs ∨
  off ∉ namedOffsets ∧
    ((0x100 ≤ off ∧ off < 0x140 ∧ r = .kWin ((off - 0x100) / 4)) ∨
     (0x140 ≤ off ∧ off < 0x180 ∧ r = .vWin ((off - 0x140) / 4)) ∨
     (¬(0x100 ≤ off ∧ off < 0x180) ∧ r = .reserved))

theorem standsAt_regAt (off : Nat) : StandsAt off (regAt off) := by
  unfold regAt
  iterate 17
    refine iteInduction (motive := StandsAt off) (fun h => .inl (by rw [h]; decide)) fun _ => ?_
  refine .inr ⟨by simp [namedOffsets, argOffsets, *], ?_⟩
  split
  · exact .inl ⟨‹_ ∧ _›.1, ‹_ ∧ _›.2, rfl⟩
  · split
    · exact .inr (.inl ⟨‹_ ∧ _›.1, ‹_ ∧ _›.2, rfl⟩)
    · exact .inr (.inr ⟨by omega, rfl⟩)

/-- A register that is neither a window word nor reserved stands at its own offset. -/
theorem mem_namedRegs {off : Nat} {r : RegName} (h : regAt off = r) (hk : ∀ w, r ≠ .kWin w) (hv : ∀ w, r ≠ .vWin w)
    (hr : r ≠ .reserved) : (off, r) ∈ namedRegs := by
  subst h
  rcases standsAt_regAt off with h | ⟨-, ⟨-, -, h⟩ | ⟨-, -, h⟩ | ⟨-, h⟩⟩
  · exact h
  · exact absurd h (hk _)
  · exact absurd h (hv _)
  · exact absurd h hr

theorem regAt_eq_cmd {off : Nat} (h : regAt off = .cmd) : off = 0x020 := by
  simpa [namedRegs, argOffsets] using mem_namedRegs h nofun nofun nofun

theorem regAt_eq_status {off : Nat} (h : regAt off = .status) : off = 0x024 := by
  simpa [namedRegs, argOffsets] using mem_namedRegs h nofun nofun nofun

/-- An offset selects an argument register only as the table of R28 says. -/
theorem mem_argOffsets {off : Nat} {x : ArgReg} (h : regAt off = .arg x) : (off, x) ∈ argOffsets := by
  simpa [namedRegs] using mem_namedRegs h nofun nofun nofun

/-- The offsets of the table of R28 are aligned and select their registers. -/
theorem regAt_of_mem_argOffsets {off : Nat} {x : ArgReg} (h : (off, x) ∈ argOffsets) :
    regAt off = .arg x ∧ off < regWindowSize ∧ off % 4 = 0 := by
  have table : ∀ p ∈ argOffsets, regAt p.1 = .arg p.2 ∧ p.1 < regWindowSize ∧ p.1 % 4 = 0 := by decide
  exact table (off, x) h

/-- The busy lock covers exactly the reads of the two windows of R41. -/
theorem readLocked_regAt_iff (off : Nat) : (regAt off).readLocked = true ↔ 0x100 ≤ off ∧ off < 0x180 := by
  rcases standsAt_regAt off with h | ⟨-, ⟨h1, h2, h⟩ | ⟨h1, h2, h⟩ | ⟨h1, h⟩⟩
  · have table : ∀ p ∈ namedRegs, p.2.readLocked = false ∧ p.1 < 0x100 := by decide
    obtain ⟨hl, ho⟩ := table _ h
    exact ⟨fun h' => absurd (hl.symm.trans h') Bool.false_ne_true, fun h' => absurd ho (Nat.not_lt.mpr h'.1)⟩
  · exact ⟨fun _ => ⟨h1, by omega⟩, fun _ => by rw [h]; rfl⟩
  · exact ⟨fun _ => ⟨by omega, h2⟩, fun _ => by rw [h]; rfl⟩
  · exact ⟨fun h' => by rw [h] at h'; exact absurd h' Bool.false_ne_true, fun h' => absurd h' h1⟩

/-- An offset that is neither named nor in a window is reserved (R42). -/
theorem regAt_eq_reserved {off : Nat} (hn : off ∉ namedOffsets) (hw : ¬(0x100 ≤ off ∧ off < 0x180)) :
    regAt off = .reserved := by
  rcases standsAt_regAt off with h | ⟨-, ⟨h1, h2, -⟩ | ⟨h1, h2, -⟩ | ⟨-, h⟩⟩
  · have table : ∀ p ∈ namedRegs, p.1 ∈ namedOffsets := by decide
    exact absurd (table _ h) hn
  · omega
  · omega
  · exact h

theorem regAt_kWin {n : Nat} (h : n < 16) : regAt (0x100 + 4 * n) = .kWin n := by
  have table : ∀ n < 16, regAt (0x100 + 4 * n) = .kWin n := by decide
  exact table n h

theorem regAt_vWin {n : Nat} (h : n < 16) : regAt (0x140 + 4 * n) = .vWin n := by
  have table : ∀ n < 16, regAt (0x140 + 4 * n) = .vWin n := by decide
  exact table n h

/-! ### Where a host access takes effect -/

/-- What a host access that answers a next state does, by its address: nothing but an answer; a locked access
recorded; DMEM bytes stored while idle; an aligned 32-bit write of a register. -/
theorem hostAccess_effect {acc : Access} {s t : State} (h : hostAccess acc s = .next t) :
    (∃ r, t = { s with resp := some r }) ∨
    (s.status.busy = true ∧ ∃ r, t = { markOverrun s with resp := some r }) ∨
    (∃ width addr a w, acc = .write width addr w ∧ target s.cfg addr = .dmem a ∧ s.status.busy = false ∧
      dmemAccessLegal s.cfg width a = true ∧
      t = { respond 0 s with dmem := memWrite a (leBytes width.bytes w) s.dmem }) ∨
    (∃ addr off w, acc = .write .w32 addr w ∧ target s.cfg addr = .reg off ∧
      writeReg (regAt off) w (respond 0 s) = .next t) := by
  cases acc with
  | read width addr =>
    simp only [hostAccess] at h
    split at h
    · rename_i off _
      obtain rfl := Host.Outcome.next.inj h
      split
      · rcases readReg_cases (regAt off) s with ⟨-, hb, he⟩ | ⟨-, he⟩
        · exact .inr (.inl ⟨hb, _, he⟩)
        · exact .inl ⟨_, he⟩
      · exact .inl ⟨_, rfl⟩
    · split at h
      · unfold readDmem at h
        split at h
        · exact .inr (.inl ⟨‹_›, _, (Host.Outcome.next.inj h).symm⟩)
        · split at h
          · exact nomatch h
          · exact .inl ⟨_, (Host.Outcome.next.inj h).symm⟩
      · exact .inl ⟨_, (Host.Outcome.next.inj h).symm⟩
    · exact nomatch h
  | write width addr w =>
    simp only [hostAccess] at h
    split at h
    · rename_i off htarget
      split at h
      · rename_i hl
        obtain ⟨rfl, -⟩ := of_decide_eq_true hl
        exact .inr (.inr (.inr ⟨addr, off, w, rfl, htarget, h⟩))
      · exact .inl ⟨_, (Host.Outcome.next.inj h).symm⟩
    · rename_i a htarget
      obtain rfl := Host.Outcome.next.inj h
      split
      · rename_i hl
        unfold writeDmem
        split
        · exact .inr (.inl ⟨‹_›, _, rfl⟩)
        · rename_i hb
          exact .inr (.inr (.inl ⟨width, addr, a, w, rfl, htarget, Bool.eq_false_iff.mpr hb, hl, rfl⟩))
      · exact .inl ⟨_, rfl⟩
    · exact nomatch h

/-- A command word keeps the argument registers, and sets OVR only by being dropped (R165). -/
theorem writeCmd_args_ovr {w : Word} {s t : State} (h : writeCmd w s = .next t) :
    t.args = s.args ∧ (t.status.ovr = s.status.ovr ∨ s.status.busy = true ∧ t.status.ovr = true) := by
  rcases writeCmd_cases h with ⟨hb, rfl⟩ | ⟨-, c, -, -, rfl⟩ | ⟨-, e, -, rfl⟩
  · exact ⟨rfl, .inr ⟨hb, rfl⟩⟩
  · exact ⟨rfl, .inl rfl⟩
  · exact ⟨rfl, .inl rfl⟩

/-- A write of STATUS clears OVR when bit 8 is set (R154). -/
theorem writeStatus_ovr (w : Word) (s : State) : (writeStatus w s).status.ovr = (s.status.ovr && !w.getLsbD 8) := by
  unfold writeStatus
  cases w.getLsbD 8
  · exact (Bool.and_true _).symm
  · exact (Bool.and_false _).symm

/-- An argument register changes only by a host's 32-bit write of it while no command runs. -/
theorem hostAccess_args {acc : Access} {s t : State} (h : hostAccess acc s = .next t) :
    t.args = s.args ∨ ∃ addr off w x, acc = .write .w32 addr w ∧ target s.cfg addr = .reg off ∧
      (off, x) ∈ argOffsets ∧ s.status.busy = false ∧ t.args = s.args.set x w := by
  rcases hostAccess_effect h with ⟨r, rfl⟩ | ⟨-, r, rfl⟩ | ⟨_, _, _, _, -, -, -, -, rfl⟩ | ⟨addr, off, w, rfl, ht, hw⟩
  · exact .inl rfl
  · exact .inl rfl
  · exact .inl rfl
  · rcases writeReg_cases (regAt off) w (respond 0 s) with ⟨-, he⟩ | ⟨-, he⟩ | ⟨x, -, -, he⟩ | ⟨x, hx, hb, he⟩ | he
    · exact .inl (writeCmd_args_ovr (he.symm.trans hw)).1
    · obtain rfl := Host.Outcome.next.inj (he.symm.trans hw)
      exact .inl (writeStatus_args w _)
    · exact .inl (Host.Outcome.next.inj (he.symm.trans hw) ▸ rfl)
    · exact .inr ⟨addr, off, w, x, rfl, ht, mem_argOffsets hx, hb, Host.Outcome.next.inj (he.symm.trans hw) ▸ rfl⟩
    · exact .inl (Host.Outcome.next.inj (he.symm.trans hw) ▸ rfl)

/-- OVR changes only by a host access while a command runs, which sets it, or by a write of STATUS with bit 8 set,
which clears it. -/
theorem hostAccess_ovr {acc : Access} {s t : State} (h : hostAccess acc s = .next t) :
    t.status.ovr = s.status.ovr ∨ (s.status.busy = true ∧ t.status.ovr = true) ∨
    ∃ addr w, acc = .write .w32 addr w ∧ target s.cfg addr = .reg 0x024 ∧
      t.status.ovr = (s.status.ovr && !w.getLsbD 8) := by
  rcases hostAccess_effect h with ⟨r, rfl⟩ | ⟨hb, r, rfl⟩ | ⟨_, _, _, _, -, -, -, -, rfl⟩ | ⟨addr, off, w, rfl, ht, hw⟩
  · exact .inl rfl
  · exact .inr (.inl ⟨hb, rfl⟩)
  · exact .inl rfl
  · rcases writeReg_cases (regAt off) w (respond 0 s) with ⟨-, he⟩ | ⟨hr, he⟩ | ⟨x, -, hb, he⟩ | ⟨x, -, -, he⟩ | he
    · exact (writeCmd_args_ovr (he.symm.trans hw)).2.imp_right .inl
    · obtain rfl := regAt_eq_status hr
      obtain rfl := Host.Outcome.next.inj (he.symm.trans hw)
      exact .inr (.inr ⟨addr, w, rfl, ht, writeStatus_ovr w _⟩)
    · exact .inr (.inl ⟨hb, Host.Outcome.next.inj (he.symm.trans hw) ▸ rfl⟩)
    · exact .inl (Host.Outcome.next.inj (he.symm.trans hw) ▸ rfl)
    · exact .inl (Host.Outcome.next.inj (he.symm.trans hw) ▸ rfl)

/-- Settles O32: of the three things a step can be only a host access writes an argument register. -/
theorem argumentRegistersChangeOnlyByIdleHostWrites : Obligations.ArgumentRegistersChangeOnlyByIdleHostWrites := by
  intro s t x h hne
  rcases step_cases h with ⟨es, he, -⟩ | ⟨acc, es, he, ha⟩ | ⟨-, ha⟩
  · exact .inl (by rw [he]; rfl)
  · rcases hostAccess_args ha with hargs | ⟨addr, off, w, y, rfl, ht, hy, hb, hargs⟩
    · exact absurd (congrArg (Args.get · x) hargs) hne
    · obtain rfl : x = y := by
        by_contra hxy
        exact hne (by rw [hargs]; exact Args.get_set_other _ _ hxy)
      exact .inr ⟨addr, off, w, es, he, ht, hy, hb, by rw [hargs]; exact Args.get_set_same _ _ _⟩
  · obtain ⟨-, hargs, -⟩ := sequencerStep_frame ha
    exact absurd (congrArg (Args.get · x) hargs) hne

/-! ### The busy lock (R35) -/

/-- Reading a window word, the command being running: 0, and OVR. -/
theorem readReg_of_locked {r : RegName} {s : State} (hr : r.readLocked = true) (hb : s.status.busy = true) :
    readReg r s = overrun (answered 0 s) := by
  rcases readReg_cases r s with ⟨-, -, he⟩ | ⟨hn, -⟩
  · exact he
  · exact absurd ⟨hr, hb⟩ hn

/-- Reading a register that no lock covers, or any while the block is idle: its value. -/
theorem readReg_of_free {r : RegName} {s : State} (h : r.readLocked = false ∨ s.status.busy = false) :
    readReg r s = answered (regValue r s) s := by
  rcases readReg_cases r s with ⟨hr, hb, -⟩ | ⟨-, he⟩
  · rcases h with h | h
    · exact absurd (h.symm.trans hr) Bool.false_ne_true
    · exact absurd (h.symm.trans hb) Bool.false_ne_true
  · exact he

/-- A write of an argument register while a command runs is dropped. -/
theorem writeArgReg_of_busy {off : Nat} {x : ArgReg} {s : State} (hx : (off, x) ∈ argOffsets)
    (hb : s.status.busy = true) (w : Word) :
    Took (hostAccess (.write .w32 (s.cfg.regBase + off) w) s) (overrun s) := by
  obtain ⟨hr, hoff, h4⟩ := regAt_of_mem_argOffsets hx
  refine ⟨0, ?_⟩
  rw [hostAccess_writeReg s w hoff h4, hr]
  simp only [writeReg, respond_status, hb, if_true]
  rfl

/-- A DMEM access while a command runs is dropped (R35). -/
theorem dmemAccess_of_busy {s : State} (hw : s.cfg.wellFormed = true) (hb : s.status.busy = true) {width : Width}
    {a : Nat} (w : Word) (h0 : a % width.bytes = 0) (h1 : a + width.bytes ≤ s.cfg.dmemSize) :
    Took (hostAccess (.write width (s.cfg.dmemBase + a) w) s) (overrun s) ∧
      hostAccess (.read width (s.cfg.dmemBase + a)) s = .next (overrun (answered 0 s)) := by
  have hlegal : dmemAccessLegal s.cfg width a = true := decide_eq_true ⟨h0, h1⟩
  have hlt : a < s.cfg.dmemSize := by cases width <;> simp only [Width.bytes] at h1 <;> omega
  refine ⟨⟨0, ?_⟩, ?_⟩
  · rw [hostAccess_writeDmem hw width w hlt, if_pos hlegal]
    unfold writeDmem
    rw [respond_status, if_pos hb]
    rfl
  · rw [hostAccess_readDmem hw width hlt, if_pos hlegal]
    unfold readDmem
    rw [if_pos hb]
    rfl

/-- A write of neither CMD nor an argument register never sets OVR (R41, R42, R154, R158). -/
theorem writeReg_never_sets_ovr {off : Nat} {w : Word} {s t : State} (hoff : off < 0x200) (h4 : off % 4 = 0)
    (hcmd : off ≠ 0x020) (harg : ∀ x, (off, x) ∉ argOffsets)
    (h : hostAccess (.write .w32 (s.cfg.regBase + off) w) s = .next t) (ho : t.status.ovr = true) :
    s.status.ovr = true := by
  rw [hostAccess_writeReg s w hoff h4] at h
  rcases writeReg_cases (regAt off) w (respond 0 s) with ⟨hr, -⟩ | ⟨-, he⟩ | ⟨x, hx, -⟩ | ⟨x, hx, -⟩ | he
  · exact absurd (regAt_eq_cmd hr) hcmd
  · obtain rfl := Host.Outcome.next.inj (he.symm.trans h)
    rw [writeStatus_ovr, Bool.and_eq_true] at ho
    exact ho.1
  · exact absurd (mem_argOffsets hx) (harg x)
  · exact absurd (mem_argOffsets hx) (harg x)
  · obtain rfl := Host.Outcome.next.inj (he.symm.trans h)
    exact ho

/-- OVR over one step: only reset and a write of STATUS with bit 8 set clear it, and only a host access while a
command runs sets it. -/
theorem step_ovr {s t : State} (h : step s = .next t) :
    (s.status.ovr = true → t.status.ovr = false →
      s.events.head? = some .reset ∨
      ∃ addr w es, s.events = .host (.write .w32 addr w) :: es ∧ target s.cfg addr = .reg 0x024 ∧
        w.getLsbD 8 = true) ∧
    (s.status.ovr = false → t.status.ovr = true → s.status.busy = true ∧ ∃ acc es, s.events = .host acc :: es) := by
  rcases step_cases h with ⟨es, he, rfl⟩ | ⟨acc, es, he, ha⟩ | ⟨-, ha⟩
  · exact ⟨fun _ _ => .inl (by rw [he]; rfl), nofun⟩
  · rcases hostAccess_ovr ha with ho | ⟨hb, ho⟩ | ⟨addr, w, rfl, ht, ho⟩
    · exact ⟨fun h1 h2 => absurd (h1.symm.trans (ho.symm.trans h2)) nofun,
        fun h1 h2 => absurd (h1.symm.trans (ho.symm.trans h2)) nofun⟩
    · exact ⟨fun _ h2 => absurd (ho.symm.trans h2) nofun, fun _ _ => ⟨hb, acc, es, he⟩⟩
    · refine ⟨fun h1 h2 => .inr ⟨addr, w, es, he, ht, ?_⟩, fun h1 h2 => ?_⟩
      · simpa [h1, h2] using ho
      · simp [h1, h2] at ho
  · obtain ⟨-, -, -, -, -, -, ho, -⟩ := sequencerStep_frame ha
    exact ⟨fun h1 h2 => absurd (h1.symm.trans (ho.symm.trans h2)) nofun,
      fun h1 h2 => absurd (h1.symm.trans (ho.symm.trans h2)) nofun⟩

/-- Settles O33, one lemma for each kind of access and one for OVR over a step. -/
theorem busyLockDropsAndRecords : Obligations.BusyLockDropsAndRecords := by
  refine ⟨fun s hw hb => ⟨fun w => ⟨0, ?_⟩, fun off x w hx => writeArgReg_of_busy hx hb w,
    fun width a w h0 h1 => dmemAccess_of_busy hw hb w h0 h1, fun off h1 h2 h4 => ?_, fun off h1 h4 hn => ?_,
    fun off w t h1 h4 hcmd harg => writeReg_never_sets_ovr h1 h4 hcmd harg⟩, fun s t => step_ovr⟩
  · exact (hostAccess_cmd w s).trans (writeCmd_busy w (s := respond 0 s) hb)
  · rw [hostAccess_readReg s (by rw [regWindowSize]; omega) h4,
      readReg_of_locked ((readLocked_regAt_iff off).mpr ⟨h1, h2⟩) hb]
  · have hfree : (regAt off).readLocked = false := Bool.eq_false_iff.mpr fun h => hn ((readLocked_regAt_iff off).mp h)
    exact ⟨_, by rw [hostAccess_readReg s h1 h4, readReg_of_free (.inl hfree)]⟩

/-! ### The windows of K and V, reserved offsets, reset (R41, R42, R46) -/

/-- Byte i of a window word is byte 4w + i of the string, 0 past its end (R41). -/
theorem windowWord_byte (x : ByteString) (w : Nat) {i : Nat} (hi : i < 4) :
    (windowWord x w >>> (8 * i)).setWidth 8 = x.getD (4 * w + i) 0 := by
  have byte : [x.getD (4 * w) 0, x.getD (4 * w + 1) 0, x.getD (4 * w + 2) 0, x.getD (4 * w + 3) 0][i]? =
      some (x.getD (4 * w + i) 0) := by
    match i, hi with
    | 0, _ => rfl
    | 1, _ => rfl
    | 2, _ => rfl
    | 3, _ => rfl
  have word := leWord_byte (bs := [x.getD (4 * w) 0, x.getD (4 * w + 1) 0, x.getD (4 * w + 2) 0,
    x.getD (4 * w + 3) 0]) (Nat.le_refl 4) hi
  exact (Option.some.inj (byte.symm.trans word)).symm

/-- Settles O41: a window word is read locked, hidden or byte by byte. -/
theorem windowsShowKAndVOnlyWhenReadable : Obligations.WindowsShowKAndVOnlyWhenReadable := by
  intro s n hn
  have hk : 0x100 + 4 * n < regWindowSize ∧ (0x100 + 4 * n) % 4 = 0 := by rw [regWindowSize]; omega
  have hv : 0x140 + 4 * n < regWindowSize ∧ (0x140 + 4 * n) % 4 = 0 := by rw [regWindowSize]; omega
  rw [hostAccess_readReg s hk.1 hk.2, hostAccess_readReg s hv.1 hv.2, regAt_kWin hn, regAt_vWin hn]
  refine ⟨fun hb hr => ?_, fun hb hr => ?_, fun hb => ?_, fun w => ?_⟩
  · rw [readReg_of_free (.inr hb), readReg_of_free (.inr hb)]
    refine ⟨_, _, rfl, rfl, fun i hi => ?_⟩
    simp only [regValue, hr, if_true]
    exact ⟨windowWord_byte s.k n hi, windowWord_byte s.v n hi⟩
  · rw [readReg_of_free (.inr hb), readReg_of_free (.inr hb)]
    simp only [regValue, hr, Bool.false_eq_true, if_false, and_self]
  · rw [readReg_of_locked rfl hb, readReg_of_locked rfl hb]
    exact ⟨rfl, rfl⟩
  · rw [hostAccess_writeReg s w hk.1 hk.2, hostAccess_writeReg s w hv.1 hv.2, regAt_kWin hn, regAt_vWin hn]
    exact ⟨⟨0, rfl⟩, 0, rfl⟩

/-- Settles O40: the register map leaves these offsets free. -/
theorem reservedOffsetsReadZero : Obligations.ReservedOffsetsReadZero := by
  refine ⟨fun s off w hoff h4 hn hw => ?_, fun cfg off => ⟨fun h => ?_, target_reg cfg⟩⟩
  · rw [hostAccess_readReg s hoff h4, hostAccess_writeReg s w hoff h4, regAt_eq_reserved hn hw,
      readReg_of_free (.inl rfl)]
    exact ⟨rfl, 0, rfl⟩
  · unfold target regWindowSize at h
    split_ifs at h
    omega

/-- Settles O52, by evaluating the reset state. -/
theorem resetStateIsAsListed : Obligations.ResetStateIsAsListed :=
  ⟨rfl, rfl, rfl, rfl, fun x => by cases x <;> rfl, by decide, rfl, byte?_nil, by decide, by decide, by decide,
    by decide, by decide⟩

/-! ### The command register (R39) -/

/-- The opcode and the A bit of a decoded command are those of its word (R76, R80). -/
theorem fields_of_decode {w : Word} {c : Instr} (h : decode w = .command c) :
    c.opc = w.extractLsb' 0 4 ∧ c.aBit = w.getLsbD 4 := by
  have fields {f : CmdFields} (hf : decodeFields f = .command c) : c.opc = f.opc ∧ c.aBit = f.a := by
    unfold decodeFields at hf
    split_ifs at hf <;> cases hf <;> simp [Instr.opc, Instr.aBit, *]
  exact fields h

/-- A CMD write that makes an idle block busy has put the word's opcode and A bit into LATCH (R29, R169). -/
theorem writeCmd_latch {w : Word} {s t : State} (h : writeCmd w s = .next t) (hs : s.status.busy = false)
    (ht : t.status.busy = true) : t.latch.opc = w.extractLsb' 0 4 ∧ t.latch.a = w.getLsbD 4 := by
  rcases writeCmd_cases h with ⟨hb, -⟩ | ⟨-, c, hc, -, rfl⟩ | ⟨-, e, -, rfl⟩
  · exact absurd (hs.symm.trans hb) Bool.false_ne_true
  · exact fields_of_decode hc
  · exact absurd (hs.symm.trans ht) Bool.false_ne_true

/-- An illegal word offered while idle is rejected (R156). -/
theorem writeCmd_illegal {w : Word} {s : State} {why : IllegalWord} (hb : s.status.busy = false)
    (hw : decode w = .illegal why) : writeCmd w s = .next (reject .illegalCmd s) := by
  unfold writeCmd
  rw [hw]
  exact if_neg (by rw [hb]; exact Bool.false_ne_true)

theorem hostAccess_readCmd (s : State) : hostAccess (.read .w32 (s.cfg.regBase + 0x020)) s = .next (answered 0 s) :=
  hostAccess_readReg s (by decide) (by decide)

/-- Settles O56, from what a command word does. -/
theorem cmdOffersItsWordAndReadsZero : Obligations.CmdOffersItsWordAndReadsZero := by
  refine ⟨hostAccess_readCmd, fun s w => ?_⟩
  have hcmd : hostAccess (.write .w32 (s.cfg.regBase + 0x020) w) s = writeCmd w (respond 0 s) := hostAccess_cmd w s
  rw [hcmd]
  refine ⟨fun hb => ⟨0, writeCmd_busy w (s := respond 0 s) hb⟩,
    fun hb why hw => ⟨0, writeCmd_illegal (s := respond 0 s) hb hw⟩, fun c hc => ⟨0, ?_⟩, ?_⟩
  · unfold writeCmd
    rw [hc]
    rfl
  · obtain ⟨t, ht⟩ := writeCmd_total w (respond 0 s)
    refine ⟨t, ht, ?_, fun hs => writeCmd_latch ht hs⟩
    have hcfg : s.cfg = t.cfg := by rw [writeCmd_next ht]; rfl
    rw [hcfg]
    exact hostAccess_readCmd t

end Sys2Proof.Machine
end

section
/-! The run of an accepted GENERATE.A to its function form, and what its output depends on (spec/10_state.md R24;
spec/40_update.md R100; spec/43_generate.md R131, R134). -/

namespace Sys2Proof.Machine

open Sys2Proof.Stated

/-- A turn that leaves something to do only takes its micro-operation off UQ (R95). -/
theorem advance_of_ne_nil {rest : List MicroOp} (h : rest ≠ []) (s : State) :
    advance rest s = { s with uq := rest } := by
  cases rest with
  | nil => exact absurd rfl h
  | cons op ops => rfl

/-! ### Pieces of micro-programs run by the sequencer alone -/

/-- HK succeeds when its message can be read (R98). -/
theorem microStep_hk_of {sep : Sep} {sel : MsgSel} {s : State} {m : ByteString} (h : message s sel = .ok m) :
    microStep (.hk sep sel) s = .ok { s with k := hmac s.cfg s.k (s.v ++ [sep.byte] ++ m) } := by
  simp only [microStep, microHK, h]

/-- UPD(present(sel)) gives the K and V of the function `update` (R100, R101). -/
theorem runSteps_updPresent {s : State} {sel : MsgSel} {m : ByteString} {rest : List MicroOp} (he : s.events = [])
    (hm : message s sel = .ok m) (hu : s.uq = updPresent sel ++ rest) :
    runSteps 4 s = .next (advance rest
      { s with k := (update s.cfg s.k s.v (some m)).1, v := (update s.cfg s.k s.v (some m)).2 }) := by
  refine Eq.trans (runSteps_cons_of he hu (microStep_hk_of hm)) ?_
  refine Eq.trans (runSteps_cons_of (n := 2) he rfl rfl) ?_
  refine Eq.trans (runSteps_cons_of (n := 1) he rfl (microStep_hk_of hm)) ?_
  refine Eq.trans (runSteps_cons_of (n := 0) he rfl rfl) ?_
  cases rest <;> rfl

/-- The first i tags of the output loop, one after another (R134). -/
def tagChain (cfg : Config) (K V : ByteString) (i : Nat) : ByteString :=
  (List.range i).flatMap fun j => outputTag cfg K V (j + 1)

theorem tagChain_succ (cfg : Config) (K V : ByteString) (i : Nat) :
    tagChain cfg K V (i + 1) = tagChain cfg K V i ++ outputTag cfg K V (i + 1) := by
  simp [tagChain, List.range_succ]

@[simp] theorem outputTag_succ_length (cfg : Config) (K V : ByteString) (i : Nat) :
    (outputTag cfg K V (i + 1)).length = cfg.hashLen := hmac_length ..

@[simp] theorem tagChain_length (cfg : Config) (K V : ByteString) (i : Nat) :
    (tagChain cfg K V i).length = i * cfg.hashLen := by
  induction i with
  | zero => rw [Nat.zero_mul]; rfl
  | succ i ih => rw [tagChain_succ, List.length_append, ih, outputTag_succ_length, Nat.succ_mul]

/-- The output is N bytes long (R134). -/
theorem outputBytes_length {cfg : Config} (hL : 1 ≤ cfg.hashLen) (K V : ByteString) (N : Nat) :
    (outputBytes cfg K V N).length = N := by
  have hN : N ≤ blockCount cfg.hashLen N * cfg.hashLen := (blockCount_le_iff hL _).mp (Nat.le_refl _)
  show ((tagChain cfg K V (blockCount cfg.hashLen N)).take N).length = N
  rw [List.length_take, tagChain_length, Nat.min_eq_left hN]

/-- Block i adds its n_i bytes to what the blocks before it have written (R132, R134). -/
theorem take_tagChain_succ {cfg : Config} (K V : ByteString) {N i : Nat} :
    (tagChain cfg K V (i + 1)).take N =
      (tagChain cfg K V i).take N ++ (outputTag cfg K V (i + 1)).take (blockLen cfg.hashLen N i) := by
  rw [tagChain_succ, List.take_append, tagChain_length, blockLen, ← outputTag_succ_length cfg K V i, Nat.min_comm,
    ← List.take_take, List.take_length]

/-- The state after i blocks of the output loop. -/
def afterBlocks (s : State) (N i : Nat) (uq : List MicroOp) : State :=
  { s with
    v := outputTag s.cfg s.k s.v i
    dmem := memWrite s.latch.args.outAddr.toNat ((tagChain s.cfg s.k s.v i).take N) s.dmem
    uq := uq }

theorem drop_outputLoop {L N i : Nat} (h : i < blockCount L N) :
    (outputLoop L N).drop i = .ho (i * L) (blockLen L N i) :: (outputLoop L N).drop (i + 1) := by
  rw [List.drop_eq_getElem_cons (by simpa [outputLoop] using h)]
  simp [outputLoop]

/-- Block i of the output loop, run in the state that the blocks before it leave. -/
theorem microStep_block {s : State} {N i : Nat} {uq : List MicroOp} (hL : 1 ≤ s.cfg.hashLen)
    (hr : N = 0 ∨ s.latch.args.outAddr.toNat + N ≤ s.cfg.dmemSize) (hi : i < blockCount s.cfg.hashLen N) :
    microStep (.ho (i * s.cfg.hashLen) (blockLen s.cfg.hashLen N i)) (afterBlocks s N i uq) =
      .ok (afterBlocks s N (i + 1) uq) := by
  have hiN : i * s.cfg.hashLen < N := Nat.lt_of_not_le fun h => absurd ((blockCount_le_iff hL i).mpr h) (by omega)
  have hsize : ((outputTag s.cfg s.k s.v (i + 1)).take (blockLen s.cfg.hashLen N i)).length = 0 ∨
      s.latch.args.outAddr.toNat + i * s.cfg.hashLen +
        ((outputTag s.cfg s.k s.v (i + 1)).take (blockLen s.cfg.hashLen N i)).length ≤ s.cfg.dmemSize := by
    rw [List.length_take, outputTag_succ_length, blockLen]
    omega
  rw [microStep_ho_of (s := afterBlocks s N i uq) (dmemWrite_of_le _ hsize)]
  simp only [afterBlocks, take_tagChain_succ, memWrite_append, List.length_take, tagChain_length,
    Nat.min_eq_right (Nat.le_of_lt hiN)]
  rfl

/-- The first i blocks of the output loop, with something left to do after the loop. -/
theorem runSteps_blocks {s : State} {N : Nat} {rest : List MicroOp} (he : s.events = []) (hL : 1 ≤ s.cfg.hashLen)
    (hr : N = 0 ∨ s.latch.args.outAddr.toNat + N ≤ s.cfg.dmemSize) (hrest : rest ≠ [])
    (hu : s.uq = outputLoop s.cfg.hashLen N ++ rest) {i : Nat} (hi : i ≤ blockCount s.cfg.hashLen N) :
    runSteps i s = .next (afterBlocks s N i ((outputLoop s.cfg.hashLen N).drop i ++ rest)) := by
  induction i with
  | zero =>
    rw [List.drop_zero, ← hu]
    simp only [afterBlocks, tagChain, outputTag, List.range_zero, List.flatMap_nil, List.take_nil, memWrite]
    rfl
  | succ i ih =>
    rw [runSteps_add_of (ih (Nat.le_of_succ_le hi)), drop_outputLoop hi]
    refine Eq.trans (runSteps_cons_of (n := 0) he rfl (microStep_block hL hr hi)) ?_
    exact congrArg Host.Outcome.next (advance_of_ne_nil (List.append_ne_nil_of_right_ne_nil _ hrest) _)

/-- The whole output loop: V_nb in V and the output in DMEM (R134). -/
theorem runSteps_outputLoop {s : State} {N nb : Nat} {rest : List MicroOp} (hnb : nb = blockCount s.cfg.hashLen N)
    (he : s.events = []) (hL : 1 ≤ s.cfg.hashLen)
    (hr : N = 0 ∨ s.latch.args.outAddr.toNat + N ≤ s.cfg.dmemSize) (hrest : rest ≠ [])
    (hu : s.uq = outputLoop s.cfg.hashLen N ++ rest) :
    runSteps nb s = .next
      { s with
        v := outputTag s.cfg s.k s.v nb
        dmem := memWrite s.latch.args.outAddr.toNat (outputBytes s.cfg s.k s.v N) s.dmem
        uq := rest } := by
  subst hnb
  rw [runSteps_blocks he hL hr hrest hu (Nat.le_refl _), List.drop_of_length_le (by simp [outputLoop]), List.nil_append]
  rfl

/-! ### GENERATE.A -/

/-- The checks of R168 pass in a state that is ready for GENERATE.A. -/
theorem ReadyGenerateA.check {s : State} (h : ReadyGenerateA s) : check .generateA s = .noError := by
  refine (check_noError_iff .generateA s).mpr ⟨fun _ => h.inst_set, fun r hr => ?_, fun _ => h.apart,
    fun _ => ⟨h.not_exhausted, h.under_limit, h.under_cap⟩⟩
  simp only [usedRegions, usedSegs, usesOutput, List.map_cons, List.map_nil, if_true, List.cons_append, List.nil_append,
    List.mem_cons, List.not_mem_nil, or_false] at hr
  rcases hr with rfl | rfl
  · exact h.seg0_in
  · exact h.out_in

/-- Writing a string of OUT_LEN bytes into the output region leaves the bytes of a segment apart from it (R60). -/
theorem readSegs_memWrite_of_apart {size : Nat} {r : Args} {m : Memory} {i : SegIdx} {bs : ByteString}
    (hbs : bs.length = r.outLen.toNat) (h : (r.segRegion i).overlaps r.outRegion = false) :
    readSegs size r (memWrite r.outAddr.toNat bs m) [i] = readSegs size r m [i] := by
  have hapart := of_decide_eq_false h
  simp only [Args.outRegion] at hapart
  refine readSegs_congr fun k hk j hj => ?_
  obtain rfl := List.mem_singleton.mp hk
  rw [byte?_memWrite, hbs, if_neg (by omega)]

theorem length_progGenerateA (cfg : Config) (r : Args) :
    (progGenerateA cfg r).length = 4 + (blockCount cfg.hashLen r.outLen.toNat + (4 + 1)) := by
  simp only [progGenerateA, updPresent, outputLoop, List.length_append, List.length_map, List.length_range,
    List.length_cons, List.length_nil]
  omega

/-- An accepted GENERATE.A runs to its function form (R131): the post-Update reads the additional input that the
pre-Update read, since the output lies apart from it (R60). -/
theorem runSteps_generateA {s : State} {x : ByteString} (h : ReadyGenerateA s) (he : s.events = [])
    (hx : commandInput .generateA s = .ok x) :
    runSteps (progGenerateA s.cfg s.args).length (accept .generateA (progGenerateA s.cfg s.args) s) =
      .next (fnGenerateA x s) := by
  have hL := hashLen_pos h.cfg_legal
  have hrange : s.args.outLen.toNat = 0 ∨ s.args.outAddr.toNat + s.args.outLen.toNat ≤ s.cfg.dmemSize :=
    of_decide_eq_true h.out_in
  have hprog : progGenerateA s.cfg s.args = updPresent .ga ++
      (outputLoop s.cfg.hashLen s.args.outLen.toNat ++ (updPresent .ga ++ [.incCnt])) := by simp [progGenerateA]
  rw [length_progGenerateA]
  refine Eq.trans (runSteps_add_of (runSteps_updPresent (sel := .ga) (m := x) he hx hprog)) ?_
  rw [advance_of_ne_nil (by simp)]
  refine Eq.trans (runSteps_add_of (m := blockCount s.cfg.hashLen s.args.outLen.toNat) (n := 4 + 1)
    (runSteps_outputLoop (N := s.args.outLen.toNat) (rest := updPresent .ga ++ [.incCnt]) rfl he hL hrange
      (List.cons_ne_nil _ _) rfl)) ?_
  refine Eq.trans (runSteps_add_of (m := 4) (n := 1) (runSteps_updPresent (sel := .ga) (m := x) he ?_ rfl)) ?_
  · exact (readSegs_memWrite_of_apart (outputBytes_length hL _ _ _) h.apart).trans hx
  · exact Eq.trans (runSteps_cons_of (n := 0) he rfl rfl) rfl

/-! ### What the output depends on (R24) -/

section
variable {cfg cfg' : Config} (h : cfg.hashLen = cfg'.hashLen)
include h

/-- Of the configuration the tag function uses L only (R7). -/
theorem hmac_congr : hmac cfg = hmac cfg' := by
  unfold hmac
  rw [h]

theorem update_congr : update cfg = update cfg' := by
  unfold update
  rw [hmac_congr h]

theorem outputTag_congr (K V : ByteString) (i : Nat) : outputTag cfg K V i = outputTag cfg' K V i := by
  induction i with
  | zero => rfl
  | succ i ih => rw [outputTag, outputTag, ih, hmac_congr h]

theorem outputBytes_congr (K V : ByteString) (N : Nat) : outputBytes cfg K V N = outputBytes cfg' K V N := by
  unfold outputBytes
  simp only [h, outputTag_congr h]

end

/-- K and V after GENERATE.A depend on L, K, V, OUT_LEN and the additional input. -/
theorem fnGenerateA_congr {s s' : State} {x : ByteString} (hL : s.cfg.hashLen = s'.cfg.hashLen) (hk : s.k = s'.k)
    (hv : s.v = s'.v) (hlen : s.args.outLen = s'.args.outLen) :
    (fnGenerateA x s).k = (fnGenerateA x s').k ∧ (fnGenerateA x s).v = (fnGenerateA x s').v := by
  simp only [fnGenerateA, completed, update_congr hL, outputTag_congr hL, hL, hk, hv, hlen, and_self]

/-- The K and V with which the output loop of GENERATE.A begins (R131). -/
def preUpdate (x : ByteString) (s : State) : ByteString × ByteString := update s.cfg s.k s.v (some x)

/-- GENERATE.A leaves byte j of its output at OUT_ADDR + j. -/
theorem byte?_fnGenerateA {s : State} (hL : 1 ≤ s.cfg.hashLen) (x : ByteString) {j : Nat}
    (hj : j < s.args.outLen.toNat) :
    Memory.byte? (fnGenerateA x s).dmem (s.args.outAddr.toNat + j) =
      (outputBytes s.cfg (preUpdate x s).1 (preUpdate x s).2 s.args.outLen.toNat)[j]? := by
  show Memory.byte? (memWrite s.args.outAddr.toNat
    (outputBytes s.cfg (preUpdate x s).1 (preUpdate x s).2 s.args.outLen.toNat) s.dmem) _ = _
  rw [byte?_memWrite, outputBytes_length hL, if_pos (by omega), Nat.add_sub_cancel_left]

/-- Settles O48: both runs end in their function forms, which agree. -/
theorem outputDoesNotDependOnCountOrPlace : Obligations.OutputDoesNotDependOnCountOrPlace := by
  intro s s' x h h' he he' hL hk hv hlen hx hx'
  obtain ⟨hk', hv'⟩ := fnGenerateA_congr (x := x) hL hk hv hlen
  refine ⟨_, _, _, _, exec_of_check h.idle h.check, exec_of_check h'.idle h'.check, runSteps_generateA h he hx,
    runSteps_generateA h' he' hx', hk', hv', fun j hj => ?_⟩
  have hpos := hashLen_pos h.cfg_legal
  have hpos' := hashLen_pos h'.cfg_legal
  have hout : outputBytes s.cfg (preUpdate x s).1 (preUpdate x s).2 s.args.outLen.toNat =
      outputBytes s'.cfg (preUpdate x s').1 (preUpdate x s').2 s'.args.outLen.toNat := by
    simp only [preUpdate, update_congr hL, outputBytes_congr hL, hk, hv, hlen]
  have hget := List.getElem?_eq_getElem (hj.trans_eq (outputBytes_length hpos (preUpdate x s).1 (preUpdate x s).2
    s.args.outLen.toNat).symm)
  exact ⟨_, (byte?_fnGenerateA hpos x hj).trans hget,
    (byte?_fnGenerateA hpos' x (hlen ▸ hj)).trans (hout ▸ hget)⟩

end Sys2Proof.Machine
end

section
/-! DMEM as the host and the sequencer see it: byte order, bus errors, unwritten bytes, and what changes a byte
(spec/20_memory.md R50 to R57, R61; spec/40_update.md R98; spec/70_reset_and_hazards.md R202). -/

namespace Sys2Proof.Machine

open Sys2Proof.Stated

/-! ### Byte strings in DMEM (R55) -/

/-- What MemWrite wrote, MemRead reads. -/
theorem memRead_memWrite (a : Nat) (bs : ByteString) (m : Memory) :
    memRead a bs.length (memWrite a bs m) = .ok bs := by
  refine (memRead_ok_iff a bs.length _ bs).mpr ⟨rfl, fun i hi => ?_⟩
  rw [byte?_memWrite, if_pos (by omega), Nat.add_sub_cancel_left]

/-- MemWrite changes only bytes that its string covers. -/
theorem covers_of_byte?_memWrite_ne {a x : Nat} {bs : ByteString} {m : Memory}
    (h : Memory.byte? (memWrite a bs m) x ≠ Memory.byte? m x) : a ≤ x ∧ x < a + bs.length := by
  by_contra hx
  exact h (by rw [byte?_memWrite, if_neg hx])

/-- MemWrite leaves no byte unwritten that was written. -/
theorem byte?_memWrite_ne_none {x : Nat} {m : Memory} (h : Memory.byte? m x ≠ none) (a : Nat) (bs : ByteString) :
    Memory.byte? (memWrite a bs m) x ≠ none := by
  rw [byte?_memWrite]
  split
  · rw [List.getElem?_eq_getElem (by omega)]
    exact nofun
  · exact h

/-- Settles O44, from the byte-by-byte laws of MemRead and MemWrite. -/
theorem memReadAndMemWriteMoveByteStrings : Obligations.MemReadAndMemWriteMoveByteStrings := fun a n s m =>
  ⟨memRead_ok_iff a n m s, fun x => byte?_memWrite s a x m, memRead_memWrite a s m, fun h => memWrite_wf h a s⟩

/-! ### Bus errors (R52, R53) -/

/-- An aligned access inside DMEM ends inside it, since DMEM_SIZE is a multiple of 4 (R6, R53). -/
theorem aligned_access_fits {cfg : Config} (hw : cfg.wellFormed = true) {width : Width} {a : Nat}
    (ha : a < cfg.dmemSize) (h0 : a % width.bytes = 0) : a + width.bytes ≤ cfg.dmemSize := by
  simp only [Config.wellFormed, Config.dmemSizeLegal, Bool.and_eq_true, decide_eq_true_eq] at hw
  obtain ⟨⟨-, h4, -⟩, -⟩ := hw
  cases width <;> simp only [Width.bytes] at h0 ⊢ <;> omega

/-- An illegal access of the register window is a bus error, before any lock (R52). -/
theorem hostAccess_reg_illegal (s : State) {width : Width} {off : Nat} (w : Word) (h : off < regWindowSize)
    (hl : regAccessLegal width off = false) :
    hostAccess (.read width (s.cfg.regBase + off)) s = .next (busError s) ∧
      hostAccess (.write width (s.cfg.regBase + off) w) s = .next (busError s) := by
  simp only [hostAccess, target_reg s.cfg h, hl, Bool.false_eq_true, if_false, and_self]

/-- An illegal access of the DMEM window is a bus error, before any lock (R53). -/
theorem hostAccess_dmem_illegal {s : State} (hw : s.cfg.wellFormed = true) {width : Width} {a : Nat} (w : Word)
    (h : a < s.cfg.dmemSize) (hl : dmemAccessLegal s.cfg width a = false) :
    hostAccess (.read width (s.cfg.dmemBase + a)) s = .next (busError s) ∧
      hostAccess (.write width (s.cfg.dmemBase + a) w) s = .next (busError s) := by
  rw [hostAccess_readDmem hw width h, hostAccess_writeDmem hw width w h]
  simp only [hl, Bool.false_eq_true, if_false, and_self]

/-- Settles O34: both windows test an access before anything else. -/
theorem busErrorsHaveNoEffect : Obligations.BusErrorsHaveNoEffect := by
  refine fun s width w hw => ⟨fun off hoff hbad => ?_, fun a ha hbad => ?_, fun a ha h0 => aligned_access_fits hw ha h0⟩
  · have hl : regAccessLegal width off = false :=
      decide_eq_false fun ⟨h1, h2⟩ => hbad.elim (absurd h1) (absurd h2)
    obtain ⟨hread, hwrite⟩ := hostAccess_reg_illegal s w hoff hl
    exact ⟨hread, 0, hwrite⟩
  · have hl : dmemAccessLegal s.cfg width a = false := decide_eq_false fun h => hbad h.1
    obtain ⟨hread, hwrite⟩ := hostAccess_dmem_illegal hw w ha hl
    exact ⟨hread, 0, hwrite⟩

/-! ### Legal accesses of an idle block (R53, R54) -/

theorem Width.bytes_pos (width : Width) : 0 < width.bytes := by cases width <;> decide

theorem Width.bytes_le_four (width : Width) : width.bytes ≤ 4 := by cases width <;> decide

/-- The word of n bytes is less than 256^n (R54). -/
theorem leWord_lt (bs : ByteString) : (leWord bs).toNat < 256 ^ bs.length := by
  induction bs with
  | nil => decide
  | cons b bs ih =>
    have hpow : 256 ^ (b :: bs).length = 2 ^ (8 * bs.length + 8) := by
      rw [List.length_cons, Nat.pow_succ, show 256 = 2 ^ 8 from rfl, ← Nat.pow_mul, ← Nat.pow_add]
    have hb : b.toNat < 2 ^ (8 * bs.length + 8) := b.isLt.trans_le (Nat.pow_le_pow_right (by decide) (by omega))
    rw [show 256 = 2 ^ 8 from rfl, ← Nat.pow_mul] at ih
    rw [hpow, leWord, BitVec.toNat_or, BitVec.toNat_shiftLeft, Nat.shiftLeft_eq]
    refine Nat.or_lt_two_pow ((Nat.mod_le _ _).trans_lt ?_) ?_
    · rw [Nat.pow_add]
      exact Nat.mul_lt_mul_of_pos_right ih (by decide)
    · rw [BitVec.toNat_setWidth]
      exact (Nat.mod_le _ _).trans_lt hb

theorem leWord_singleton (b : Byte) : leWord [b] = b.setWidth 32 := by simp [leWord]

section
variable {s : State} {width : Width} {a : Nat} (hw : s.cfg.wellFormed = true) (h0 : a % width.bytes = 0)
  (h1 : a + width.bytes ≤ s.cfg.dmemSize)
include hw h0 h1

/-- A legal read of the DMEM window is `readDmem`. -/
theorem hostAccess_readDmem_of_legal :
    hostAccess (.read width (s.cfg.dmemBase + a)) s = readDmem a width.bytes s := by
  have hpos := width.bytes_pos
  have hlegal : dmemAccessLegal s.cfg width a = true := decide_eq_true ⟨h0, h1⟩
  rw [hostAccess_readDmem hw width (by omega), if_pos hlegal]

variable (hb : s.status.busy = false)
include hb

/-- A legal write of an idle block is MemWrite of the little-endian bytes of its word. -/
theorem hostAccess_writeDmem_of_idle (w : Word) :
    hostAccess (.write width (s.cfg.dmemBase + a) w) s =
      .next { answered 0 s with dmem := memWrite a (leBytes width.bytes w) s.dmem } := by
  have hpos := width.bytes_pos
  have hlegal : dmemAccessLegal s.cfg width a = true := decide_eq_true ⟨h0, h1⟩
  rw [hostAccess_writeDmem hw width w (by omega), if_pos hlegal, writeDmem, respond_status,
    if_neg (Bool.eq_false_iff.mp hb)]
  rfl

/-- A legal read whose bytes are written answers their word. -/
theorem hostAccess_readDmem_ok {bs : ByteString} (h : memRead a width.bytes s.dmem = .ok bs) :
    hostAccess (.read width (s.cfg.dmemBase + a)) s = .next (answered (leWord bs) s) := by
  rw [hostAccess_readDmem_of_legal hw h0 h1, readDmem, if_neg (Bool.eq_false_iff.mp hb), h]
  rfl

/-- A legal read stops where MemRead stops (R51). -/
theorem hostAccess_readDmem_error {f : Fault} (h : memRead a width.bytes s.dmem = .error f) :
    hostAccess (.read width (s.cfg.dmemBase + a)) s = .fault f := by
  rw [hostAccess_readDmem_of_legal hw h0 h1, readDmem, if_neg (Bool.eq_false_iff.mp hb), h]

end

/-- An 8-bit read of a written byte answers that byte. -/
theorem hostAccess_readDmem_byte {s : State} {x : Nat} {b : Byte} (hw : s.cfg.wellFormed = true)
    (hb : s.status.busy = false) (hx : x < s.cfg.dmemSize) (h : Memory.byte? s.dmem x = some b) :
    hostAccess (.read .w8 (s.cfg.dmemBase + x)) s = .next (answered (b.setWidth 32) s) := by
  have hread : memRead x Width.w8.bytes s.dmem = .ok [b] :=
    (memRead_ok_iff x 1 s.dmem [b]).mpr ⟨rfl, fun i hi => by obtain rfl := Nat.lt_one_iff.mp hi; exact h⟩
  rw [hostAccess_readDmem_ok hw (Nat.mod_one x) hx hb hread, leWord_singleton]

/-- Settles O42, from the bytes of a written word and the word of the bytes read. -/
theorem dmemAccessesAreLittleEndian : Obligations.DmemAccessesAreLittleEndian := by
  refine fun s width a hw hb h0 h1 => ⟨fun w => ?_, fun hwritten => ?_⟩
  · refine ⟨_, 0, hostAccess_writeDmem_of_idle hw h0 h1 hb w, rfl, fun x => ?_⟩
    show Memory.byte? (memWrite a (leBytes width.bytes w) s.dmem) x = _
    rw [byte?_memWrite, leBytes_length]
    split
    · exact leBytes_getElem? w (by omega)
    · rfl
  · obtain ⟨bs, hread⟩ := memRead_ok_of_written hwritten
    obtain ⟨hlen, hbytes⟩ := (memRead_ok_iff a width.bytes s.dmem bs).mp hread
    refine ⟨leWord bs, hostAccess_readDmem_ok hw h0 h1 hb hread, hlen ▸ leWord_lt bs, fun i hi => ?_⟩
    have hbyte : Memory.byte? s.dmem (a + i) = some ((leWord bs >>> (8 * i)).setWidth 8) :=
      (hbytes i hi).trans (leWord_byte (hlen.trans_le width.bytes_le_four) (hlen ▸ hi))
    exact ⟨hbyte, hostAccess_readDmem_byte hw hb (by omega) hbyte⟩

/-! ### What changes a byte of DMEM (R61, R202) -/

/-- A register write leaves DMEM alone. -/
theorem writeReg_dmem {r : RegName} {w : Word} {s t : State} (h : writeReg r w s = .next t) : t.dmem = s.dmem := by
  rcases writeReg_cases r w s with ⟨-, he⟩ | ⟨-, he⟩ | ⟨x, -, -, he⟩ | ⟨x, -, -, he⟩ | he <;> rw [he] at h
  · rw [writeCmd_next h]
  · exact Host.Outcome.next.inj h ▸ writeStatus_dmem w s
  · exact Host.Outcome.next.inj h ▸ rfl
  · exact Host.Outcome.next.inj h ▸ rfl
  · exact Host.Outcome.next.inj h ▸ rfl

/-- A host access changes DMEM only as a legal write of it while no command runs. -/
theorem hostAccess_dmem {acc : Access} {s t : State} (h : hostAccess acc s = .next t) :
    t.dmem = s.dmem ∨ ∃ width addr a w, acc = .write width addr w ∧ target s.cfg addr = .dmem a ∧
      s.status.busy = false ∧ t.dmem = memWrite a (leBytes width.bytes w) s.dmem := by
  rcases hostAccess_effect h with ⟨r, rfl⟩ | ⟨-, r, rfl⟩ | ⟨width, addr, a, w, rfl, ht, hb, -, rfl⟩ | ⟨_, _, _, -, -, hw⟩
  · exact .inl rfl
  · exact .inl rfl
  · exact .inr ⟨width, addr, a, w, rfl, ht, hb, rfl⟩
  · exact .inl (writeReg_dmem (s := respond 0 s) hw)

/-- A turn of the sequencer changes DMEM only as an output block, of at most the bytes that its HO names (R133). -/
theorem sequencerStep_dmem {s t : State} (h : sequencerStep s = .next t) :
    t.dmem = s.dmem ∨ ∃ off n rest bs, s.uq = .ho off n :: rest ∧ bs.length ≤ n ∧
      t.dmem = memWrite (s.latch.args.outAddr.toNat + off) bs s.dmem := by
  rcases sequencerStep_cases s with ⟨-, he⟩ | ⟨_, _, _, -, -, he⟩ | ⟨op, rest, u, hu, hm, he⟩
  · exact .inl (Host.Outcome.next.inj (he.symm.trans h) ▸ rfl)
  · exact nomatch he.symm.trans h
  · obtain rfl := Host.Outcome.next.inj (he.symm.trans h)
    rw [advance_dmem]
    cases op with
    | ho off n =>
      obtain ⟨rfl, -⟩ := microStep_ho hm
      exact .inr ⟨off, n, rest, _, hu, List.length_take_le _ _, rfl⟩
    | hk sep sel =>
      obtain ⟨m, -, rfl⟩ := microStep_hk hm
      exact .inl rfl
    | _ => exact .inl (Except.ok.inj hm ▸ rfl)

/-- What a step does to DMEM: a reset clears it, and every other step leaves it or writes one byte string, of an idle
host write or of an output block. -/
theorem step_dmem {s t : State} (h : step s = .next t) :
    s.events.head? = some .reset ∨ t.dmem = s.dmem ∨
    (∃ width addr a w es, s.events = .host (.write width addr w) :: es ∧ target s.cfg addr = .dmem a ∧
      s.status.busy = false ∧ t.dmem = memWrite a (leBytes width.bytes w) s.dmem) ∨
    (∃ off n rest bs, s.uq = .ho off n :: rest ∧ (s.events = [] ∨ s.events.head? = some .sequencer) ∧
      bs.length ≤ n ∧ t.dmem = memWrite (s.latch.args.outAddr.toNat + off) bs s.dmem) := by
  rcases step_cases h with ⟨es, he, -⟩ | ⟨acc, es, he, ha⟩ | ⟨he, ha⟩
  · exact .inl (by rw [he]; rfl)
  · rcases hostAccess_dmem ha with hd | ⟨width, addr, a, w, rfl, ht, hb, hd⟩
    · exact .inr (.inl hd)
    · exact .inr (.inr (.inl ⟨width, addr, a, w, es, he, ht, hb, hd⟩))
  · rcases sequencerStep_dmem ha with hd | ⟨off, n, rest, bs, hu, hn, hd⟩
    · exact .inr (.inl hd)
    · exact .inr (.inr (.inr ⟨off, n, rest, bs, hu, he, hn, hd⟩))

/-- Settles O29: what a step writes covers what it changes, and a write unwrites nothing. -/
theorem dmemChangesOnlyByWritesThatCoverIt : Obligations.DmemChangesOnlyByWritesThatCoverIt := by
  intro s t a h
  rcases step_dmem h with hreset | hd | ⟨width, addr, b, w, es, he, ht, hb, hd⟩ | ⟨off, n, rest, bs, hu, he, hn, hd⟩
  · exact ⟨fun _ => .inl hreset, fun hnot => absurd hreset hnot⟩
  · rw [hd]
    exact ⟨fun hne => absurd rfl hne, fun _ => id⟩
  · rw [hd]
    refine ⟨fun hne => ?_, fun _ hwritten => byte?_memWrite_ne_none hwritten _ _⟩
    obtain ⟨hle, hlt⟩ := covers_of_byte?_memWrite_ne hne
    rw [leBytes_length] at hlt
    exact .inr (.inl ⟨width, addr, b, w, es, he, ht, hb, hle, hlt⟩)
  · rw [hd]
    refine ⟨fun hne => ?_, fun _ hwritten => byte?_memWrite_ne_none hwritten _ _⟩
    obtain ⟨hle, hlt⟩ := covers_of_byte?_memWrite_ne hne
    exact .inr (.inr ⟨off, n, rest, hu, he, hle, hlt.trans_le (Nat.add_le_add_left hn _)⟩)

/-! ### Reads of bytes that nothing has written (R51, R57, R98) -/

/-- The segments that `selSegs` lists are those that the statements name (R98). -/
theorem mem_selSegs_iff (a : Bool) (sel : MsgSel) (i : SegIdx) : i ∈ selSegs a sel ↔ Selects a sel i := by
  cases sel with
  | nothing => simp [selSegs, Selects]
  | i3 => cases i <;> simp [selSegs, Selects]
  | rs => cases a <;> simp [selSegs, Selects]
  | ga => simp [selSegs, Selects]

/-- A message has its segments in rising order, each once (R98). -/
theorem selSegs_rising (a : Bool) (sel : MsgSel) :
    (selSegs a sel).Pairwise fun i j => segNumber i < segNumber j := by
  cases sel with
  | rs => cases a <;> simp [selSegs, segNumber]
  | _ => simp [selSegs, segNumber]

/-- A message with an unwritten byte in a segment that its selector names cannot be read: the reading stops in a named
segment, no later in the message than there. -/
theorem message_of_unwritten {s : State} {sel : MsgSel} {i : SegIdx} {j : Nat}
    (hin : ∀ k, Selects s.latch.a sel k → (s.latch.args.segRegion k).inRange s.cfg.dmemSize = true)
    (hi : Selects s.latch.a sel i) (hj : j < (s.latch.args.segRegion i).len)
    (h : Memory.byte? s.dmem ((s.latch.args.segRegion i).addr + j) = none) :
    ∃ k x, message s sel = .error (.unwrittenByte x) ∧ Selects s.latch.a sel k ∧
      Inside x (s.latch.args.segRegion k) ∧
      (segNumber k < segNumber i ∨ (k = i ∧ x ≤ (s.latch.args.segRegion i).addr + j)) ∧
      Memory.byte? s.dmem x = none := by
  obtain ⟨pre, post, hsplit⟩ := List.append_of_mem ((mem_selSegs_iff _ sel i).mpr hi)
  have hrising := selSegs_rising s.latch.a sel
  have hmem (k : SegIdx) : k ∈ pre ++ i :: post ↔ Selects s.latch.a sel k := hsplit ▸ mem_selSegs_iff _ sel k
  rw [hsplit, List.pairwise_append] at hrising
  obtain ⟨-, -, hbefore⟩ := hrising
  obtain ⟨k, x, hread, hk, hle, hlt, hx⟩ := readSegs_of_unwritten (fun k hk => hin k ((hmem k).mp hk)) hj h
  have hsel : Selects s.latch.a sel k := by
    rcases hk with hk | ⟨rfl, -⟩
    · exact (hmem k).mp (List.mem_append_left _ hk)
    · exact hi
  refine ⟨k, x, ?_, hsel, ⟨hle, hlt⟩, hk.imp_left fun hk => hbefore k hk i List.mem_cons_self, hx⟩
  rw [message, hsplit]
  exact hread

/-- With no event to come HK stops where the reading of its message stops. -/
theorem step_hk_error {s : State} {sep : Sep} {sel : MsgSel} {rest : List MicroOp} {f : Fault} (he : s.events = [])
    (hu : s.uq = .hk sep sel :: rest) (hm : message s sel = .error f) : step s = .fault f :=
  (step_of_no_event he).trans (sequencerStep_of_error hu (microStep_hk_error hm))

/-- The selector of the HKs that read a command's input (R110, R120, R121, R131). -/
def inputSel : Instr → MsgSel
  | .instantiate => .i3
  | .reseed => .rs
  | .reseedA => .rs
  | .generate => .nothing
  | .generateA => .ga
  | .zeroize => .nothing

/-- The rows of R167 list the segments that each command uses. -/
theorem mem_rangeChecked_iff (c : Instr) (i : SegIdx) : (c, i) ∈ rangeChecked ↔ i ∈ usedSegs c := by
  cases c <;> simp [rangeChecked, usedSegs]

/-- The segments that a command uses are those that its selector names (R57, R98). -/
theorem selects_inputSel_iff (c : Instr) (i : SegIdx) :
    Selects c.aBit (inputSel c) i ↔ (c, i) ∈ rangeChecked := by
  rw [mem_rangeChecked_iff, ← mem_selSegs_iff, show selSegs c.aBit (inputSel c) = usedSegs c by cases c <;> rfl]

/-- A segment that an accepted command uses is in range (R167, R168). -/
theorem inRange_of_check {c : Instr} {s : State} {i : SegIdx} (hc : check c s = .noError)
    (hi : (c, i) ∈ rangeChecked) : (s.args.segRegion i).inRange s.cfg.dmemSize = true := by
  obtain ⟨-, hrange, -⟩ := (check_noError_iff c s).mp hc
  exact hrange _ (List.mem_append_left _ (List.mem_map_of_mem ((mem_rangeChecked_iff c i).mp hi)))

/-- The program of a command that uses a segment begins with the HK that reads its input, but for the SETKV of
INSTANTIATE (R110, R120, R121, R131). -/
theorem microprogram_first_hk (cfg : Config) (r : Args) {c : Instr} {i : SegIdx} (hi : (c, i) ∈ rangeChecked) :
    ∃ rest, (c ≠ .instantiate ∧ microprogram cfg r c = .hk .zero (inputSel c) :: rest) ∨
      (c = .instantiate ∧ ∃ k v, microprogram cfg r c = .setKV k v :: .hk .zero (inputSel c) :: rest) := by
  cases c with
  | instantiate => exact ⟨_, .inr ⟨rfl, _, _, rfl⟩⟩
  | generate => exact absurd ((mem_rangeChecked_iff _ i).mp hi) List.not_mem_nil
  | zeroize => exact absurd ((mem_rangeChecked_iff _ i).mp hi) List.not_mem_nil
  | _ => exact ⟨_, .inl ⟨nofun, rfl⟩⟩

/-- A run of the sequencer stops where its first step stops. -/
theorem runSteps_succ_of_fault {n : Nat} {s : State} {f : Fault} (h : step s = .fault f) :
    runSteps (n + 1) s = .fault f := by
  simp only [runSteps, h]

/-- The first HK of an accepted command stops where the reading of the command's input stops. -/
theorem runSteps_accept_error {c : Instr} {s : State} {i : SegIdx} {f : Fault} (he : s.events = [])
    (hi : (c, i) ∈ rangeChecked)
    (hm : message (accept c (microprogram s.cfg s.args c) s) (inputSel c) = .error f) :
    runSteps (if c = .instantiate then 2 else 1) (accept c (microprogram s.cfg s.args c) s) = .fault f := by
  obtain ⟨rest, ⟨hc, hu⟩ | ⟨rfl, k, v, hu⟩⟩ := microprogram_first_hk s.cfg s.args hi
  · rw [if_neg hc]
    exact runSteps_succ_of_fault (step_hk_error he hu hm)
  · rw [if_pos rfl]
    refine Eq.trans (runSteps_cons_of (n := 1) (s := accept _ (microprogram s.cfg s.args _) s) he hu rfl) ?_
    exact runSteps_succ_of_fault (step_hk_error he rfl hm)

/-- Settles O43: the host's read stops as MemRead does, and HK as the reading of its message does. -/
theorem unwrittenDmemReadsFault : Obligations.UnwrittenDmemReadsFault := by
  refine ⟨fun s width a i hw hb h0 h1 hi hnone => ?_, fun s sep sel rest i j he hu hin hi hj hnone => ?_,
    fun c s i j he hb hc hi hj hnone => ?_, byte?_nil⟩
  · obtain ⟨x, hread, hle, hle', hx⟩ := memRead_of_unwritten hi hnone
    exact ⟨x, hle, hle', hx, hostAccess_readDmem_error hw h0 h1 hb hread⟩
  · obtain ⟨k, x, hm, hk, hinside, hplace, hxnone⟩ := message_of_unwritten hin hi hj hnone
    exact ⟨k, x, hk, hinside, hplace, hxnone, step_hk_error he hu hm⟩
  · obtain ⟨k, x, hm, hk, hinside, -, hxnone⟩ :=
      message_of_unwritten (s := accept c (microprogram s.cfg s.args c) s)
        (fun k hk => inRange_of_check hc ((selects_inputSel_iff c k).mp hk)) ((selects_inputSel_iff c i).mpr hi) hj hnone
    exact ⟨_, k, x, exec_of_check hb hc, (selects_inputSel_iff c k).mp hk, hinside, hxnone,
      runSteps_accept_error he hi hm⟩

end Sys2Proof.Machine
end

section
/-! Command words: fields and words, the decoder and the encoder, and the step that runs a written command
(spec/30_encoding.md R76, R77, R80, R81, R82). -/

namespace Sys2Proof

/-! ### Fields and words (R76) -/

/-- The bits of a word, from its fields (R76). -/
theorem CmdFields.getLsbD_toWord (f : CmdFields) (i : Nat) :
    f.toWord.getLsbD i = if i < 4 then f.opc.getLsbD i else if i = 4 then f.a else f.rsv.getLsbD (i - 5) := by
  simp only [CmdFields.toWord, BitVec.getLsbD_or, BitVec.getLsbD_shiftLeft, BitVec.getLsbD_setWidth,
    BitVec.getLsbD_ofBool]
  split
  · simp [show i < 32 by omega, show i < 5 by omega, show i < 4 by omega]
  · split
    · simp [*]
    · have hopc : f.opc.getLsbD i = false := BitVec.getLsbD_of_ge _ _ (by omega)
      by_cases hi : i < 32
      · simp [hopc, hi, show ¬i < 5 by omega, show ¬i - 4 = 0 by omega, show i - 5 < 32 by omega]
      · simp [hi, BitVec.getLsbD_of_ge f.rsv (i - 5) (by omega)]

/-- Cutting the word of some fields gives the fields back. -/
@[simp] theorem CmdFields.ofWord_toWord (f : CmdFields) : CmdFields.ofWord f.toWord = f := by
  have hopc : f.toWord.extractLsb' 0 4 = f.opc := by
    ext i hi
    simp [CmdFields.getLsbD_toWord, hi, ← BitVec.getLsbD_eq_getElem]
  have hrsv : f.toWord.extractLsb' 5 27 = f.rsv := by
    ext i hi
    simp [CmdFields.getLsbD_toWord, hi, show ¬5 + i < 4 by omega, show 5 + i ≠ 4 by omega,
      ← BitVec.getLsbD_eq_getElem]
  simp only [CmdFields.ofWord, hopc, hrsv, CmdFields.getLsbD_toWord]
  rfl

/-- The three fields hold every bit of the word. -/
@[simp] theorem CmdFields.toWord_ofWord (w : Word) : (CmdFields.ofWord w).toWord = w := by
  ext i hi
  rw [← BitVec.getLsbD_eq_getElem, ← BitVec.getLsbD_eq_getElem, CmdFields.getLsbD_toWord]
  simp only [CmdFields.ofWord, BitVec.getLsbD_extractLsb']
  split
  · simp [*]
  · split
    · simp [*]
    · simp [show i - 5 < 27 by omega, show 5 + (i - 5) = i by omega]

theorem CmdFields.ofWord_eq_iff {w : Word} {f : CmdFields} : CmdFields.ofWord w = f ↔ w = f.toWord :=
  ⟨fun h => by rw [← h, CmdFields.toWord_ofWord], fun h => by rw [h, CmdFields.ofWord_toWord]⟩

/-- RSV is what the word holds above its five low bits (R76). -/
theorem CmdFields.toNat_rsv_ofWord (w : Word) : (CmdFields.ofWord w).rsv.toNat = w.toNat / 32 := by
  simp only [CmdFields.ofWord, BitVec.extractLsb'_toNat, Nat.shiftRight_eq_div_pow]
  omega

/-! ### The well-formed fields (R77) -/

theorem Instr.fields_wellFormed (c : Instr) : c.fields.wellFormed = true := by cases c <;> rfl

/-- The well-formed fields are those of the six commands: OPC names the command and A its variant (R77, R78). -/
theorem CmdFields.wellFormed_iff {f : CmdFields} : f.wellFormed = true ↔ ∃ c : Instr, f = c.fields := by
  refine ⟨fun h => ?_, fun ⟨c, hc⟩ => hc ▸ c.fields_wellFormed⟩
  obtain ⟨opc, a, rsv⟩ := f
  simp only [CmdFields.wellFormed, CmdFields.rsvClear, CmdFields.opcDefined, CmdFields.aAllowed, Bool.and_eq_true,
    beq_iff_eq, decide_eq_true_eq] at h
  obtain ⟨⟨rfl, hrange⟩, ha⟩ := h
  have hopc : opc = 1 ∨ opc = 2 ∨ opc = 3 ∨ opc = 4 := by
    clear ha
    revert opc
    decide
  rcases hopc with rfl | rfl | rfl | rfl
  · obtain rfl : a = false := by simpa using ha
    exact ⟨.instantiate, rfl⟩
  · cases a
    · exact ⟨.reseed, rfl⟩
    · exact ⟨.reseedA, rfl⟩
  · cases a
    · exact ⟨.generate, rfl⟩
    · exact ⟨.generateA, rfl⟩
  · obtain rfl : a = false := by simpa using ha
    exact ⟨.zeroize, rfl⟩

/-! ### The decoder and the encoder (R80, R81) -/

theorem decodeFields_eq_command_iff {f : CmdFields} {c : Instr} : decodeFields f = .command c ↔ f = c.fields := by
  constructor
  · obtain ⟨opc, a, rsv⟩ := f
    intro h
    unfold decodeFields at h
    split_ifs at h <;> cases h <;> simp_all [Instr.fields, Instr.opc, Instr.aBit]
  · rintro rfl
    cases c <;> rfl

/-- `decode` and `encode` are inverse to each other on commands. -/
theorem decode_eq_command_iff {w : Word} {c : Instr} : decode w = .command c ↔ w = encode c :=
  decodeFields_eq_command_iff.trans CmdFields.ofWord_eq_iff

/-- A word with a bit of [31:5] set fails the decoder's first test (R80). -/
theorem decode_of_reservedBits {w : Word} (h : w.toNat / 32 ≠ 0) : decode w = .illegal .reservedBits :=
  if_pos fun h0 => h (by rw [← CmdFields.toNat_rsv_ofWord, h0]; rfl)

theorem encode_eq_commandWord (c : Instr) : encode c = Stated.commandWord c := by cases c <;> rfl

/-- Settles O2: the fields of a command decode to it alone, and fields and words are one to one. -/
theorem decodeAndEncodeAgree : Obligations.DecodeAndEncodeAgree := fun _ _ _ => decode_eq_command_iff

/-- Settles O1: the written-out words are the encodings, and only an encoding decodes to a command. -/
theorem commandWordsAreTheOpcodeMap : Obligations.CommandWordsAreTheOpcodeMap := by
  refine ⟨fun c => ?_, fun w hw => ?_⟩
  · exact ⟨encode_eq_commandWord c, decode_eq_command_iff.mpr (encode_eq_commandWord c).symm⟩
  · cases hd : decode w with
    | command c => exact absurd ((decode_eq_command_iff.mp hd).trans (encode_eq_commandWord c)) (hw c)
    | illegal why => exact ⟨why, rfl⟩

/-- Settles O3: well-formed fields and fields that decode are both the fields of the six commands. -/
theorem fieldsDecodeExactlyWhenWellFormed : Obligations.FieldsDecodeExactlyWhenWellFormed := fun f =>
  ⟨CmdFields.wellFormed_iff.trans (exists_congr fun _ => decodeFields_eq_command_iff.symm),
    fun _ => decode_of_reservedBits, f.ofWord_toWord⟩

/-- Settles O4, by running the decoder on each word. -/
theorem writtenWordsDecode : Obligations.WrittenWordsDecode := by
  unfold Obligations.WrittenWordsDecode
  decide

namespace Machine

open Sys2Proof.Stated

/-! ### A written command word (R80, R165) -/

theorem writeCmd_of_decode {w : Word} {c : Instr} (h : decode w = .command c) (s : State) :
    writeCmd w s = exec c s := by
  unfold writeCmd
  rw [h]

/-- A step on the host's write of a command word is the command's meaning in the acknowledged state. -/
theorem step_cmdWrite {s : State} {es : List Event} {w : Word} {c : Instr} (hc : decode w = .command c)
    (he : s.events = cmdWrite s.cfg w :: es) : step s = exec c (acked s es) :=
  calc step s = hostAccess (.write .w32 (cmdAddr s.cfg) w) { s with events := es } := step_of_event he
    _ = writeCmd w (acked s es) := hostAccess_cmd w { s with events := es }
    _ = exec c (acked s es) := writeCmd_of_decode hc _

/-- Settles O5: a placed word is a write of it in front of the events. -/
theorem stepRunsTheWrittenCommand : Obligations.StepRunsTheWrittenCommand := by
  intro s es w c hc
  have hword : BitVec.ofNat 32 (w.toNat % 2 ^ 32) = w := by
    rw [Nat.mod_eq_of_lt w.isLt, BitVec.ofNat_toNat, BitVec.setWidth_eq]
  exact ⟨step_cmdWrite hc, step_cmdWrite (s := s.withFetchWord 32 w.toNat) (hword.symm ▸ hc) rfl⟩

end Machine

end Sys2Proof
end

section
/-! Host programs: what one line of a host does, and one pass through WAIT (spec/30_encoding.md R84, R85;
spec/44_control.md R153). -/

namespace Sys2Proof.Machine

open Sys2Proof.Stated

/-! ### The registers and the place of a host -/

@[simp] theorem HostCpu.goto_prog (p : HostCpu) (n : Nat) : (p.goto n).prog = p.prog := rfl
@[simp] theorem HostCpu.goto_pc (p : HostCpu) (n : Nat) : (p.goto n).pc = n := rfl
@[simp] theorem HostCpu.goto_reg (p : HostCpu) (n x : Nat) : (p.goto n).reg x = p.reg x := rfl
@[simp] theorem HostCpu.setReg_prog (p : HostCpu) (h : Nat) (w : Word) : (p.setReg h w).prog = p.prog := rfl
@[simp] theorem HostCpu.setReg_pc (p : HostCpu) (h : Nat) (w : Word) : (p.setReg h w).pc = p.pc := rfl

@[simp] theorem HostCpu.setReg_reg (p : HostCpu) (h x : Nat) (w : Word) :
    (p.setReg h w).reg x = if h = x then w else p.reg x := by
  simp only [HostCpu.reg, HostCpu.setReg, cellGet?_cellSet]
  split <;> rfl

@[simp] theorem HostCpu.afterLocal_andi (p : HostCpu) (d r : Nat) (imm : Word) :
    p.afterLocal (.andi d r imm) = (p.setReg d (p.reg r &&& imm)).goto (p.pc + 1) := rfl

@[simp] theorem HostCpu.afterLocal_bnei (p : HostCpu) (r : Nat) (imm : Word) (label : Nat) :
    p.afterLocal (.bnei r imm label) = p.goto (if p.reg r = imm then p.pc + 1 else label) := by
  simp only [HostCpu.afterLocal, ne_eq, ite_not]
  split <;> rfl

/-! ### One line of a host (R84) -/

/-- `R32 off -> h` on a register that no lock covers loads its value and changes only the answer on the bus. -/
theorem System.turn_r32 {y : System} {n off h : Nat} {p : HostCpu} (hp : y.hosts[n]? = some p)
    (hop : p.prog[p.pc]? = some (.r32 off h)) (hoff : off < regWindowSize) (h4 : off % 4 = 0)
    (hfree : (regAt off).readLocked = false) :
    y.turn (.host n) =
      .next { block := answered (regValue (regAt off) y.block) y.block
              hosts := y.hosts.set n ((p.setReg h (regValue (regAt off) y.block)).goto (p.pc + 1)) } := by
  simp only [System.turn, System.hostTurn, hp, hop, HostOp.access, hostAccess_readReg y.block hoff h4,
    readReg_of_free (.inl hfree)]
  rfl

/-- A line that makes no access leaves the block alone. -/
theorem System.turn_local {y : System} {n : Nat} {p : HostCpu} {op : HostOp} (hp : y.hosts[n]? = some p)
    (hop : p.prog[p.pc]? = some op) (hacc : op.access y.block.cfg = none) :
    y.turn (.host n) = .next { y with hosts := y.hosts.set n (p.afterLocal op) } := by
  simp only [System.turn, System.hostTurn, hp, hop, hacc]

theorem System.run_cons_of {t : Turn} {ts : List Turn} {y z : System} (h : y.turn t = .next z) :
    System.run (t :: ts) y = System.run ts z := by
  simp only [System.run, h]

/-! ### BUSY and DONE in STATUS (R153) -/

theorem getElem_bitAt (b : Bool) {n i : Nat} (hi : i < 32) : (bitAt b n)[i] = (decide (i = n) && b) := by
  by_cases h : i = n
  · simp [bitAt, h]
  · simp [bitAt, h]
    omega

/-- Bit 0 of STATUS is BUSY (R153). -/
theorem getElem_zero_statusWord (s : State) : (statusWord s)[0] = s.status.busy := by
  simp [statusWord, getElem_bitAt]

/-- Bit 1 of STATUS is DONE (R153). -/
theorem getElem_one_statusWord (s : State) : (statusWord s)[1] = s.status.done := by
  simp [statusWord, getElem_bitAt]

/-- A word's two low bits are 0b10 when bit 0 is clear and bit 1 is set. -/
theorem and_three_eq_two_iff (w : Word) : w &&& 0x3 = 0x2 ↔ w[0] = false ∧ w[1] = true := by
  have hlow : (w &&& 0x3).toNat = w.toNat % 4 := Nat.and_two_pow_sub_one_eq_mod w.toNat 2
  have h0 : w[0] = decide (w.toNat % 2 = 1) := Nat.testBit_zero w.toNat
  have h1 : w[1] = decide (w.toNat / 2 % 2 = 1) := (Nat.testBit_succ w.toNat 0).trans (Nat.testBit_zero _)
  have h2 : (0x2 : Word).toNat = 2 := rfl
  rw [← BitVec.toNat_inj, hlow, h0, h1, h2, decide_eq_false_iff_not, decide_eq_true_iff]
  omega

/-- WAIT's test of STATUS (R85). -/
theorem statusWord_and_three_eq_two_iff (s : State) :
    statusWord s &&& 0x3 = 0x2 ↔ s.status.busy = false ∧ s.status.done = true := by
  rw [and_three_eq_two_iff, getElem_zero_statusWord, getElem_one_statusWord]

/-! ### WAIT (R85) -/

/-- A host at the first line of WAIT, the program's line 0, after one pass whose read of STATUS returned w. -/
def HostCpu.afterWait (p : HostCpu) (w : Word) : HostCpu :=
  (((p.setReg 0 w).goto 1).afterLocal (.andi 1 0 0x3)).afterLocal (.bnei 1 0x2 0)

theorem HostCpu.afterWait_prog (p : HostCpu) (w : Word) : (p.afterWait w).prog = p.prog := by
  simp [HostCpu.afterWait]

theorem HostCpu.afterWait_reg_zero (p : HostCpu) (w : Word) : (p.afterWait w).reg 0 = w := by
  simp [HostCpu.afterWait]

theorem HostCpu.afterWait_pc (p : HostCpu) (w : Word) : (p.afterWait w).pc = if w &&& 0x3 = 0x2 then 3 else 0 := by
  simp [HostCpu.afterWait]

/-- One pass through WAIT: its three lines, of which only the read of STATUS reaches the block. -/
theorem System.run_wait (b : State) (regs : List (Nat × Word)) (rest : List HostOp) :
    System.run [.host 0, .host 0, .host 0]
        { block := b, hosts := [{ prog := waitLines 0 ++ rest, pc := 0, regs := regs }] } =
      .next { block := answered (statusWord b) b
              hosts := [HostCpu.afterWait { prog := waitLines 0 ++ rest, pc := 0, regs := regs } (statusWord b)] } := by
  rw [System.run_cons_of (System.turn_r32 (off := 0x024) (h := 0) rfl rfl (by decide) rfl rfl),
    System.run_cons_of (System.turn_local (op := .andi 1 0 0x3) rfl rfl rfl),
    System.run_cons_of (System.turn_local (op := .bnei 1 0x2 0) rfl rfl rfl)]
  rfl

/-- Settles O53: the branch of WAIT's last line tests BUSY and DONE. -/
theorem waitLeavesTheLoopExactlyWhenDone : Obligations.WaitLeavesTheLoopExactlyWhenDone := by
  intro b regs rest
  refine ⟨_, System.run_wait b regs rest, HostCpu.afterWait_prog _ _, HostCpu.afterWait_reg_zero _ _, ?_⟩
  rw [HostCpu.afterWait_pc]
  exact if_congr (statusWord_and_three_eq_two_iff b) rfl rfl

end Sys2Proof.Machine
end

section
/-! The micro-operations as the steps that take them off UQ, the message of HK, and the micro-operations of Update
(spec/40_update.md R95, R97 to R101, R108, R109; spec/20_memory.md R55, R57). -/

namespace Sys2Proof.Machine

open Sys2Proof.Stated

/-! ### One micro-operation (R95, R97, R99, R108, R109) -/

/-- Taking the tail of UQ is what the statements say follows a micro-operation: a turn that empties UQ completes the
command (R95, R171). -/
theorem advance_eq_afterMicro (rest : List MicroOp) (s : State) : advance rest s = afterMicro rest s := by
  cases rest <;> rfl

/-- With no event to come a step is the micro-operation at the head of UQ, when that succeeds. -/
theorem step_micro {s t : State} {op : MicroOp} {rest : List MicroOp} (he : s.events = []) (hu : s.uq = op :: rest)
    (hm : microStep op s = .ok t) : step s = .next (afterMicro rest t) :=
  calc step s = sequencerStep s := step_of_no_event he
    _ = .next (advance rest t) := sequencerStep_of_ok hu hm
    _ = .next (afterMicro rest t) := by rw [advance_eq_afterMicro]

/-- Settles O17: these micro-operations always succeed, each with its own write. -/
theorem registerMicroOperationsDoOnlyTheirWrite : Obligations.RegisterMicroOperationsDoOnlyTheirWrite :=
  fun _ _ he =>
    ⟨fun hu => step_micro he hu rfl, fun _ _ hu => step_micro he hu rfl, fun _ hu => step_micro he hu rfl,
      fun hu => step_micro he hu rfl, fun _ hu => step_micro he hu rfl⟩

/-! ### The message of HK (R98) -/

/-- A segment in range reads as the bytes that DMEM holds there (R57). -/
theorem readSeg_of_segBytes {s : State} {i : SegIdx} {x : ByteString} (h : SegBytes s i x) :
    readSeg s.cfg.dmemSize s.latch.args s.dmem i = .ok x := by
  obtain ⟨hin, hlen, hbytes⟩ := h
  rw [readSeg_of_inRange s.dmem hin]
  exact (memRead_ok_iff _ _ _ x).mpr ⟨hlen, hlen ▸ hbytes⟩

/-- Segments are read one after another, with nothing between them (R98). -/
theorem readSegs_cons_of {size : Nat} {r : Args} {m : Memory} {i : SegIdx} {is : List SegIdx} {x y : ByteString}
    (hx : readSeg size r m i = .ok x) (hy : readSegs size r m is = .ok y) :
    readSegs size r m (i :: is) = .ok (x ++ y) := by
  simp only [readSegs, hx, hy]

/-- Reading one segment alone. -/
theorem readSegs_singleton_of {size : Nat} {r : Args} {m : Memory} {i : SegIdx} {x : ByteString}
    (hx : readSeg size r m i = .ok x) : readSegs size r m [i] = .ok x := by
  rw [readSegs_cons_of hx rfl, List.append_nil]

/-- Each selector reads the message that it stands for (R98). -/
theorem message_of_selMessage {s : State} {sel : MsgSel} {m : ByteString} (h : SelMessage s sel m) :
    message s sel = .ok m := by
  cases sel with
  | nothing => exact congrArg Except.ok h.symm
  | i3 =>
    obtain ⟨x, y, z, hx, hy, hz, rfl⟩ := h
    rw [List.append_assoc]
    exact readSegs_cons_of (readSeg_of_segBytes hx)
      (readSegs_cons_of (readSeg_of_segBytes hy) (readSegs_singleton_of (readSeg_of_segBytes hz)))
  | rs =>
    obtain ⟨x, hx, habsent, hpresent⟩ := h
    have hread := readSeg_of_segBytes hx
    unfold message selSegs
    cases ha : s.latch.a with
    | false =>
      obtain rfl := habsent ha
      exact readSegs_singleton_of hread
    | true =>
      obtain ⟨y, hy, rfl⟩ := hpresent ha
      exact readSegs_cons_of hread (readSegs_singleton_of (readSeg_of_segBytes hy))
  | ga => exact readSegs_singleton_of (readSeg_of_segBytes h)

/-- Settles O18: the message can be read, so HK is the step with it. -/
theorem hkMixesTheSelectedMessage : Obligations.HkMixesTheSelectedMessage := by
  intro s sep sel m rest he hsel hu msg
  have hmsg : msg = s.v ++ [sep.byte] ++ m := by cases sep <;> rfl
  rw [hmsg]
  refine ⟨step_micro he hu (microStep_hk_of (message_of_selMessage hsel)), ?_⟩
  simp only [List.length_append, List.length_singleton]

/-! ### Update (R100, R101) -/

/-- UPD(absent) gives the K and V of the function `update` (R100, R101). -/
theorem runSteps_updAbsent {s : State} {rest : List MicroOp} (he : s.events = []) (hu : s.uq = updAbsent ++ rest) :
    runSteps 2 s = .next (advance rest
      { s with k := (update s.cfg s.k s.v none).1, v := (update s.cfg s.k s.v none).2 }) := by
  refine Eq.trans (runSteps_cons_of he hu (microStep_hk_of rfl)) ?_
  refine Eq.trans (runSteps_cons_of (n := 0) he rfl rfl) ?_
  cases rest <;> rfl

/-- The function `update` with provided data absent: one HK and one HV, the message empty (R101, R103). -/
theorem update_none (cfg : Config) (K V : ByteString) :
    update cfg K V none =
      (hmac cfg K (V ++ [0x00]), hmac cfg (hmac cfg K (V ++ [0x00])) V) := by
  simp only [update, Option.getD_none, List.append_nil]

/-- Settles O20: the runs of the two forms of UPD, with the function `update` written out. -/
theorem updateMicroOperationsGiveTheUpdateFunction : Obligations.UpdateMicroOperationsGiveTheUpdateFunction := by
  refine fun s rest he => ⟨fun sel m hm hu => ⟨rfl, rfl, ?_⟩, fun hu => ⟨rfl, update_none s.cfg s.k s.v, ?_⟩⟩
  · rw [runSteps_updPresent he hm hu, advance_eq_afterMicro]
    rfl
  · rw [runSteps_updAbsent he hu, advance_eq_afterMicro, update_none]

end Sys2Proof.Machine
end

section
/-! The run of an accepted INSTANTIATE to its function form, and what its result depends on (spec/41_instantiate.md
R110, R112, R113). -/

namespace Sys2Proof.Machine

/-- The checks of R168 pass in a state that is ready for INSTANTIATE. -/
theorem ReadyInstantiate.check {s : State} (h : ReadyInstantiate s) : check .instantiate s = .noError := by
  refine (check_noError_iff .instantiate s).mpr ⟨nofun, fun r hr => ?_, nofun, nofun⟩
  obtain ⟨i, -, rfl⟩ : ∃ i ∈ usedSegs .instantiate, s.args.segRegion i = r :=
    List.mem_map.mp hr
  cases i with
  | seg0 => exact h.seg0_in
  | seg1 => exact h.seg1_in
  | seg2 => exact h.seg2_in

/-- A state that is ready for INSTANTIATE accepts it and loads its micro-program (R110). -/
theorem exec_instantiate {s : State} (h : ReadyInstantiate s) :
    exec .instantiate s = .next (accept .instantiate (progInstantiate s.cfg) s) :=
  exec_of_check h.idle h.check

/-- An accepted INSTANTIATE runs to its function form (R110): SETKV puts the fixed K and V in place of the old ones,
Update mixes the input into them, and COUNT and INST are set. -/
theorem runSteps_instantiate {s : State} {m : ByteString} (he : s.events = [])
    (hm : commandInput .instantiate s = .ok m) :
    runSteps 7 (accept .instantiate (progInstantiate s.cfg) s) = .next (fnInstantiate m s) := by
  refine Eq.trans (runSteps_cons_of (n := 6) he rfl rfl) ?_
  refine Eq.trans (runSteps_add_of (m := 4) (n := 2)
    (runSteps_updPresent (sel := .i3) (m := m) (rest := [.setCnt 1, .setInst true]) he hm rfl)) ?_
  refine Eq.trans (runSteps_cons_of (n := 1) he rfl rfl) ?_
  exact Eq.trans (runSteps_cons_of (n := 0) he rfl rfl) rfl

/-- K and V after INSTANTIATE depend on L and the input only, not on the old generator (R112, R113). -/
theorem fnInstantiate_congr {s s' : State} (hL : s.cfg.hashLen = s'.cfg.hashLen) (m : ByteString) :
    (fnInstantiate m s).k = (fnInstantiate m s').k ∧ (fnInstantiate m s).v = (fnInstantiate m s').v := by
  simp only [fnInstantiate, completed, update_congr hL, hL, and_self]

/-- Settles O9: acceptance loads the micro-program, which runs to the function form. -/
theorem instantiateRunsToItsFunctionForm : Obligations.InstantiateRunsToItsFunctionForm :=
  fun _ _ h he hm => ⟨_, exec_instantiate h, rfl, runSteps_instantiate he hm⟩

/-- Settles O45: both runs end in their function forms, which agree in K and V. -/
theorem instantiateDependsOnlyOnItsInput : Obligations.InstantiateDependsOnlyOnItsInput := by
  intro s s' m h h' he he' hL hm hm'
  obtain ⟨hk, hv⟩ := fnInstantiate_congr hL m
  exact ⟨_, _, _, _, exec_instantiate h, exec_instantiate h', runSteps_instantiate he hm, runSteps_instantiate he' hm',
    hk, hv, rfl, rfl, rfl, rfl⟩

end Sys2Proof.Machine
end

section
/-! The runs of an accepted RESEED and RESEED.A to their function forms, and their agreement when the additional input
or the entropy is empty (spec/42_reseed.md R120 to R122; spec/20_memory.md R57). -/

namespace Sys2Proof.Machine

/-! ### Acceptance (R120, R121) -/

/-- The checks of R168 pass in a state that is ready for RESEED. -/
theorem ReadyReseed.check {s : State} (h : ReadyReseed s) : check .reseed s = .noError := by
  refine (check_noError_iff .reseed s).mpr ⟨fun _ => h.inst_set, fun r hr => ?_, nofun, nofun⟩
  obtain rfl : r = s.args.segRegion .seg0 := List.mem_singleton.mp hr
  exact h.seg0_in

/-- The checks of R168 pass in a state that is ready for RESEED.A. -/
theorem ReadyReseedA.check {s : State} (h : ReadyReseedA s) : check .reseedA s = .noError := by
  refine (check_noError_iff .reseedA s).mpr ⟨fun _ => h.inst_set, fun r hr => ?_, nofun, nofun⟩
  obtain rfl | hr : r = s.args.segRegion .seg0 ∨ r ∈ [s.args.segRegion .seg1] := List.mem_cons.mp hr
  · exact h.seg0_in
  · obtain rfl := List.mem_singleton.mp hr
    exact h.seg1_in

/-- A state that is ready for RESEED accepts it and loads its micro-program (R120). -/
theorem exec_reseed {s : State} (h : ReadyReseed s) : exec .reseed s = .next (accept .reseed progReseed s) :=
  exec_of_check h.idle h.check

/-- A state that is ready for RESEED.A accepts it and loads its micro-program (R121). -/
theorem exec_reseedA {s : State} (h : ReadyReseedA s) : exec .reseedA s = .next (accept .reseedA progReseedA s) :=
  exec_of_check h.idle h.check

/-! ### The runs (R120, R121) -/

/-- An accepted RESEED runs to its function form (R120): Update is the whole micro-program, and msg(RS) is seg(0),
since LATCH.a = 0. -/
theorem runSteps_reseed {s : State} {m : ByteString} (he : s.events = []) (hm : commandInput .reseed s = .ok m) :
    runSteps 4 (accept .reseed progReseed s) = .next (fnReseed m s) :=
  runSteps_updPresent (s := accept .reseed progReseed s) (sel := .rs) (rest := []) he hm rfl

/-- An accepted RESEED.A runs to its function form (R121): Update is the whole micro-program, and msg(RS) is
seg(0) ‖ seg(1), since LATCH.a = 1. -/
theorem runSteps_reseedA {s : State} {m : ByteString} (he : s.events = []) (hm : commandInput .reseedA s = .ok m) :
    runSteps 4 (accept .reseedA progReseedA s) = .next (fnReseedA m s) :=
  runSteps_updPresent (s := accept .reseedA progReseedA s) (sel := .rs) (rest := []) he hm rfl

/-- Settles O10: acceptance loads UPD(present(RS)), which runs to the function form. -/
theorem reseedRunsToItsFunctionForm : Obligations.ReseedRunsToItsFunctionForm :=
  ⟨fun _ _ h he hm => ⟨_, exec_reseed h, rfl, runSteps_reseed he hm, rfl, rfl⟩,
    fun _ _ h he hm => ⟨_, exec_reseedA h, rfl, runSteps_reseedA he hm, rfl, rfl⟩⟩

/-! ### Empty and absent inputs (R122) -/

/-- A segment of length 0 reads as ε, whatever its address is (R57). -/
theorem readSeg_of_len_zero {size : Nat} {r : Args} {i : SegIdx} (m : Memory) (h : (r.segRegion i).len = 0) :
    readSeg size r m i = .ok [] := by
  rw [readSeg_of_inRange m (decide_eq_true (.inl h)), h]
  rfl

section
variable {s : State} {e : ByteString}

/-- The input of RESEED.A with an empty seg(1) is its entropy alone. -/
theorem commandInput_reseedA_of_seg1_empty (h0 : readSeg s.cfg.dmemSize s.args s.dmem .seg0 = .ok e)
    (h1 : s.args.seg1Len = 0) : commandInput .reseedA s = .ok e := by
  have hempty : readSeg s.cfg.dmemSize s.args s.dmem .seg1 = .ok [] :=
    readSeg_of_len_zero s.dmem (congrArg BitVec.toNat h1)
  rw [← List.append_nil e]
  exact readSegs_cons_of h0 (readSegs_singleton_of hempty)

/-- The input of RESEED.A with empty entropy is its additional input alone. -/
theorem commandInput_reseedA_of_seg0_empty (h0 : s.args.seg0Len = 0)
    (h1 : readSeg s.cfg.dmemSize s.args s.dmem .seg1 = .ok e) : commandInput .reseedA s = .ok e := by
  have hempty : readSeg s.cfg.dmemSize s.args s.dmem .seg0 = .ok [] :=
    readSeg_of_len_zero s.dmem (congrArg BitVec.toNat h0)
  exact readSegs_cons_of hempty (readSegs_singleton_of h1)

end

/-- From one K and V the two forms of RESEED give the same K and V for the same input. -/
theorem fnReseedA_eq_fnReseed {s s' : State} (hL : s.cfg.hashLen = s'.cfg.hashLen) (hk : s.k = s'.k) (hv : s.v = s'.v)
    (m : ByteString) : ((fnReseedA m s').k, (fnReseedA m s').v) = ((fnReseed m s).k, (fnReseed m s).v) := by
  simp only [fnReseedA, fnReseed, completed, update_congr hL, hk, hv]

/-- Settles O46: all three have the input e, so each run ends in its function form of e. -/
theorem reseedAbsentAndEmptyAdditionalAgree : Obligations.ReseedAbsentAndEmptyAdditionalAgree := by
  intro s1 s2 s3 e h1 h2 h3 he1 he2 he3 hL2 hL3 hk2 hk3 hv2 hv3 hentropy hentropy2 hempty1 hempty0 hadditional
  have hm2 : commandInput .reseedA s2 = .ok e := commandInput_reseedA_of_seg1_empty hentropy2 hempty1
  have hm3 : commandInput .reseedA s3 = .ok e := commandInput_reseedA_of_seg0_empty hempty0 hadditional
  exact ⟨_, _, _, _, _, _, exec_reseed h1, exec_reseedA h2, exec_reseedA h3,
    runSteps_reseed he1 (readSegs_singleton_of hentropy), runSteps_reseedA he2 hm2, runSteps_reseedA he3 hm3,
    rfl, fnReseedA_eq_fnReseed hL2 hk2 hv2 e, fnReseedA_eq_fnReseed hL3 hk3 hv3 e⟩

end Sys2Proof.Machine
end

section
/-! The blocks of the output loop, the HMAC calls of the micro-programs, and the output byte by byte
(spec/43_generate.md R132, R134, R143; spec/70_reset_and_hazards.md R206; spec/10_state.md R30). -/

namespace Sys2Proof.Machine

open Sys2Proof.Stated

/-! ### The blocks of the output loop (R132) -/

@[simp] theorem outputLoop_length (L N : Nat) : (outputLoop L N).length = blockCount L N := by
  rw [outputLoop, List.length_map, List.length_range]

theorem outputLoop_getElem? {L N i : Nat} (h : i < blockCount L N) :
    (outputLoop L N)[i]? = some (.ho (i * L) (blockLen L N i)) := by
  rw [outputLoop, List.getElem?_map, List.getElem?_range h]
  rfl

/-- Block i exists exactly when the blocks before it do not hold N bytes. -/
theorem lt_blockCount_iff {L N : Nat} (hL : 1 ≤ L) (i : Nat) : i < blockCount L N ↔ i * L < N := by
  rw [← Nat.not_le, blockCount_le_iff hL, Nat.not_le]

/-- A block with another one after it is a whole tag. -/
theorem blockLen_of_not_last {L N i : Nat} (hL : 1 ≤ L) (h : i + 1 < blockCount L N) : blockLen L N i = L := by
  have hnext : (i + 1) * L < N := (lt_blockCount_iff hL _).mp h
  rw [Nat.succ_mul] at hnext
  rw [blockLen]
  omega

/-- What is left for the last block is from 1 to L bytes. -/
theorem last_block_bounds {L N : Nat} (hL : 1 ≤ L) (hN : 0 < N) :
    1 ≤ N - (blockCount L N - 1) * L ∧ N - (blockCount L N - 1) * L ≤ L := by
  obtain ⟨n, hn⟩ : ∃ n, blockCount L N = n + 1 :=
    Nat.exists_eq_succ_of_ne_zero (Nat.ne_of_gt ((lt_blockCount_iff hL 0).mpr (by rwa [Nat.zero_mul])))
  have hbefore : n * L < N := (lt_blockCount_iff hL n).mp (by omega)
  have henough : N ≤ (n + 1) * L := (blockCount_le_iff hL (n + 1)).mp (by omega)
  rw [Nat.succ_mul] at henough
  rw [hn, Nat.add_sub_cancel]
  omega

/-- Settles O15, from when block i exists. -/
theorem outputLoopHasTheRightBlocks : Obligations.OutputLoopHasTheRightBlocks := fun L N hL =>
  ⟨fun i => (blockCount_le_iff hL i).symm, outputLoop_length L N, fun _ => outputLoop_getElem?,
    fun _ => blockLen_of_not_last hL, last_block_bounds hL⟩

/-! ### HMAC calls and lengths of micro-programs (R143, R206) -/

@[simp] theorem hmacCalls_append (p q : List MicroOp) : hmacCalls (p ++ q) = hmacCalls p + hmacCalls q :=
  List.countP_append

/-- Each block of the output loop is one call. -/
@[simp] theorem hmacCalls_outputLoop (L N : Nat) : hmacCalls (outputLoop L N) = blockCount L N := by
  rw [← outputLoop_length, hmacCalls, List.countP_eq_length]
  intro op hop
  obtain ⟨i, -, rfl⟩ := List.mem_map.mp hop
  rfl

@[simp] theorem hmacCalls_updAbsent : hmacCalls updAbsent = 2 := rfl

@[simp] theorem hmacCalls_updPresent (sel : MsgSel) : hmacCalls (updPresent sel) = 4 := rfl

@[simp] theorem hmacCalls_incCnt : hmacCalls [.incCnt] = 0 := rfl

theorem length_progGenerate (cfg : Config) (r : Args) :
    (progGenerate cfg r).length = blockCount cfg.hashLen r.outLen.toNat + 3 := by
  simp only [progGenerate, List.length_append, outputLoop_length]
  rfl

theorem length_progGenerateA_eq_add_nine (cfg : Config) (r : Args) :
    (progGenerateA cfg r).length = blockCount cfg.hashLen r.outLen.toNat + 9 := by
  rw [length_progGenerateA]
  omega

/-- GENERATE.A has the longest micro-program (R30). -/
theorem length_microprogram_le (cfg : Config) (r : Args) (c : Instr) :
    (microprogram cfg r c).length ≤ blockCount cfg.hashLen r.outLen.toNat + 9 := by
  cases c with
  | instantiate => exact (show 7 ≤ _ by omega)
  | reseed => exact (show 4 ≤ _ by omega)
  | reseedA => exact (show 4 ≤ _ by omega)
  | generate => exact (length_progGenerate cfg r).trans_le (by omega)
  | generateA => exact (length_progGenerateA_eq_add_nine cfg r).le
  | zeroize => exact (show 3 ≤ _ by omega)

/-- Settles O16, by counting the parts of the two micro-programs. -/
theorem generateMakesNbPlusTwoOrEightCalls : Obligations.GenerateMakesNbPlusTwoOrEightCalls := by
  refine fun cfg r => ⟨?_, ?_, length_progGenerate cfg r, length_progGenerateA_eq_add_nine cfg r,
    length_microprogram_le cfg r⟩
  · simp [microprogram, progGenerate]
  · simp only [microprogram, progGenerateA, hmacCalls_append, hmacCalls_outputLoop, hmacCalls_updPresent,
      hmacCalls_incCnt]
    omega

/-! ### Output bytes (R133, R134) -/

/-- Settles O19: HO is MemWrite of the first n bytes of the tag. -/
theorem hoWritesTheFirstBytesOfTheTag : Obligations.HoWritesTheFirstBytesOfTheTag := by
  intro s off n rest he _ hn hfits hu
  have hlen : ((hmac s.cfg s.k s.v).take n).length = n := by rw [List.length_take, hmac_length, Nat.min_eq_left hn]
  have hwrite := dmemWrite_of_le (bs := (hmac s.cfg s.k s.v).take n) s.dmem (.inr (hlen.symm ▸ hfits))
  have hdmem (t : State) : (afterMicro rest t).dmem = t.dmem := by rw [← advance_eq_afterMicro, advance_dmem]
  refine ⟨_, step_micro he hu (microStep_ho_of hwrite), by rw [hdmem], fun x => ?_⟩
  rw [hdmem, byte?_memWrite, hlen]
  split
  · exact List.getElem?_take_of_lt (by omega)
  · rfl

/-- Byte j of a chain of tags is byte j mod L of tag ⌊j/L⌋ + 1 (R134). -/
theorem tagChain_getElem? (cfg : Config) (K V : ByteString) {i j : Nat} (hj : j < i * cfg.hashLen) :
    (tagChain cfg K V i)[j]? = (outputTag cfg K V (j / cfg.hashLen + 1))[j % cfg.hashLen]? := by
  induction i with
  | zero => exact absurd hj (by omega)
  | succ i ih =>
    rw [tagChain_succ]
    by_cases hi : j < i * cfg.hashLen
    · rw [List.getElem?_append_left (by rwa [tagChain_length]), ih hi]
    · have hle : i * cfg.hashLen ≤ j := Nat.le_of_not_lt hi
      have hdiv : j / cfg.hashLen = i := Nat.div_eq_of_lt_le hle hj
      have hmod : j % cfg.hashLen = j - i * cfg.hashLen := by
        rw [← hdiv, Nat.mod_eq_sub, Nat.mul_comm]
      rw [List.getElem?_append_right (by rwa [tagChain_length]), tagChain_length, hdiv, hmod]

theorem outputBytes_getElem? {cfg : Config} (hL : 1 ≤ cfg.hashLen) (K V : ByteString) {N j : Nat} (hj : j < N) :
    (outputBytes cfg K V N)[j]? = (outputTag cfg K V (j / cfg.hashLen + 1))[j % cfg.hashLen]? := by
  have henough : N ≤ blockCount cfg.hashLen N * cfg.hashLen := (blockCount_le_iff hL _).mp (Nat.le_refl _)
  calc (outputBytes cfg K V N)[j]? = (tagChain cfg K V (blockCount cfg.hashLen N))[j]? := List.getElem?_take_of_lt hj
    _ = _ := tagChain_getElem? cfg K V (by omega)

/-- DMEM after the output is written, byte by byte. -/
theorem byte?_memWrite_outputBytes {cfg : Config} (hL : 1 ≤ cfg.hashLen) (K V : ByteString) (N a x : Nat) (m : Memory) :
    Memory.byte? (memWrite a (outputBytes cfg K V N) m) x =
      if a ≤ x ∧ x < a + N then (outputTag cfg K V ((x - a) / cfg.hashLen + 1))[(x - a) % cfg.hashLen]?
      else Memory.byte? m x := by
  rw [byte?_memWrite, outputBytes_length hL]
  split
  · exact outputBytes_getElem? hL K V (by omega)
  · rfl

end Sys2Proof.Machine
end

section
/-! The runs of an accepted GENERATE and GENERATE.A to their function forms, what they write, and how a shorter output stands
to a longer one (spec/43_generate.md R130, R131, R134, R140). -/

namespace Sys2Proof.Machine

/-! ### GENERATE (R130) -/

/-- The checks of R168 pass in a state that is ready for GENERATE. -/
theorem ReadyGenerate.check {s : State} (h : ReadyGenerate s) : check .generate s = .noError := by
  refine (check_noError_iff .generate s).mpr ⟨fun _ => h.inst_set, fun r hr => ?_, nofun,
    fun _ => ⟨h.not_exhausted, h.under_limit, h.under_cap⟩⟩
  obtain rfl : r = s.args.outRegion := List.mem_singleton.mp hr
  exact h.out_in

/-- The output region of a state that is ready for a form of GENERATE lies in DMEM (R58). -/
theorem ReadyGenerate.output_fits {s : State} (h : ReadyGenerate s) :
    s.args.outLen.toNat = 0 ∨ s.args.outAddr.toNat + s.args.outLen.toNat ≤ s.cfg.dmemSize :=
  of_decide_eq_true h.out_in

/-- A state that is ready for GENERATE accepts it and loads its micro-program (R130). -/
theorem exec_generate {s : State} (h : ReadyGenerate s) :
    exec .generate s = .next (accept .generate (progGenerate s.cfg s.args) s) :=
  exec_of_check h.idle h.check

/-- The state after the output loop of a command that entered it in the state s, with `rest` left of UQ. -/
def afterOutputLoop (s : State) (rest : List MicroOp) : State :=
  { s with
    v := outputTag s.cfg s.k s.v (blockCount s.cfg.hashLen s.latch.args.outLen.toNat)
    dmem := memWrite s.latch.args.outAddr.toNat (outputBytes s.cfg s.k s.v s.latch.args.outLen.toNat) s.dmem
    uq := rest }

/-- The output loop of an accepted GENERATE. -/
theorem runSteps_generate_loop {s : State} (h : ReadyGenerate s) (he : s.events = []) :
    runSteps (blockCount s.cfg.hashLen s.args.outLen.toNat) (accept .generate (progGenerate s.cfg s.args) s) =
      .next (afterOutputLoop (accept .generate (progGenerate s.cfg s.args) s) (updAbsent ++ [.incCnt])) :=
  runSteps_outputLoop (s := accept .generate (progGenerate s.cfg s.args) s) rfl he (hashLen_pos h.cfg_legal)
    h.output_fits (List.cons_ne_nil _ _) (List.append_assoc ..)

/-- An accepted GENERATE runs to its function form (R130): the output loop, the two-step Update and INCCNT. -/
theorem runSteps_generate {s : State} (h : ReadyGenerate s) (he : s.events = []) :
    runSteps (blockCount s.cfg.hashLen s.args.outLen.toNat + 3) (accept .generate (progGenerate s.cfg s.args) s) =
      .next (fnGenerate s) := by
  rw [runSteps_add_of (runSteps_generate_loop h he)]
  refine Eq.trans (runSteps_add_of (m := 2) (n := 1) (runSteps_updAbsent (rest := [.incCnt]) he rfl)) ?_
  exact Eq.trans (runSteps_cons_of (n := 0) he rfl rfl) rfl

/-- Settles O11: acceptance loads the micro-program, which runs to the function form. -/
theorem generateRunsToItsFunctionForm : Obligations.GenerateRunsToItsFunctionForm :=
  fun _ h he => ⟨_, exec_generate h, congrArg (accept .generate · _) (List.append_assoc ..), runSteps_generate h he⟩

/-! ### GENERATE.A (R131) -/

/-- A state that is ready for GENERATE.A accepts it and loads its micro-program (R131). -/
theorem exec_generateA {s : State} (h : ReadyGenerateA s) :
    exec .generateA s = .next (accept .generateA (progGenerateA s.cfg s.args) s) :=
  exec_of_check h.idle h.check

/-- Settles O12: acceptance loads the micro-program, which runs to the function form. -/
theorem generateARunsToItsFunctionForm : Obligations.GenerateARunsToItsFunctionForm :=
  fun s _ h he hx => ⟨_, exec_generateA h, congrArg (accept .generateA · _) (List.append_assoc ..),
    length_progGenerateA_eq_add_nine s.cfg s.args ▸ runSteps_generateA h he hx⟩

/-- The pre-Update and the output loop of an accepted GENERATE.A: the loop begins with the K and V of the pre-Update. -/
theorem runSteps_generateA_loop {s : State} {x : ByteString} (h : ReadyGenerateA s) (he : s.events = [])
    (hx : commandInput .generateA s = .ok x) :
    runSteps (4 + blockCount s.cfg.hashLen s.args.outLen.toNat)
        (accept .generateA (progGenerateA s.cfg s.args) s) =
      .next (afterOutputLoop
        { accept .generateA (progGenerateA s.cfg s.args) s with k := (preUpdate x s).1, v := (preUpdate x s).2 }
        (updPresent .ga ++ [.incCnt])) := by
  have hprog : progGenerateA s.cfg s.args = updPresent .ga ++
      (outputLoop s.cfg.hashLen s.args.outLen.toNat ++ (updPresent .ga ++ [.incCnt])) := by simp [progGenerateA]
  refine Eq.trans (runSteps_add_of (runSteps_updPresent (sel := .ga) (m := x) he hx hprog)) ?_
  rw [advance_of_ne_nil (by simp)]
  exact runSteps_outputLoop rfl he (hashLen_pos h.cfg_legal) h.output_fits (List.cons_ne_nil _ _) rfl

/-! ### What is written (R134, R140) -/

/-- Settles O14: the runs of the output loop, and DMEM in the function forms, which is one MemWrite of the output. -/
theorem outputBytesAreTheTagChain : Obligations.OutputBytesAreTheTagChain := by
  refine ⟨fun s h he => ?_, fun s x h he hx => ?_⟩
  · exact ⟨_, _, _, exec_generate h, runSteps_generate_loop h he, runSteps_generate h he, rfl, rfl,
      fun y => byte?_memWrite_outputBytes (hashLen_pos h.cfg_legal) ..⟩
  · exact ⟨_, _, _, exec_generateA h, runSteps_generateA_loop h he hx,
      length_progGenerateA_eq_add_nine s.cfg s.args ▸ runSteps_generateA h he hx, rfl, rfl,
      fun y => byte?_memWrite_outputBytes (hashLen_pos h.cfg_legal) ..⟩

/-- GENERATE leaves byte j of its output at OUT_ADDR + j. -/
theorem byte?_fnGenerate {s : State} (hL : 1 ≤ s.cfg.hashLen) {j : Nat} (hj : j < s.args.outLen.toNat) :
    Memory.byte? (fnGenerate s).dmem (s.args.outAddr.toNat + j) =
      (outputTag s.cfg s.k s.v (j / s.cfg.hashLen + 1))[j % s.cfg.hashLen]? := by
  refine Eq.trans (byte?_memWrite_outputBytes hL ..) ?_
  rw [if_pos (by omega), Nat.add_sub_cancel_left]

/-- Settles O47: byte j of both outputs is the same byte of the same tag. -/
theorem shorterOutputIsAPrefix : Obligations.ShorterOutputIsAPrefix := by
  intro s s' h h' he he' hL hk hv hlen
  have hpos := hashLen_pos h.cfg_legal
  refine ⟨_, _, _, _, exec_generate h, exec_generate h', length_progGenerate s.cfg s.args ▸ runSteps_generate h he,
    length_progGenerate s'.cfg s'.args ▸ runSteps_generate h' he', fun j hj => ?_⟩
  have hlong := byte?_fnGenerate (hashLen_pos h'.cfg_legal) (hj.trans_le hlen)
  rw [← hL, ← hk, ← hv, ← outputTag_congr hL] at hlong
  have hget := List.getElem?_eq_getElem ((Nat.mod_lt j hpos).trans_eq
    (outputTag_succ_length s.cfg s.k s.v (j / s.cfg.hashLen)).symm)
  exact ⟨_, (byte?_fnGenerate hpos hj).trans hget, hlong.trans hget⟩

end Sys2Proof.Machine
end

section
/-! ZEROIZE, STATUS, the count registers, the argument registers and the constants as the host uses them
(spec/44_control.md R150 to R156, R158). -/

namespace Sys2Proof.Machine

open Sys2Proof.Stated

/-! ### ZEROIZE (R150, R151) -/

/-- ZEROIZE uses no generator, no segment and no output, so no check applies to it (R167). -/
theorem check_zeroize (s : State) : check .zeroize s = .noError :=
  (check_noError_iff .zeroize s).mpr ⟨nofun, nofun, nofun, nofun⟩

/-- An idle block always accepts ZEROIZE (R150). -/
theorem exec_zeroize {s : State} (hb : s.status.busy = false) :
    exec .zeroize s = .next (accept .zeroize (progZeroize s.cfg) s) :=
  exec_of_check hb (check_zeroize s)

/-- An accepted ZEROIZE runs to its function form: SETKV, SETCNT and SETINST, one turn each (R150). -/
theorem runSteps_zeroize {s : State} (he : s.events = []) :
    runSteps 3 (accept .zeroize (progZeroize s.cfg) s) = .next (fnZeroize s) := by
  refine Eq.trans (runSteps_cons_of (n := 2) he rfl rfl) ?_
  refine Eq.trans (runSteps_cons_of (n := 1) he rfl rfl) ?_
  exact Eq.trans (runSteps_cons_of (n := 0) he rfl rfl) rfl

/-- Settles O13: acceptance loads the micro-program, which runs to the function form. -/
theorem zeroizeRunsToItsFunctionForm : Obligations.ZeroizeRunsToItsFunctionForm :=
  fun _ hb he => ⟨_, exec_zeroize hb, rfl, runSteps_zeroize he⟩

/-- Without a generator the first check of a command that needs one fails (R168). -/
theorem check_notInstantiated {c : Instr} {s : State} (hc : needsInst c = true) (hi : s.inst = false) :
    check c s = .notInstantiated :=
  if_pos ⟨hc, hi⟩

/-- An idle block without a generator rejects every command that needs one (R151, R168). -/
theorem exec_of_no_generator {c : Instr} {s : State} (hb : s.status.busy = false) (hc : needsInst c = true)
    (hi : s.inst = false) : exec c s = .next (rejected .notInstantiated s) := by
  have hcheck := check_notInstantiated hc hi
  rcases exec_cases c s with ⟨h, -⟩ | ⟨-, h, -⟩ | ⟨-, -, h⟩
  · exact absurd (hb.symm.trans h) Bool.false_ne_true
  · exact nomatch hcheck.symm.trans h
  · rwa [hcheck] at h

/-- Settles O49: the function form of ZEROIZE is idle, has no generator, and meets itself but for the held count. -/
theorem zeroizeIsIdempotentAndEndsTheGenerator : Obligations.ZeroizeIsIdempotentAndEndsTheGenerator := by
  intro s hb he
  have needs : ∀ c ∈ [Instr.reseed, .reseedA, .generate, .generateA], needsInst c = true := by decide
  exact ⟨_, fnZeroize s, _, fnZeroize (fnZeroize s), exec_zeroize hb, runSteps_zeroize he, exec_zeroize rfl,
    runSteps_zeroize he, rfl, fun c hc => exec_of_no_generator rfl (needs c hc) rfl⟩

/-! ### Reads that no lock covers -/

/-- The busy lock does not cover a register outside the windows: a read answers its value, busy or not, and changes
nothing (R35). -/
theorem hostAccess_readFree (s : State) {off : Nat} {r : RegName} (hr : regAt off = r) (hfree : r.readLocked = false)
    (hoff : off < regWindowSize) (h4 : off % 4 = 0) :
    hostAccess (.read .w32 (s.cfg.regBase + off)) s = .next (answered (regValue r s) s) := by
  rw [hostAccess_readReg s hoff h4, hr, readReg_of_free (.inl hfree)]

/-! ### Words put together from fields -/

/-- Two parts of a word that do not meet, the upper one from bit k on, add up. -/
theorem toNat_or_of_dvd_of_lt {x y : Word} {m n : Nat} (k : Nat) (hx : x.toNat = m) (hy : y.toNat = n) (hm : 2 ^ k ∣ m)
    (hn : n < 2 ^ k) : (x ||| y).toNat = m + n := by
  obtain ⟨a, rfl⟩ := hm
  rw [BitVec.toNat_or, hx, hy, Nat.two_pow_add_eq_or_of_lt hn]

theorem toNat_bitAt (b : Bool) (n : Nat) (hn : n < 32) : (bitAt b n).toNat = 2 ^ n * b.toNat := by
  cases b
  · simp [bitAt]
  · simpa [bitAt, Nat.shiftLeft_eq] using Nat.pow_lt_pow_right (a := 2) (by decide) hn

theorem toNat_errcode_field (e : ErrCode) : (e.code.setWidth 32 <<< 4).toNat = 16 * e.code.toNat := by
  cases e <;> rfl

/-- STATUS is the sum of its fields, each at its place (R153). -/
theorem toNat_statusWord (s : State) :
    (statusWord s).toNat = 256 * s.status.ovr.toNat + 16 * s.status.errcode.code.toNat + 8 * s.inst.toNat +
      4 * s.status.err.toNat + 2 * s.status.done.toNat + s.status.busy.toNat := by
  have hcode := s.status.errcode.code.isLt
  have hinst := s.inst.toNat_le
  have herr := s.status.err.toNat_le
  have hdone := s.status.done.toNat_le
  have hbusy := s.status.busy.toNat_le
  have upto4 := toNat_or_of_dvd_of_lt 8 (toNat_bitAt s.status.ovr 8 (by decide)) (toNat_errcode_field s.status.errcode)
    (by omega) (by omega)
  have upto3 := toNat_or_of_dvd_of_lt 4 upto4 (toNat_bitAt s.inst 3 (by decide)) (by omega) (by omega)
  have upto2 := toNat_or_of_dvd_of_lt 3 upto3 (toNat_bitAt s.status.err 2 (by decide)) (by omega) (by omega)
  have upto1 := toNat_or_of_dvd_of_lt 2 upto2 (toNat_bitAt s.status.done 1 (by decide)) (by omega) (by omega)
  have upto0 := toNat_or_of_dvd_of_lt 1 upto1 (toNat_bitAt s.status.busy 0 (by decide)) (by omega) (by omega)
  rw [Nat.pow_zero, Nat.one_mul] at upto0
  exact upto0

/-- PARAM is the sum of its fields, L fitting its eight bits (R37). -/
theorem toNat_paramWord {cfg : Config} (h : cfg.hashLen < 256) :
    (paramWord cfg).toNat = cfg.hashLen + 64 * 256 + 65536 * cfg.kvReadable.toNat := by
  have hL : (BitVec.ofNat 32 cfg.hashLen).toNat = cfg.hashLen := Nat.mod_eq_of_lt (by omega)
  have hW : (BitVec.ofNat 32 Config.countWidth <<< 8).toNat = 64 * 256 := by decide
  have low := toNat_or_of_dvd_of_lt 8 hW hL (by decide) h
  have all := toNat_or_of_dvd_of_lt 16 (toNat_bitAt cfg.kvReadable 16 (by decide)) low (by omega) (by omega)
  unfold paramWord
  rw [BitVec.or_comm, BitVec.or_comm (BitVec.ofNat 32 cfg.hashLen), all]
  omega

/-! ### STATUS (R153, R154, R156) -/

/-- Settles O35: a read of STATUS is free, and its value is the sum of the fields. -/
theorem statusReadsItsFields : Obligations.StatusReadsItsFields :=
  fun s => ⟨statusWord s, hostAccess_readFree s (r := .status) rfl rfl (by decide) rfl, toNat_statusWord s⟩

/-- A write of STATUS as one update: OVR is kept where bit 8 is clear (R154). -/
theorem writeStatus_eq (w : Word) (s : State) :
    writeStatus w s = { s with status := { s.status with ovr := s.status.ovr && !w.getLsbD 8 } } := by
  unfold writeStatus
  cases w.getLsbD 8
  · simp
  · simp

/-- Settles O36, from what a write of STATUS does. -/
theorem statusWriteClearsOvrOnly : Obligations.StatusWriteClearsOvrOnly :=
  fun s w =>
    ⟨0, (hostAccess_writeReg s w (by decide) rfl).trans
      (congrArg Host.Outcome.next (writeStatus_eq w (respond 0 s)))⟩

/-- Settles O8: the step is the rejection, and STATUS is then the sum 16 + 8 + 4 + 2. -/
theorem illegalCommandIsRejected : Obligations.IllegalCommandIsRejected := by
  intro s es w why he hb hw
  refine ⟨_, 0, ?_, rfl, rfl, fun hi ho => BitVec.eq_of_toNat_eq ?_⟩
  · calc step s = hostAccess (.write .w32 (cmdAddr s.cfg) w) { s with events := es } := step_of_event he
      _ = writeCmd w (acked s es) := hostAccess_cmd w { s with events := es }
      _ = .next (reject .illegalCmd (acked s es)) := writeCmd_illegal hb hw
  · rw [toNat_statusWord]
    simp [answered, rejected, hi, ho, hb, ErrCode.code]

/-! ### The argument registers (R155) -/

/-- A write of an argument register while the block is idle stores the word (R155). -/
theorem writeArgReg_of_idle {off : Nat} {x : ArgReg} {s : State} (hx : (off, x) ∈ argOffsets)
    (hb : s.status.busy = false) (w : Word) :
    hostAccess (.write .w32 (s.cfg.regBase + off) w) s = .next (writeArg x w (answered 0 s)) := by
  obtain ⟨hr, hoff, h4⟩ := regAt_of_mem_argOffsets hx
  rw [hostAccess_writeReg s w hoff h4, hr]
  exact congrArg Host.Outcome.next (if_neg (by rw [respond_status, hb]; exact Bool.false_ne_true))

/-- Settles O37: a read is free; a write is dropped while busy and stored while idle. -/
theorem argumentRegistersStoreAndRead : Obligations.ArgumentRegistersStoreAndRead := by
  intro s off x w hx
  obtain ⟨hr, hoff, h4⟩ := regAt_of_mem_argOffsets hx
  exact ⟨hostAccess_readFree s hr rfl hoff h4, fun hb => writeArgReg_of_busy hx hb w,
    fun hb => ⟨_, 0, writeArgReg_of_idle hx hb w, rfl, Args.get_set_same _ _ _, fun _ hy => Args.get_set_other _ _ hy⟩⟩

/-! ### Constants, and writes that are ignored (R158) -/

/-- Only CMD, STATUS and the argument registers take a write; every other aligned offset ignores it (R158). -/
theorem hostAccess_write_ignored (s : State) {off : Nat} (w : Word) (hoff : off < regWindowSize) (h4 : off % 4 = 0)
    (hn : off ∉ 0x020 :: 0x024 :: argOffsets.map Prod.fst) :
    Took (hostAccess (.write .w32 (s.cfg.regBase + off) w) s) s := by
  obtain ⟨hcmd, hstatus, harg⟩ : off ≠ 0x020 ∧ off ≠ 0x024 ∧ off ∉ argOffsets.map Prod.fst := by
    simpa only [List.mem_cons, not_or] using hn
  have harg' (x : ArgReg) : regAt off ≠ .arg x := fun h => harg (List.mem_map_of_mem (mem_argOffsets h))
  refine ⟨0, (hostAccess_writeReg s w hoff h4).trans ?_⟩
  rcases writeReg_cases (regAt off) w (respond 0 s) with ⟨hr, -⟩ | ⟨hr, -⟩ | ⟨x, hr, -⟩ | ⟨x, hr, -⟩ | he
  · exact absurd (regAt_eq_cmd hr) hcmd
  · exact absurd (regAt_eq_status hr) hstatus
  · exact absurd hr (harg' x)
  · exact absurd hr (harg' x)
  · exact he

/-- Settles O39: the reads are free, and none of the offsets takes a write. -/
theorem configurationRegistersReadTheirConstants : Obligations.ConfigurationRegistersReadTheirConstants := by
  intro s
  refine ⟨hostAccess_readFree s (r := .id) rfl rfl (by decide) rfl,
    fun hL => ⟨_, hostAccess_readFree s (r := .param) rfl rfl (by decide) rfl, toNat_paramWord hL⟩,
    hostAccess_readFree s (r := .dmemSizeR) rfl rfl (by decide) rfl,
    hostAccess_readFree s (r := .reseedLimitR) rfl rfl (by decide) rfl,
    hostAccess_readFree s (r := .maxGenR) rfl rfl (by decide) rfl,
    fun off w hoff h4 h => hostAccess_write_ignored s w hoff h4 fun hmem => ?_⟩
  rcases h with h | ⟨hn, -⟩
  · have table : ∀ off ∈ [0x000, 0x004, 0x008, 0x00C, 0x010, 0x028, 0x02C],
        off ∉ 0x020 :: 0x024 :: argOffsets.map Prod.fst := by decide
    exact table off h hmem
  · have table : ∀ off ∈ 0x020 :: 0x024 :: argOffsets.map Prod.fst, off ∈ namedOffsets := by decide
    exact hn (table off hmem)

/-! ### The count registers (R152) -/

/-- COUNT_LO and COUNT_HI are the two halves of the readout (R152). -/
theorem regValue_countLo (s : State) : regValue .countLo s = (countReadout s).setWidth 32 :=
  (BitVec.setWidth_eq_extractLsb' (by decide)).symm

theorem regValue_countHi (s : State) : regValue .countHi s = (countReadout s >>> 32).setWidth 32 :=
  BitVec.eq_of_toNat_eq (by simp [regValue])

/-- While a command runs and does not complete, host accesses and turns in any order leave it running, with the count
that acceptance held. -/
theorem runSteps_heldCount {es : List Event} {s t : State} (hb : s.status.busy = true) (he : s.events = es)
    (hes : .reset ∉ es) (hlt : sequencerTurns es < s.uq.length) (ht : runSteps es.length s = .next t) :
    t.status.busy = true ∧ t.heldCount = s.heldCount := by
  induction es generalizing s with
  | nil => exact Host.Outcome.next.inj ht ▸ ⟨hb, rfl⟩
  | cons e es ih =>
    have hes' : .reset ∉ es := fun h => hes (List.mem_cons_of_mem e h)
    obtain ⟨u, hstep, hu⟩ := runSteps_succ_next ht
    have hperform := (step_of_event he).symm.trans hstep
    cases e with
    | reset => exact absurd List.mem_cons_self hes
    | host acc =>
      have hacc : u = withBus u.status.ovr u.resp es s :=
        hostAccess_of_busy (s := { s with events := es }) hb hperform
      rw [hacc] at hu
      exact ih (s := withBus u.status.ovr u.resp es s) hb rfl hes' hlt hu
    | sequencer =>
      rw [show sequencerTurns (.sequencer :: es) = sequencerTurns es + 1 from List.count_cons_self] at hlt
      obtain ⟨hlen, hbusy⟩ := sequencerStep_uq_length (s := { s with events := es }) hperform
        (show 1 < s.uq.length by omega)
      obtain ⟨-, -, -, hheld, hev, -⟩ := sequencerStep_frame hperform
      have hlen' : u.uq.length + 1 = s.uq.length := hlen
      obtain ⟨hb', hheld'⟩ := ih (hbusy.trans hb) hev hes' (by omega) hu
      exact ⟨hb', hheld'.trans hheld⟩

/-- From acceptance on, until the command completes, the readout is COUNT as it was before (R152). A rejected command
leaves UQ empty, so no run is short of its completion. -/
theorem countReadout_after_exec {s a t : State} {c : Instr} {es : List Event} (hs : GoodState s)
    (hb : s.status.busy = false) (ha : exec c s = .next a) (hes : .reset ∉ es) (hlt : sequencerTurns es < a.uq.length)
    (ht : runSteps es.length { a with events := es } = .next t) : countReadout t = s.count := by
  have hidle : s.uq = [] := not_not.mp fun h => absurd (hb.symm.trans (hs.busy_iff.mpr h)) Bool.false_ne_true
  rcases exec_cases c s with ⟨h, -⟩ | ⟨-, -, h⟩ | ⟨-, -, h⟩
  · exact absurd (hb.symm.trans h) Bool.false_ne_true
  · obtain rfl := Host.Outcome.next.inj (h.symm.trans ha)
    obtain ⟨hbusy, hheld⟩ := runSteps_heldCount (s := { accept c _ s with events := es }) rfl rfl hes hlt ht
    exact (countReadout_of_busy hbusy).trans hheld
  · obtain rfl := Host.Outcome.next.inj (h.symm.trans ha)
    rw [show (reject (check c s) s).uq = [] from hidle] at hlt
    exact absurd hlt (Nat.not_lt_zero _)

/-- Settles O38: the reads are free, and a running command keeps the held count (`runSteps_heldCount`). -/
theorem countReadsAsBeforeTheRunningCommand : Obligations.CountReadsAsBeforeTheRunningCommand := by
  refine ⟨fun s => ⟨?_, ?_, countReadout_of_idle⟩, fun _ => rfl, fun _ => rfl,
    fun _ _ _ _ _ hs hb ha hes hlt ht => countReadout_after_exec hs hb ha hes hlt ht⟩
  · rw [← regValue_countLo]
    exact hostAccess_readFree s rfl rfl (by decide) rfl
  · rw [← regValue_countHi]
    exact hostAccess_readFree s rfl rfl (by decide) rfl

end Sys2Proof.Machine
end

section
/-! A CMD write, the order of the acceptance checks, and RESEED_REQUIRED (spec/60_exceptions.md R165 to R170, R175). -/

namespace Sys2Proof.Machine

open Sys2Proof.Stated

/-! ### A CMD write (R165, R169, R170) -/

/-- A step on the host's write of a word to CMD offers that word in the acknowledged state. -/
theorem step_cmdWord {s : State} {es : List Event} {w : Word}
    (he : s.events = .host (.write .w32 (s.cfg.regBase + 0x020) w) :: es) : step s = writeCmd w (acked s es) :=
  calc step s = hostAccess (.write .w32 (cmdAddr s.cfg) w) { s with events := es } := step_of_event he
    _ = writeCmd w (acked s es) := hostAccess_cmd w { s with events := es }

/-- An idle block rejects a command with the code of its failing check (R168, R170). -/
theorem exec_of_check_ne {c : Instr} {s : State} (hb : s.status.busy = false) (hc : check c s ≠ .noError) :
    exec c s = .next (reject (check c s) s) := by
  rcases exec_cases c s with ⟨h, -⟩ | ⟨-, h, -⟩ | ⟨-, -, h⟩
  · exact absurd (hb.symm.trans h) Bool.false_ne_true
  · exact absurd h hc
  · exact h

/-- Acceptance loads LATCH with the opcode and the A bit of the written word (R29, R169). -/
theorem accept_eq_accepted {w : Word} {c : Instr} (hw : decode w = .command c) (p : List MicroOp) (s : State) :
    accept c p s = accepted (w.extractLsb' 0 4) (w.getLsbD 4) p s := by
  obtain ⟨hopc, ha⟩ := fields_of_decode hw
  rw [← hopc, ← ha]
  rfl

/-- Settles O6: the step offers the word, which is dropped, rejected as illegal, rejected by a check, or accepted. -/
theorem cmdWriteIsDroppedRejectedOrAccepted : Obligations.CmdWriteIsDroppedRejectedOrAccepted := by
  rintro s s' es w he rfl
  have hstep := step_cmdWord he
  refine ⟨fun hb => ⟨0, ?_⟩, fun hb why hw => ⟨0, ?_⟩, fun hb c hw hc => ⟨0, ?_⟩, fun hb c hw hc =>
    ⟨s.count, ⟨0, ?_⟩, microprogram_ne_nil _ _ _⟩⟩
  · exact hstep.trans (writeCmd_busy w (s := acked s es) hb)
  · exact hstep.trans (writeCmd_illegal (s := acked s es) hb hw)
  · rw [hstep, writeCmd_of_decode hw]
    exact exec_of_check_ne (s := acked s es) hb hc
  · rw [hstep, writeCmd_of_decode hw, exec_of_check (s := acked s es) hb hc, accept_eq_accepted hw]
    rfl

/-! ### The order of the checks (R167, R168) -/

theorem ErrCode.eq_of_code {d e : ErrCode} (h : d.code.toNat = e.code.toNat) : d = e := by
  revert h
  cases d <;> cases e <;> decide

/-- The commands of the rows of R167 that ask for a generator. -/
theorem needsInst_iff_mem (c : Instr) :
    needsInst c = true ↔ c ∈ [Instr.reseed, .reseedA, .generate, .generateA] := by
  cases c <;> decide

/-- The commands of the rows of R167 that ask for an output region. -/
theorem usesOutput_iff_mem (c : Instr) : usesOutput c = true ↔ c ∈ [Instr.generate, .generateA] := by
  cases c <;> decide

/-- A region fails the range check when it has bytes and ends past DMEM_SIZE (R58). -/
theorem Region.inRange_eq_false_iff (size : Nat) (r : Region) :
    (!r.inRange size) = true ↔ r.len > 0 ∧ r.addr + r.len > size := by
  simp only [Region.inRange, Bool.not_eq_true', decide_eq_false_iff_not]
  omega

/-- A command uses the regions of its segments and, if it has one, its output region (R57). -/
theorem mem_usedRegions_iff (c : Instr) (r : Args) (x : Region) :
    x ∈ usedRegions c r ↔
      (∃ i, (c, i) ∈ rangeChecked ∧ x = r.segRegion i) ∨ (c ∈ [Instr.generate, .generateA] ∧ x = r.outRegion) := by
  simp only [usedRegions, List.mem_append, List.mem_map, List.mem_ite_nil_right, List.mem_singleton,
    ← mem_rangeChecked_iff, usesOutput_iff_mem, eq_comm (b := x)]

/-- The range check of R168 is that of the rows of R167. -/
theorem any_outOfRange_iff (c : Instr) (s : State) :
    (usedRegions c s.args).any (fun r => !r.inRange s.cfg.dmemSize) = true ↔ CheckFails c s .range := by
  simp only [List.any_eq_true, mem_usedRegions_iff, Region.inRange_eq_false_iff, CheckFails]
  constructor
  · rintro ⟨x, ⟨i, hi, rfl⟩ | ⟨hc, rfl⟩, hx⟩
    · exact .inl ⟨i, hi, hx⟩
    · exact .inr ⟨hc, hx⟩
  · rintro (⟨i, hi, hx⟩ | ⟨hc, hx⟩)
    · exact ⟨_, .inl ⟨i, hi, rfl⟩, hx⟩
    · exact ⟨_, .inr ⟨hc, rfl⟩, hx⟩

/-- Of the checks whose codes are n or more, e is the first that fails, or NONE when none of them fails. -/
structure FirstFailureFrom (c : Instr) (s : State) (n : Nat) (e : ErrCode) : Prop where
  fails : e ≠ .noError → CheckFails c s e ∧ n ≤ e.code.toNat
  earlier_pass : ∀ d : ErrCode, n ≤ d.code.toNat → e = .noError ∨ d.code.toNat < e.code.toNat → ¬ CheckFails c s d

/-- The highest code is 7, so from 8 on no check is left to fail (R166). -/
theorem firstFailureFrom_eight (c : Instr) (s : State) : FirstFailureFrom c s 8 .noError where
  fails h := absurd rfl h
  earlier_pass d hd := absurd hd (by cases d <;> decide)

/-- Testing the check of code n before those from n + 1 on finds the first failure from n on. -/
theorem FirstFailureFrom.ite {c : Instr} {s : State} {p : Prop} [Decidable p] {d e : ErrCode}
    (hp : p ↔ CheckFails c s d) (hd : d ≠ .noError) (h : FirstFailureFrom c s (d.code.toNat + 1) e) :
    FirstFailureFrom c s d.code.toNat (if p then d else e) := by
  split
  · rename_i hpd
    exact ⟨fun _ => ⟨hp.mp hpd, Nat.le_refl _⟩,
      fun d' hle hlt => absurd (hlt.resolve_left hd) (Nat.not_lt.mpr hle)⟩
  · rename_i hpd
    refine ⟨fun he => ⟨(h.fails he).1, Nat.le_of_succ_le (h.fails he).2⟩, fun d' hle hlt => ?_⟩
    rcases Nat.eq_or_lt_of_le hle with heq | hgt
    · obtain rfl := ErrCode.eq_of_code heq
      exact fun hf => hpd (hp.mpr hf)
    · exact h.earlier_pass d' hgt hlt

/-- `check` tests the checks one after another in the order of their codes, from 2 on (R168). -/
theorem firstFailureFrom_check (c : Instr) (s : State) : FirstFailureFrom c s 2 (check c s) := by
  have hout := usesOutput_iff_mem c
  have overlap : c = .generateA ∧ (s.args.segRegion .seg0).overlaps s.args.outRegion = true ↔ CheckFails c s .overlap :=
    and_congr_right' decide_eq_true_iff
  exact .ite (d := .notInstantiated) (and_congr_left' (needsInst_iff_mem c)) nofun <|
    .ite (d := .range) (any_outOfRange_iff c s) nofun <|
    .ite (d := .overlap) overlap nofun <|
    .ite (d := .countExhausted) (and_congr_left' hout) nofun <|
    .ite (d := .reseedRequired) (and_congr_left' hout) nofun <|
    .ite (d := .requestTooLarge) (and_congr_left' hout) nofun <|
    firstFailureFrom_eight c s

/-- A check that fails has a code from 2 on: NONE and ILLEGAL_CMD are no checks of a command (R168). -/
theorem two_le_code_of_checkFails {c : Instr} {s : State} {e : ErrCode} (h : CheckFails c s e) : 2 ≤ e.code.toNat := by
  cases e with
  | noError => exact h.elim
  | illegalCmd => exact h.elim
  | _ => decide

/-- The reported code is that of a failing check. -/
theorem checkFails_check {c : Instr} {s : State} (h : check c s ≠ .noError) : CheckFails c s (check c s) :=
  ((firstFailureFrom_check c s).fails h).1

/-- No check before the reported one fails, and none at all when NONE is reported. -/
theorem not_checkFails_before_check {c : Instr} {s : State} {d : ErrCode}
    (h : check c s = .noError ∨ d.code.toNat < (check c s).code.toNat) : ¬ CheckFails c s d :=
  fun hd => (firstFailureFrom_check c s).earlier_pass d (two_le_code_of_checkFails hd) h hd

theorem check_eq_noError_iff_forall (c : Instr) (s : State) : check c s = .noError ↔ ∀ e, ¬ CheckFails c s e :=
  ⟨fun h _ => not_checkFails_before_check (.inl h), fun h => by_contra fun hne => h _ (checkFails_check hne)⟩

/-- Settles O7: the reported check fails with none before it, and there is only one such check. -/
theorem checkReportsTheFirstFailure : Obligations.CheckReportsTheFirstFailure := by
  refine fun c s => ⟨fun e he => ⟨?_, fun ⟨hfails, hfirst⟩ => ?_⟩, check_eq_noError_iff_forall c s⟩
  · rintro rfl
    exact ⟨checkFails_check he, fun d hd => not_checkFails_before_check (.inr hd)⟩
  · have hne : check c s ≠ .noError := fun h => not_checkFails_before_check (.inl h) hfails
    rcases Nat.lt_trichotomy (check c s).code.toNat e.code.toNat with hlt | heq | hgt
    · exact absurd (checkFails_check hne) (hfirst _ hlt)
    · exact ErrCode.eq_of_code heq
    · exact absurd hfails (not_checkFails_before_check (.inr hgt))

/-! ### RESEED_REQUIRED (R123, R175) -/

/-- With COUNT over an enabled RESEED_LIMIT no form of GENERATE passes its checks (R168). -/
theorem check_ne_noError_of_over_limit {c : Instr} {s : State} (hc : c ∈ [Instr.generate, .generateA])
    (hlimit : s.cfg.reseedLimit ≠ 0) (hcount : s.count.toNat > s.cfg.reseedLimit.toNat) : check c s ≠ .noError :=
  fun h => (check_eq_noError_iff_forall c s).mp h .reseedRequired ⟨hc, hlimit, hcount⟩

/-- With the earlier checks passed and COUNT over an enabled RESEED_LIMIT a form of GENERATE is rejected with
RESEED_REQUIRED (R168). -/
theorem check_reseedRequired {c : Instr} {s : State} (hc : usesOutput c = true) (hinst : s.inst = true)
    (hrange : ∀ r ∈ usedRegions c s.args, r.inRange s.cfg.dmemSize = true)
    (hapart : c = .generateA → (s.args.segRegion .seg0).overlaps s.args.outRegion = false)
    (hexhausted : s.count.toNat < 2 ^ 64 - 1) (hlimit : s.cfg.reseedLimit ≠ 0)
    (hcount : s.count.toNat > s.cfg.reseedLimit.toNat) : check c s = .reseedRequired := by
  unfold check
  rw [if_neg (by simp [hinst]), if_neg (by simpa using hrange), if_neg (fun h => by simp [hapart h.1] at h),
    if_neg (fun h => absurd h.2 (Nat.ne_of_lt hexhausted)), if_pos ⟨hc, hlimit, hcount⟩]

/-- Settles O50: the checks read neither K nor V, and RESEED writes nothing else that they read. -/
theorem reseedDoesNotClearReseedRequired : Obligations.ReseedDoesNotClearReseedRequired := by
  intro s hb hlimit hcount
  have hcheck (c : Instr) (hc : c ∈ [Instr.generate, .generateA]) : check c s ≠ .noError :=
    check_ne_noError_of_over_limit hc hlimit hcount
  refine ⟨fun c hc => ⟨_, hcheck c hc, exec_of_check_ne hb (hcheck c hc)⟩, fun m c hc => ⟨_, hcheck c hc,
    exec_of_check_ne (s := fnReseed m s) rfl (hcheck c hc), exec_of_check_ne (s := fnReseedA m s) rfl (hcheck c hc)⟩,
    fun hinst hout hlt => ?_, fun _ => rfl⟩
  refine check_reseedRequired rfl hinst (fun r hr => ?_) nofun hlt hlimit hcount
  obtain rfl : r = s.args.outRegion := List.mem_singleton.mp hr
  exact hout

end Sys2Proof.Machine
end

section
/-! What can stop a step of a good state, and that nothing stops a running command whose input is written
(spec/60_exceptions.md R171, R172; spec/20_memory.md R50, R51; spec/10_state.md R31; spec/40_update.md R95). -/

namespace Sys2Proof.Machine

open Sys2Proof.Stated

/-! ### Host accesses that stop (R50, R51) -/

/-- A register write always has a next state. -/
theorem writeReg_total (r : RegName) (w : Word) (s : State) : ∃ t, writeReg r w s = .next t := by
  rcases writeReg_cases r w s with ⟨-, he⟩ | ⟨-, he⟩ | ⟨x, -, -, he⟩ | ⟨x, -, -, he⟩ | he
  · rw [he]
    exact writeCmd_total w s
  · exact ⟨_, he⟩
  · exact ⟨_, he⟩
  · exact ⟨_, he⟩
  · exact ⟨_, he⟩

/-- A host read of DMEM goes on or meets an unwritten byte. -/
theorem readDmem_next_or_unwritten (a n : Nat) (s : State) :
    (∃ t, readDmem a n s = .next t) ∨
    ∃ x, readDmem a n s = .fault (.unwrittenByte x) ∧ Memory.byte? s.dmem x = none := by
  unfold readDmem
  split
  · exact .inl ⟨_, rfl⟩
  · split
    · rename_i hread
      obtain ⟨x, rfl, -, -, hx⟩ := memRead_error hread
      exact .inr ⟨x, rfl, hx⟩
    · exact .inl ⟨_, rfl⟩

/-- The access goes to this host address. -/
def AccessAt (acc : Access) (a : Nat) : Prop :=
  ∃ width, acc = .read width a ∨ ∃ w, acc = .write width a w

/-- A host access goes on, reads an unwritten byte, or lies in neither window. -/
theorem hostAccess_next_or_fault (acc : Access) (s : State) :
    (∃ t, hostAccess acc s = .next t) ∨
    (∃ x, hostAccess acc s = .fault (.unwrittenByte x) ∧ Memory.byte? s.dmem x = none) ∨
    ∃ a, hostAccess acc s = .fault (.unmappedAddress a) ∧ target s.cfg a = .nowhere ∧ AccessAt acc a := by
  cases acc with
  | read width a =>
    simp only [hostAccess]
    split
    · exact .inl ⟨_, rfl⟩
    · split
      · exact (readDmem_next_or_unwritten _ _ s).imp_right .inl
      · exact .inl ⟨_, rfl⟩
    · exact .inr (.inr ⟨a, rfl, ‹_›, width, .inl rfl⟩)
  | write width a w =>
    simp only [hostAccess]
    split
    · split
      · exact .inl (writeReg_total _ w _)
      · exact .inl ⟨_, rfl⟩
    · exact .inl ⟨_, rfl⟩
    · exact .inr (.inr ⟨a, rfl, ‹_›, width, .inr ⟨w, rfl⟩⟩)

/-! ### Micro-operations of a running command -/

section
variable {c : Instr} {s : State} {op : MicroOp} {rest : List MicroOp} (hr : Runs c s)
include hr

/-- The segments that a running command uses are in range (R58). -/
theorem Runs.segment_in_range {i : SegIdx} (hi : i ∈ usedSegs c) :
    (s.latch.args.segRegion i).inRange s.cfg.dmemSize = true :=
  hr.in_range _ (List.mem_append_left _ (List.mem_map_of_mem hi))

/-- The output region of a running command that has one lies in DMEM (R58). -/
theorem Runs.output_fits (hc : usesOutput c = true) :
    s.latch.args.outLen.toNat = 0 ∨ s.latch.args.outAddr.toNat + s.latch.args.outLen.toNat ≤ s.cfg.dmemSize :=
  of_decide_eq_true (hr.in_range s.latch.args.outRegion (List.mem_append_right _ (by rw [if_pos hc]; simp)))

variable (hL : 1 ≤ s.cfg.hashLen) (hu : s.uq = op :: rest)
include hL hu

/-- The next HK of a running command reads only segments that the command uses. -/
theorem Runs.mem_usedSegs_of_hk {sep : Sep} {sel : MsgSel} (hop : op = .hk sep sel) {i : SegIdx}
    (hi : i ∈ selSegs s.latch.a sel) : i ∈ usedSegs c :=
  (programTail hL (hu ▸ hr.left_of_program)).hk_segments sep sel hop i (hr.a_eq ▸ hi)

/-- The next micro-operation of a running command succeeds, but for an HK that cannot read its message: HO writes
inside the output region (R58, R133), and the others always succeed. -/
theorem Runs.microStep_ok_or_message_error :
    (∃ t, microStep op s = .ok t) ∨
    ∃ sep sel f, op = .hk sep sel ∧ message s sel = .error f ∧ microStep op s = .error f := by
  cases op with
  | hk sep sel =>
    cases hm : message s sel with
    | error f => exact .inr ⟨sep, sel, f, rfl, hm, microStep_hk_error hm⟩
    | ok m => exact .inl ⟨_, microStep_hk_of hm⟩
  | ho off n =>
    obtain ⟨hn, hnL, hend, hc⟩ := (programTail hL (hu ▸ hr.left_of_program)).ho_bounds off n rfl
    have hfits := hr.output_fits hc
    refine .inl ⟨_, microStep_ho_of (dmemWrite_of_le _ (.inr ?_))⟩
    rw [List.length_take, hmac_length]
    omega
  | _ => exact .inl ⟨_, rfl⟩

/-- The next micro-operation of a running command succeeds or meets an unwritten byte. -/
theorem Runs.microStep_ok_or_unwritten :
    (∃ t, microStep op s = .ok t) ∨
    ∃ x, microStep op s = .error (.unwrittenByte x) ∧ Memory.byte? s.dmem x = none := by
  refine (hr.microStep_ok_or_message_error hL hu).imp_right ?_
  rintro ⟨sep, sel, f, hop, hm, he⟩
  obtain ⟨x, rfl, hx⟩ := readSegs_error (fun i hi => hr.segment_in_range (hr.mem_usedSegs_of_hk hL hu hop hi)) hm
  exact ⟨x, he, hx⟩

/-- With its input written the next micro-operation of a running command succeeds (R51). -/
theorem Runs.microStep_ok_of_written (hw : InputsWritten s) : ∃ t, microStep op s = .ok t := by
  refine (hr.microStep_ok_or_message_error hL hu).resolve_right ?_
  rintro ⟨sep, sel, f, hop, hm, -⟩
  obtain ⟨m, hok⟩ := readSegs_ok_of_written
    (fun i hi => hr.segment_in_range (hr.mem_usedSegs_of_hk hL hu hop hi))
    (fun i hi => hw c hr i (hr.mem_usedSegs_of_hk hL hu hop hi))
  exact nomatch hm.symm.trans hok

end

/-! ### What stops a step (R172) -/

/-- A turn of the sequencer in a good state goes on or meets an unwritten byte. -/
theorem sequencerStep_next_or_unwritten {s : State} (hs : GoodState s) :
    (∃ t, sequencerStep s = .next t) ∨
    ∃ x, sequencerStep s = .fault (.unwrittenByte x) ∧ Memory.byte? s.dmem x = none := by
  rcases sequencerStep_cases s with ⟨-, he⟩ | ⟨op, rest, f, hu, hm, he⟩ | ⟨_, _, _, -, -, he⟩
  · exact .inl ⟨_, he⟩
  · obtain ⟨c, hr⟩ := hs.running (hs.busy_iff.mpr (by rw [hu]; exact List.cons_ne_nil _ _))
    rcases hr.microStep_ok_or_unwritten (hashLen_pos hs.cfg_legal) hu with ⟨t, ht⟩ | ⟨x, hx, hnone⟩
    · exact nomatch hm.symm.trans ht
    · obtain rfl := Except.error.inj (hm.symm.trans hx)
      exact .inr ⟨x, he, hnone⟩
  · exact .inl ⟨_, he⟩

/-- A step of a good state goes on, meets an unwritten byte, or is a host access in neither window. -/
theorem step_next_or_fault {s : State} (hs : GoodState s) :
    (∃ t, step s = .next t) ∨
    (∃ x, step s = .fault (.unwrittenByte x) ∧ Memory.byte? s.dmem x = none) ∨
    ∃ a acc es, step s = .fault (.unmappedAddress a) ∧ s.events = .host acc :: es ∧ target s.cfg a = .nowhere ∧
      AccessAt acc a := by
  cases he : s.events with
  | nil =>
    rw [step_of_no_event he]
    exact (sequencerStep_next_or_unwritten hs).imp_right .inl
  | cons e es =>
    rw [step_of_event he]
    cases e with
    | host acc =>
      rcases hostAccess_next_or_fault acc { s with events := es } with h | h | ⟨a, hf, ht, hacc⟩
      · exact .inl h
      · exact .inr (.inl h)
      · exact .inr (.inr ⟨a, acc, es, hf, rfl, ht, hacc⟩)
    | sequencer => exact (sequencerStep_next_or_unwritten (hs.withEvents es)).imp_right .inl
    | reset => exact .inl ⟨_, rfl⟩

/-- Settles O25, from the three outcomes of a step. -/
theorem onlyUnwrittenBytesAndStrayAccessesStop : Obligations.OnlyUnwrittenBytesAndStrayAccessesStop := by
  intro s hs
  rcases step_next_or_fault hs with ⟨t, h⟩ | ⟨x, h, hx⟩ | ⟨a, acc, es, h, he, ht, hacc⟩ <;> rw [h]
  · exact ⟨nofun, nofun⟩
  · exact ⟨fun f hf => .inl ⟨x, (Host.Outcome.fault.inj hf).symm, hx⟩, nofun⟩
  · exact ⟨fun f hf => .inr ⟨a, acc, es, (Host.Outcome.fault.inj hf).symm, he, ht, hacc⟩, nofun⟩

/-! ### A running command completes (R171) -/

/-- A command runs in a good state, its input is written, and only the sequencer has its turns. -/
structure RunsUndisturbed (s : State) : Prop where
  good : GoodState s
  busy : s.status.busy = true
  inputs : InputsWritten s
  no_event : s.events = []

/-- Input bytes stay written: a turn of the sequencer unwrites nothing and keeps LATCH, which names one command. -/
theorem inputsWritten_advance {s u : State} {c : Instr} {op : MicroOp} (h : InputsWritten s) (hr : Runs c s)
    (hm : microStep op s = .ok u) (rest : List MicroOp) : InputsWritten (advance rest u) := by
  intro d hd i hi j hj
  have hlatch : (advance rest u).latch = s.latch := by rw [advance_latch, microStep_latch hm]
  obtain rfl : d = c := hr.eq_of_latched ⟨hlatch ▸ hd.opc_eq, hlatch ▸ hd.a_eq⟩
  rw [hlatch] at hj ⊢
  rw [advance_dmem]
  exact microStep_written hm (h d hr i hi j hj)

section
variable {s : State} (h : RunsUndisturbed s)
include h

/-- The sequencer takes the head of UQ, and goes on undisturbed while something is left. -/
theorem RunsUndisturbed.turn :
    ∃ op rest u, s.uq = op :: rest ∧ microStep op s = .ok u ∧ step s = .next (advance rest u) ∧
      (rest ≠ [] → RunsUndisturbed (advance rest u)) := by
  obtain ⟨op, rest, hu⟩ := List.exists_cons_of_ne_nil (h.good.busy_iff.mp h.busy)
  obtain ⟨c, hr⟩ := h.good.running h.busy
  obtain ⟨u, hm⟩ := hr.microStep_ok_of_written (hashLen_pos h.good.cfg_legal) hu h.inputs
  have hturn := sequencerStep_of_ok hu hm
  have hgood : GoodState (advance rest u) := goodState_sequencerStep h.good hturn
  obtain ⟨-, -, -, -, hevents, -⟩ := sequencerStep_frame hturn
  exact ⟨op, rest, u, hu, hm, (step_of_no_event h.no_event).trans hturn, fun hrest => {
    good := hgood
    busy := hgood.busy_iff.mpr (by rwa [advance_uq])
    inputs := inputsWritten_advance h.inputs hr hm rest
    no_event := hevents.trans h.no_event }⟩

/-- Until UQ is empty the command runs on, one micro-operation a step. -/
theorem RunsUndisturbed.goes_on {j : Nat} (hj : j < s.uq.length) :
    ∃ t, runSteps j s = .next t ∧ RunsUndisturbed t ∧ t.uq = s.uq.drop j := by
  induction j with
  | zero => exact ⟨s, rfl, h, rfl⟩
  | succ j ih =>
    obtain ⟨t, hrun, ht, htu⟩ := ih (Nat.lt_of_succ_lt hj)
    obtain ⟨op, rest, u, hu, -, hstep, hmore⟩ := ht.turn
    have hrest : rest = s.uq.drop (j + 1) := by rw [← List.tail_drop, ← htu, hu, List.tail_cons]
    have hne : rest ≠ [] := by rw [hrest]; exact List.ne_nil_of_length_pos (by rw [List.length_drop]; omega)
    exact ⟨_, (runSteps_add_of hrun).trans (runSteps_succ_of hstep), hmore hne, by rw [advance_uq, hrest]⟩

/-- ERRCODE is NONE while a command runs (R34). -/
theorem RunsUndisturbed.errcode_eq : s.status.errcode = .noError := by
  by_contra hne
  exact absurd ((h.good.busy_flags h.busy).2.symm.trans (h.good.err_iff.mpr hne)) Bool.false_ne_true

/-- The step that empties UQ completes the command without an error (R95, R171). -/
theorem RunsUndisturbed.completes :
    ∃ t, runSteps s.uq.length s = .next t ∧ t.status.busy = false ∧ t.status.done = true ∧ t.uq = [] ∧
      t.status.err = false ∧ t.status.errcode = .noError := by
  have hpos : 0 < s.uq.length := List.length_pos_of_ne_nil (h.good.busy_iff.mp h.busy)
  obtain ⟨t, hrun, ht, htu⟩ := h.goes_on (Nat.sub_one_lt_of_lt hpos)
  obtain ⟨op, rest, u, hu, hm, hstep, -⟩ := ht.turn
  obtain rfl : rest = [] := by
    rw [← List.tail_cons (a := op) (as := rest), ← hu, htu, List.tail_drop, Nat.sub_add_cancel hpos, List.drop_length]
  have hstatus := microStep_status hm
  refine ⟨advance [] u, ?_, rfl, rfl, rfl, ?_, ?_⟩
  · rw [← Nat.sub_add_cancel hpos, runSteps_add_of hrun]
    exact runSteps_succ_of hstep
  · rw [advance_err, hstatus]
    exact (ht.good.busy_flags ht.busy).2
  · rw [advance_errcode, hstatus]
    exact ht.errcode_eq

end

/-- Settles O26: the command runs undisturbed until UQ is empty, and then completes. -/
theorem everyAcceptedCommandCompletes : Obligations.EveryAcceptedCommandCompletes := by
  intro s hs hb hw he
  have h : RunsUndisturbed s := ⟨hs, hb, hw, he⟩
  refine ⟨h.completes, fun j hj => ?_⟩
  obtain ⟨t, hrun, ht, hu⟩ := h.goes_on hj
  exact ⟨t, hrun, ht.busy, hu⟩

end Sys2Proof.Machine
end

section
/-! Reset and hazards: what reset leaves, a dropped command word, and WAIT with no command
(spec/70_reset_and_hazards.md R190, R196, R200). -/

namespace Sys2Proof.Machine

open Sys2Proof.Stated

/-! ### Reset (R190) -/

/-- STATUS reads 0 after reset (R46). -/
theorem statusWord_assertReset (s : State) : statusWord (assertReset s) = 0 :=
  BitVec.eq_of_toNat_eq (toNat_statusWord (assertReset s))

/-- Settles O51: the next state is that of R46 with the remaining events, field by field. -/
theorem resetSetsEveryPieceOfState : Obligations.ResetSetsEveryPieceOfState := fun _ _ he =>
  ⟨_, step_of_event he, rfl, rfl, rfl, rfl, rfl, rfl, rfl, fun x => by cases x <;> rfl, rfl,
    statusWord_assertReset _, rfl, byte?_nil⟩

/-! ### A command word written while a command runs (R165, R196) -/

/-- The step that drops a command word changes OVR and the answer on the bus only. -/
theorem step_cmdWord_of_busy {s : State} {es : List Event} {w : Word} (hb : s.status.busy = true)
    (he : s.events = .host (.write .w32 (s.cfg.regBase + 0x020) w) :: es) :
    step s = .next (withBus true (some { error := false, data := 0 }) es s) :=
  (step_cmdWord he).trans (writeCmd_busy w (s := acked s es) hb)

/-- A run of sequencer turns neither reads nor writes OVR and the answer on the bus. -/
theorem runSteps_withBus_of_no_event {n : Nat} {s u : State} (o : Bool) (b : Option BusResponse) (he : s.events = [])
    (h : runSteps n s = .next u) : runSteps n (withBus o b [] s) = .next (withBus o b [] u) := by
  induction n generalizing s with
  | zero => exact Host.Outcome.next.inj h ▸ rfl
  | succ n ih =>
    obtain ⟨t, hstep, hrun⟩ := runSteps_succ_next h
    rw [step_of_no_event he] at hstep
    obtain ⟨-, -, -, -, hev, -⟩ := sequencerStep_frame hstep
    have hturn : step (withBus o b [] s) = .next (withBus o b [] t) :=
      (step_of_no_event rfl).trans (sequencerStep_withBus o b [] hstep)
    exact (runSteps_succ_of hturn).trans (ih (hev.trans he) hrun)

/-- Settles O55: the dropped word sets OVR, and the turns after it complete the running command as they do without
it. -/
theorem droppedCommandIsLostAndDoneMisleads : Obligations.DroppedCommandIsLostAndDoneMisleads := by
  intro s w hs hb hw he
  obtain ⟨u, hrun, hbusy, hdone, -, herr, hcode⟩ := RunsUndisturbed.completes ⟨hs, hb, hw, he⟩
  have hdrop : step { s with events := [.host (.write .w32 (s.cfg.regBase + 0x020) w)] } =
      .next (withBus true (some { error := false, data := 0 }) [] s) := step_cmdWord_of_busy hb rfl
  refine ⟨withBus true (some { error := false, data := 0 }) [] u, u, ?_, hrun, ?_, rfl, rfl, rfl, rfl, rfl⟩
  · rw [Nat.add_comm, runSteps_succ_of hdrop]
    exact runSteps_withBus_of_no_event true _ he hrun
  · simp only [withBus, hbusy, hdone, herr, hcode]

/-! ### WAIT with no command written (R200) -/

/-- The host is in the loop of WAIT and has not seen BUSY = 0 with DONE = 1: h0, and then the masked h1, say so. -/
structure HostCpu.InWaitLoop (p : HostCpu) : Prop where
  prog_eq : p.prog = waitLines 0
  at_line : p.pc = 0 ∨ (p.pc = 1 ∧ p.reg 0 &&& 0x3 ≠ 0x2) ∨ (p.pc = 2 ∧ p.reg 1 ≠ 0x2)

/-- A block with nothing to run and DONE = 0, and one host, which waits for DONE. -/
structure System.WaitsInVain (y : System) : Prop where
  nothing_runs : y.block.uq = []
  not_done : y.block.status.done = false
  one_host : ∃ p, y.hosts = [p] ∧ p.InWaitLoop

/-- The host's next line of WAIT leads to a line of WAIT. -/
theorem System.WaitsInVain.host_turn {y : System} (h : y.WaitsInVain) :
    ∃ z, y.turn (.host 0) = .next z ∧ z.WaitsInVain := by
  obtain ⟨huq, hdone, p, hosts_eq, hprog, hline⟩ := h
  have hp : y.hosts[0]? = some p := by rw [hosts_eq]; rfl
  have hset (q : HostCpu) : y.hosts.set 0 q = [q] := by rw [hosts_eq]; rfl
  rcases hline with hpc | ⟨hpc, h0⟩ | ⟨hpc, h1⟩
  -- R32 reads STATUS, whose DONE is 0
  · have hbits : ¬ statusWord y.block &&& 0x3 = 0x2 := by
      rw [statusWord_and_three_eq_two_iff, hdone]
      exact fun hn => Bool.false_ne_true hn.2
    have hturn := System.turn_r32 hp (off := 0x024) (h := 0) (by rw [hprog, hpc]; rfl) (by decide) rfl rfl
    refine ⟨_, hturn, huq, hdone, _, hset _, hprog, .inr (.inl ⟨?_, ?_⟩)⟩
    · rw [HostCpu.goto_pc, hpc]
    · rw [HostCpu.goto_reg, HostCpu.setReg_reg, if_pos rfl]
      exact hbits
  -- ANDI masks h0 into h1
  · have hturn := System.turn_local hp (op := .andi 1 0 0x3) (by rw [hprog, hpc]; rfl) rfl
    rw [HostCpu.afterLocal_andi] at hturn
    refine ⟨_, hturn, huq, hdone, _, hset _, hprog, .inr (.inr ⟨?_, ?_⟩)⟩
    · rw [HostCpu.goto_pc, hpc]
    · rw [HostCpu.goto_reg, HostCpu.setReg_reg, if_pos rfl]
      exact h0
  -- BNEI branches back, since h1 is not 0x2
  · have hturn := System.turn_local hp (op := .bnei 1 0x2 0) (by rw [hprog, hpc]; rfl) rfl
    rw [HostCpu.afterLocal_bnei, if_neg h1] at hturn
    exact ⟨_, hturn, huq, hdone, _, hset _, hprog, .inl rfl⟩

/-- Every turn but reset goes on and leaves the host waiting in vain: a sequencer with UQ empty has no step (R185). -/
theorem System.WaitsInVain.turn {y : System} (h : y.WaitsInVain) {t : Turn} (ht : t ≠ .reset) :
    ∃ z, y.turn t = .next z ∧ z.WaitsInVain := by
  cases t with
  | reset => exact absurd rfl ht
  | sequencer =>
    refine ⟨y, ?_, h⟩
    simp only [System.turn, sequencerStep, h.nothing_runs]
  | host n =>
    cases n with
    | zero => exact h.host_turn
    | succ n =>
      obtain ⟨p, hosts_eq, -⟩ := h.one_host
      refine ⟨y, ?_, h⟩
      simp only [System.turn, System.hostTurn, hosts_eq, List.getElem?_cons_succ, List.getElem?_nil]

/-- Under every schedule without a reset the host goes on waiting in vain. -/
theorem System.WaitsInVain.run {ts : List Turn} (hts : .reset ∉ ts) {y : System} (h : y.WaitsInVain) :
    ∃ z, System.run ts y = .next z ∧ z.WaitsInVain := by
  induction ts generalizing y with
  | nil => exact ⟨y, rfl, h⟩
  | cons t ts ih =>
    obtain ⟨ht, hts'⟩ := not_or.mp (List.mem_cons.not.mp hts)
    obtain ⟨z, hturn, hz⟩ := h.turn (Ne.symm ht)
    rw [System.run_cons_of hturn]
    exact ih hts' hz

/-- Settles O54: after reset the block has nothing to run and DONE = 0, and no turn but reset changes that or lets the
host out of WAIT. -/
theorem waitAfterResetNeverEnds : Obligations.WaitAfterResetNeverEnds := by
  intro cfg ts hts
  have hstart : System.WaitsInVain
      { block := State.resetWith cfg, hosts := [{ prog := waitLines 0, pc := 0, regs := [] }] } :=
    ⟨rfl, rfl, _, rfl, rfl, .inl rfl⟩
  obtain ⟨y, hrun, -, hdone, p, hosts_eq, -, hline⟩ := hstart.run hts
  exact ⟨y, p, hrun, hosts_eq, by omega, hdone⟩

end Sys2Proof.Machine
end
